-- ==== Sys2Proof/Word.lean ====
section
/-! DEFINITION. The word types of the block: bytes, command words, configuration blocks. -/

namespace Sys2Proof

/-- A register value, a register address, a pin index field: 8 bits (R20, R30, R51). -/
abbrev Byte := BitVec 8

/-- A command word `cw[23:0]` (R50). -/
abbrev CommandWord := BitVec 24

/-- The configuration block `cfgblk[111:0]` presented with CONSTRUCT (R54). -/
abbrev ConfigBlock := BitVec 112

end Sys2Proof
end

