-- ==== Sys2Proof/Syntax.lean ====
section
/-! DEFINITION. The operand types (R18, R19, R23), the 29 commands (R53) and the words they are presented as (R50). -/

namespace Sys2Proof

/-- Logical Port (R18). -/
inductive Port where
  | a
  | b
  deriving DecidableEq, Repr, Inhabited

/-- The eleven register kinds of a port (R19). -/
inductive RegKind where
  | direction
  | polarity
  | interruptEnable
  | defaultCompare
  | interruptControl
  | peripheralConfig
  | pullUp
  | interruptFlag
  | interruptCapture
  | currentValue
  | outputLatch
  deriving DecidableEq, Repr

/-- The seven kinds a Port Configuration holds, kind codes 0 to 6 (R23). -/
inductive CfgKind where
  | direction
  | polarity
  | interruptEnable
  | defaultCompare
  | interruptControl
  | peripheralConfig
  | pullUp
  deriving DecidableEq, Repr

/-- Bank Mode, a closed two-valued enumeration (R18). -/
inductive BankMode where
  | separate
  | common
  deriving DecidableEq, Repr, Inhabited

/-- Pin state (R18). -/
inductive PinState where
  | high
  | low
  deriving DecidableEq, Repr

/-- A Port Configuration: a snapshot of seven registers (R23). -/
structure PortConfig where
  direction : Byte
  polarity : Byte
  interruptEnable : Byte
  defaultCompare : Byte
  interruptControl : Byte
  peripheralConfig : Byte
  pullUp : Byte
  deriving DecidableEq, Repr

/-- The 29 commands, one constructor per row of the opcode table (R53). A pin operand is the 8-bit `sel` field, so
that the out-of-range case of the source exists (R51). -/
inductive Instr where
  | getDirection (port : Port)
  | getPolarity (port : Port)
  | getInterruptEnable (port : Port)
  | getDefaultCompare (port : Port)
  | getInterruptControl (port : Port)
  | getPeripheralConfig (port : Port)
  | getPullUp (port : Port)
  | getInterruptFlag (port : Port)
  | getInterruptCapture (port : Port)
  | getCurrentValue (port : Port)
  | getOutputLatch (port : Port)
  | setDirection (port : Port) (value : Byte)
  | setPolarity (port : Port) (value : Byte)
  | setInterruptEnable (port : Port) (value : Byte)
  | setDefaultCompare (port : Port) (value : Byte)
  | setInterruptControl (port : Port) (value : Byte)
  | setPeripheralConfig (port : Port) (value : Byte)
  | setPullUp (port : Port) (value : Byte)
  | setOutputLatch (port : Port) (value : Byte)
  | getPinState (port : Port) (pin : Byte)
  | setPinState (port : Port) (pin : Byte) (state : PinState)
  | setPin (port : Port) (pin : Byte)
  | resetPin (port : Port) (pin : Byte)
  | togglePin (port : Port) (pin : Byte)
  | setPins (port : Port)
  | resetPins (port : Port)
  | togglePins (port : Port)
  | construct (cfgA cfgB : PortConfig)
  | destruct
  deriving DecidableEq, Repr, Inhabited

/-- What HOST presents on the command port: the command word and the configuration block beside it (R50). -/
structure Command where
  word : CommandWord
  cfgblk : ConfigBlock
  deriving DecidableEq, Repr

/-- Why a command word is reserved (R56). -/
inductive Reserved where
  /-- `op` is 0x0, 0xD, 0xE or 0xF. -/
  | op
  /-- `rsv` is not 0. -/
  | rsv
  /-- a GET whose `sel` is no kind code. -/
  | getKind
  /-- a SET whose `sel` is no kind code or a kind that has no `set` (R57). -/
  | setKind
  /-- `data` is not 0 in a format G, P, Z, C or N word. -/
  | data
  /-- one of `data[7:1]` is set in a format T word. -/
  | stateBits
  /-- `sel` is not 0 in a format P, Z or C word. -/
  | sel
  /-- `port` is 1 in a format Z or C word. -/
  | port
  deriving DecidableEq, Repr

end Sys2Proof
end

