-- ==== Sys2Proof/Config.lean ====
section
/-! DEFINITION. The implementation parameters (R7), the record of transactions the environment sees, and the free values. -/

namespace Sys2Proof

/-- One transaction that has ended, as the history records it: a read and the byte it returned, a write and
its byte, and the two forms a transport failure leaves when `TRANSPORT_ERRORS` is on (R49, R152). -/
inductive Transaction where
  | read (addr data : Byte)
  | write (addr data : Byte)
  | readFailed (addr : Byte)
  | writeFailed (addr data : Byte)
  deriving DecidableEq, Repr

/-- The constant `BASE`: one base address for each of the eleven register kinds (R7, R71). -/
structure BaseTable where
  direction : Byte
  polarity : Byte
  interruptEnable : Byte
  defaultCompare : Byte
  interruptControl : Byte
  peripheralConfig : Byte
  pullUp : Byte
  interruptFlag : Byte
  interruptCapture : Byte
  currentValue : Byte
  outputLatch : Byte
  deriving DecidableEq, Repr

/-- `CFG_PORT_ORDER`: which port's seven bytes CONSTRUCT pushes first (R82, D8). -/
inductive PortOrder where
  | portAFirst
  | portBFirst
  deriving DecidableEq, Repr

/-- The parameters of R7, fixed for one machine. `DEV_ADDR` is `Config.deviceAddress` below. -/
structure Config where
  /-- `BASE` -/
  base : BaseTable
  /-- `OFF_SEPARATE` -/
  offSeparate : Byte
  /-- `OFF_COMMON` -/
  offCommon : Byte
  /-- `BANK_BIT`: the position of the bank bit in peripheral-configuration. -/
  bankBit : Fin 8
  /-- `BANK_SEP_VALUE`: the value of the bank bit that means separate. -/
  bankSepValue : Bool
  /-- `CFG_PORT_ORDER` -/
  cfgPortOrder : PortOrder
  /-- `IOCON_POS`: the position of the peripheral-configuration write among a port's seven. -/
  ioconPos : Fin 7
  /-- `RESET_PINS_READS` -/
  resetPinsReads : Bool
  /-- `PIN_CHECK` -/
  pinCheck : Bool
  /-- `BANK_MISMATCH_CHECK` -/
  bankMismatchCheck : Bool
  /-- `TRANSPORT_ERRORS` -/
  transportErrors : Bool
  deriving DecidableEq, Repr

/-- The documented `BASE` table, 0 to 10 in the order of the kinds (R7, R71). -/
def BaseTable.documented : BaseTable where
  direction := 0
  polarity := 1
  interruptEnable := 2
  defaultCompare := 3
  interruptControl := 4
  peripheralConfig := 5
  pullUp := 6
  interruptFlag := 7
  interruptCapture := 8
  currentValue := 9
  outputLatch := 10

/-- The documented constants and, for each parameter the source leaves open, the spec's default (R7). -/
def Config.documented : Config where
  base := BaseTable.documented
  offSeparate := 10
  offCommon := 1
  bankBit := 7
  bankSepValue := true
  cfgPortOrder := .portAFirst
  ioconPos := 6
  resetPinsReads := false
  pinCheck := false
  bankMismatchCheck := false
  transportErrors := false

/-- FREE VALUE: the byte the general environment answers a `read_byte` with (R49, U5). It may depend on how many
bytes were drawn before, on the whole history of transactions and on the address. Nothing constrains it. -/
opaque Config.oracle : Nat → List Transaction → Byte → Byte

/-- FREE VALUE: the decoder's output `addr_o` for `kind_i` 11 to 15, which the spec leaves undefined (R76, U10). -/
opaque Config.undefinedAddress : BitVec 1 → BitVec 4 → BitVec 1 → Byte

/-- FREE VALUE: `DEV_ADDR`, the 7-bit device address the transport holds. No rule reads it (R32, U17). -/
opaque Config.deviceAddress : BitVec 7

/-! FREE VALUES: what a read of `bank_mode`, `cmd`, `tmp` or `idx` gives while the register holds no value, where a model may
supply no value of its own choice (R26, U9; log 3). Each may depend on how many such reads came before. Nothing constrains
them. -/

/-- FREE VALUE: `bank_mode` read while it holds no value (R26, U9). -/
opaque Config.unwrittenMode : Nat → BankMode

/-- FREE VALUE: `cmd` read while it holds no value (R26, U9): some command, since only a command is ever accepted. -/
opaque Config.unwrittenCommand : Nat → Instr

/-- FREE VALUE: `tmp` read while it holds no value (R26, U9). -/
opaque Config.unwrittenTmp : Nat → Byte

/-- FREE VALUE: `idx` read while it holds no value (R26, U9). -/
opaque Config.unwrittenIdx : Nat → Fin 14

end Sys2Proof
end

