-- ==== Sys2Proof/WellFormed.lean ====
section
/-! DEFINITION. The check on a command's operands that the source states as an invariant: a pin index is in 0 to 7 (R18). -/

namespace Sys2Proof

/-- A pin index in 0 to 7 (R18). -/
def pinInRange (pin : Byte) : Bool := decide (pin.toNat ≤ 7)

/-- The operands meet the invariants of their types. Only a pin index can fail: every other operand type is closed. -/
def Instr.wellFormed : Instr → Bool
  | .getPinState _ pin => pinInRange pin
  | .setPinState _ pin _ => pinInRange pin
  | .setPin _ pin => pinInRange pin
  | .resetPin _ pin => pinInRange pin
  | .togglePin _ pin => pinInRange pin
  | .getDirection _ | .getPolarity _ | .getInterruptEnable _ | .getDefaultCompare _ | .getInterruptControl _
  | .getPeripheralConfig _ | .getPullUp _ | .getInterruptFlag _ | .getInterruptCapture _ | .getCurrentValue _
  | .getOutputLatch _ => true
  | .setDirection _ _ | .setPolarity _ _ | .setInterruptEnable _ _ | .setDefaultCompare _ _
  | .setInterruptControl _ _ | .setPeripheralConfig _ _ | .setPullUp _ _ | .setOutputLatch _ _ => true
  | .setPins _ | .resetPins _ | .togglePins _ => true
  | .construct _ _ | .destruct => true

end Sys2Proof
end

