-- ==== Sys2Proof/Decode.lean ====
section
/-! DEFINITION. The operand codes (R51), the fields of a command word (R50), the opcode map (R53), the decoder
(R56, R62), the encoder, and the configuration block of CONSTRUCT (R54). -/

namespace Sys2Proof

/-- A is 0, B is 1 (R51). -/
def Port.code : Port → BitVec 1
  | .a => 0
  | .b => 1

/-- The port a one-bit code names (R51). -/
def Port.ofCode (c : BitVec 1) : Port := if c = 0 then .a else .b

/-- The kind code, 0 to 10 (R19, R51). -/
def RegKind.code : RegKind → BitVec 4
  | .direction => 0
  | .polarity => 1
  | .interruptEnable => 2
  | .defaultCompare => 3
  | .interruptControl => 4
  | .peripheralConfig => 5
  | .pullUp => 6
  | .interruptFlag => 7
  | .interruptCapture => 8
  | .currentValue => 9
  | .outputLatch => 10

/-- The kind a code names; codes above 10 name none (R19, R56). -/
def RegKind.ofCode (n : Nat) : Option RegKind :=
  match n with
  | 0 => some .direction
  | 1 => some .polarity
  | 2 => some .interruptEnable
  | 3 => some .defaultCompare
  | 4 => some .interruptControl
  | 5 => some .peripheralConfig
  | 6 => some .pullUp
  | 7 => some .interruptFlag
  | 8 => some .interruptCapture
  | 9 => some .currentValue
  | 10 => some .outputLatch
  | _ => none

/-- LOW is 0, HIGH is 1 (R51). -/
def PinState.code : PinState → Byte
  | .high => 1
  | .low => 0

/-- The state `data[0]` carries (R51). -/
def PinState.ofBit (b : Bool) : PinState := if b then .high else .low

/-- Common is 0, separate is 1 (R51). -/
def BankMode.code : BankMode → BitVec 1
  | .common => 0
  | .separate => 1

/-- The mode a one-bit `mode_i` names (R51). -/
def BankMode.ofCode (c : BitVec 1) : BankMode := if c = 1 then .separate else .common

/-- `op`, bits 23:20 (R50). -/
def CommandWord.op (w : CommandWord) : BitVec 4 := w.extractLsb' 20 4

/-- `port`, bit 19 (R50). -/
def CommandWord.port (w : CommandWord) : BitVec 1 := w.extractLsb' 19 1

/-- `rsv`, bits 18:16 (R50). -/
def CommandWord.rsv (w : CommandWord) : BitVec 3 := w.extractLsb' 16 3

/-- `sel`, bits 15:8 (R50). -/
def CommandWord.sel (w : CommandWord) : Byte := w.extractLsb' 8 8

/-- `data`, bits 7:0 (R50). -/
def CommandWord.data (w : CommandWord) : Byte := w.extractLsb' 0 8

/-- One port's seven bytes from 56 bits: the byte of kind code `k` is at bits `8k+7 : 8k` (R54). -/
def PortConfig.unpack (v : BitVec 56) : PortConfig where
  direction := v.extractLsb' 0 8
  polarity := v.extractLsb' 8 8
  interruptEnable := v.extractLsb' 16 8
  defaultCompare := v.extractLsb' 24 8
  interruptControl := v.extractLsb' 32 8
  peripheralConfig := v.extractLsb' 40 8
  pullUp := v.extractLsb' 48 8

/-- One port's 56 bits: the byte of kind code `k` goes to bits `8k+7 : 8k` (R54). -/
def PortConfig.pack (c : PortConfig) : BitVec 56 :=
  c.direction.setWidth 56 ||| (c.polarity.setWidth 56 <<< 8) ||| (c.interruptEnable.setWidth 56 <<< 16)
    ||| (c.defaultCompare.setWidth 56 <<< 24) ||| (c.interruptControl.setWidth 56 <<< 32)
    ||| (c.peripheralConfig.setWidth 56 <<< 40) ||| (c.pullUp.setWidth 56 <<< 48)

/-- Port A's snapshot, `cfgblk[55:0]` (R54). -/
def ConfigBlock.portA (blk : ConfigBlock) : PortConfig := .unpack (blk.extractLsb' 0 56)

/-- Port B's snapshot, `cfgblk[111:56]` (R54). -/
def ConfigBlock.portB (blk : ConfigBlock) : PortConfig := .unpack (blk.extractLsb' 56 56)

/-- The configuration block of two snapshots (R54). -/
def ConfigBlock.ofConfigs (cfgA cfgB : PortConfig) : ConfigBlock :=
  cfgA.pack.setWidth 112 ||| (cfgB.pack.setWidth 112 <<< 56)

/-- The GET command of a kind (R53, R92 to R102). -/
def Instr.get (p : Port) : RegKind → Instr
  | .direction => .getDirection p
  | .polarity => .getPolarity p
  | .interruptEnable => .getInterruptEnable p
  | .defaultCompare => .getDefaultCompare p
  | .interruptControl => .getInterruptControl p
  | .peripheralConfig => .getPeripheralConfig p
  | .pullUp => .getPullUp p
  | .interruptFlag => .getInterruptFlag p
  | .interruptCapture => .getInterruptCapture p
  | .currentValue => .getCurrentValue p
  | .outputLatch => .getOutputLatch p

/-- The SET command of a kind; three kinds have none (R22, R57, R103 to R110). -/
def Instr.set (p : Port) (v : Byte) : RegKind → Option Instr
  | .direction => some (.setDirection p v)
  | .polarity => some (.setPolarity p v)
  | .interruptEnable => some (.setInterruptEnable p v)
  | .defaultCompare => some (.setDefaultCompare p v)
  | .interruptControl => some (.setInterruptControl p v)
  | .peripheralConfig => some (.setPeripheralConfig p v)
  | .pullUp => some (.setPullUp p v)
  | .interruptFlag => none
  | .interruptCapture => none
  | .currentValue => none
  | .outputLatch => some (.setOutputLatch p v)

/-- Format G: `sel` a kind code, `data` 0 (R52, R56). -/
def decodeGet (p : Port) (sel data : Byte) : Except Reserved Instr :=
  match RegKind.ofCode sel.toNat with
  | none => .error .getKind
  | some k => if data = 0 then .ok (.get p k) else .error .data

/-- Format S: `sel` the code of a kind that has a `set`, `data` the value (R52, R56, R57). -/
def decodeSet (p : Port) (sel data : Byte) : Except Reserved Instr :=
  match (RegKind.ofCode sel.toNat).bind (Instr.set p data) with
  | none => .error .setKind
  | some i => .ok i

/-- Format N: `sel` the pin index, `data` 0 (R52, R56). -/
def decodePin (i : Byte → Instr) (sel data : Byte) : Except Reserved Instr :=
  if data = 0 then .ok (i sel) else .error .data

/-- Format T: `sel` the pin index, `data[0]` the state, `data[7:1]` 0 (R52, R56). -/
def decodePinState (p : Port) (sel data : Byte) : Except Reserved Instr :=
  if data &&& 0xFE = 0 then .ok (.setPinState p sel (PinState.ofBit (data.getLsbD 0))) else .error .stateBits

/-- Format P: `sel` and `data` 0 (R52, R56). -/
def decodePort (i : Instr) (sel data : Byte) : Except Reserved Instr :=
  if sel = 0 then (if data = 0 then .ok i else .error .data) else .error .sel

/-- Formats C and Z: `port`, `sel` and `data` 0 (R52, R56). -/
def decodePlain (i : Instr) (port : BitVec 1) (sel data : Byte) : Except Reserved Instr :=
  if port = 0 then decodePort i sel data else .error .port

/-- The command decoder: total, every word is one of the 29 commands or reserved (R53, R56, R62). The configuration
block is read for CONSTRUCT only (R50). -/
def decode (c : Command) : Except Reserved Instr :=
  let w := c.word
  let p := Port.ofCode (CommandWord.port w)
  let sel := CommandWord.sel w
  let data := CommandWord.data w
  if CommandWord.rsv w = 0 then
    match (CommandWord.op w).toNat with
    | 0x1 => decodeGet p sel data
    | 0x2 => decodeSet p sel data
    | 0x3 => decodePin (Instr.getPinState p) sel data
    | 0x4 => decodePinState p sel data
    | 0x5 => decodePin (Instr.setPin p) sel data
    | 0x6 => decodePin (Instr.resetPin p) sel data
    | 0x7 => decodePin (Instr.togglePin p) sel data
    | 0x8 => decodePort (.setPins p) sel data
    | 0x9 => decodePort (.resetPins p) sel data
    | 0xA => decodePort (.togglePins p) sel data
    | 0xB => decodePlain (.construct (ConfigBlock.portA c.cfgblk) (ConfigBlock.portB c.cfgblk))
        (CommandWord.port w) sel data
    | 0xC => decodePlain .destruct (CommandWord.port w) sel data
    | _ => .error .op
  else .error .rsv

/-- A command word from its fields, `rsv` 0 (R50, R52). -/
def CommandWord.ofFields (op : BitVec 4) (port : BitVec 1) (sel data : Byte) : CommandWord :=
  (op.setWidth 24 <<< 20) ||| (port.setWidth 24 <<< 19) ||| (sel.setWidth 24 <<< 8) ||| data.setWidth 24

/-- A command that carries no configuration block: those lines are 0 (R50). -/
def Command.plain (op : BitVec 4) (port : BitVec 1) (sel data : Byte) : Command :=
  ⟨CommandWord.ofFields op port sel data, 0⟩

/-- The encoder: the word, and for CONSTRUCT the configuration block, of a command (R53, R54). -/
def encode : Instr → Command
  | .getDirection p => .plain 0x1 p.code 0x00 0x00
  | .getPolarity p => .plain 0x1 p.code 0x01 0x00
  | .getInterruptEnable p => .plain 0x1 p.code 0x02 0x00
  | .getDefaultCompare p => .plain 0x1 p.code 0x03 0x00
  | .getInterruptControl p => .plain 0x1 p.code 0x04 0x00
  | .getPeripheralConfig p => .plain 0x1 p.code 0x05 0x00
  | .getPullUp p => .plain 0x1 p.code 0x06 0x00
  | .getInterruptFlag p => .plain 0x1 p.code 0x07 0x00
  | .getInterruptCapture p => .plain 0x1 p.code 0x08 0x00
  | .getCurrentValue p => .plain 0x1 p.code 0x09 0x00
  | .getOutputLatch p => .plain 0x1 p.code 0x0A 0x00
  | .setDirection p v => .plain 0x2 p.code 0x00 v
  | .setPolarity p v => .plain 0x2 p.code 0x01 v
  | .setInterruptEnable p v => .plain 0x2 p.code 0x02 v
  | .setDefaultCompare p v => .plain 0x2 p.code 0x03 v
  | .setInterruptControl p v => .plain 0x2 p.code 0x04 v
  | .setPeripheralConfig p v => .plain 0x2 p.code 0x05 v
  | .setPullUp p v => .plain 0x2 p.code 0x06 v
  | .setOutputLatch p v => .plain 0x2 p.code 0x0A v
  | .getPinState p pin => .plain 0x3 p.code pin 0x00
  | .setPinState p pin st => .plain 0x4 p.code pin st.code
  | .setPin p pin => .plain 0x5 p.code pin 0x00
  | .resetPin p pin => .plain 0x6 p.code pin 0x00
  | .togglePin p pin => .plain 0x7 p.code pin 0x00
  | .setPins p => .plain 0x8 p.code 0x00 0x00
  | .resetPins p => .plain 0x9 p.code 0x00 0x00
  | .togglePins p => .plain 0xA p.code 0x00 0x00
  | .construct cfgA cfgB => ⟨CommandWord.ofFields 0xB 0 0x00 0x00, ConfigBlock.ofConfigs cfgA cfgB⟩
  | .destruct => .plain 0xC 0 0x00 0x00

/-- A row of the opcode map: a word `w` selects it when `w & mask = bits` (R53). -/
structure Pattern where
  bits : CommandWord
  mask : CommandWord
  deriving DecidableEq, Repr

/-- `(w & mask) == match` (R53). -/
def Pattern.selects (r : Pattern) (w : CommandWord) : Prop := w &&& r.mask = r.bits

/-- The `match` and `mask` of a command's row (R53). -/
def Instr.pattern : Instr → Pattern
  | .getDirection _ => ⟨0x100000, 0xF7FFFF⟩
  | .getPolarity _ => ⟨0x100100, 0xF7FFFF⟩
  | .getInterruptEnable _ => ⟨0x100200, 0xF7FFFF⟩
  | .getDefaultCompare _ => ⟨0x100300, 0xF7FFFF⟩
  | .getInterruptControl _ => ⟨0x100400, 0xF7FFFF⟩
  | .getPeripheralConfig _ => ⟨0x100500, 0xF7FFFF⟩
  | .getPullUp _ => ⟨0x100600, 0xF7FFFF⟩
  | .getInterruptFlag _ => ⟨0x100700, 0xF7FFFF⟩
  | .getInterruptCapture _ => ⟨0x100800, 0xF7FFFF⟩
  | .getCurrentValue _ => ⟨0x100900, 0xF7FFFF⟩
  | .getOutputLatch _ => ⟨0x100A00, 0xF7FFFF⟩
  | .setDirection _ _ => ⟨0x200000, 0xF7FF00⟩
  | .setPolarity _ _ => ⟨0x200100, 0xF7FF00⟩
  | .setInterruptEnable _ _ => ⟨0x200200, 0xF7FF00⟩
  | .setDefaultCompare _ _ => ⟨0x200300, 0xF7FF00⟩
  | .setInterruptControl _ _ => ⟨0x200400, 0xF7FF00⟩
  | .setPeripheralConfig _ _ => ⟨0x200500, 0xF7FF00⟩
  | .setPullUp _ _ => ⟨0x200600, 0xF7FF00⟩
  | .setOutputLatch _ _ => ⟨0x200A00, 0xF7FF00⟩
  | .getPinState _ _ => ⟨0x300000, 0xF700FF⟩
  | .setPinState _ _ _ => ⟨0x400000, 0xF700FE⟩
  | .setPin _ _ => ⟨0x500000, 0xF700FF⟩
  | .resetPin _ _ => ⟨0x600000, 0xF700FF⟩
  | .togglePin _ _ => ⟨0x700000, 0xF700FF⟩
  | .setPins _ => ⟨0x800000, 0xF7FFFF⟩
  | .resetPins _ => ⟨0x900000, 0xF7FFFF⟩
  | .togglePins _ => ⟨0xA00000, 0xF7FFFF⟩
  | .construct _ _ => ⟨0xB00000, 0xFFFFFF⟩
  | .destruct => ⟨0xC00000, 0xFFFFFF⟩

/-- The 29 rows of the opcode map in the table's order (R53). -/
def opcodeMap : List Pattern :=
  [⟨0x100000, 0xF7FFFF⟩, ⟨0x100100, 0xF7FFFF⟩, ⟨0x100200, 0xF7FFFF⟩, ⟨0x100300, 0xF7FFFF⟩, ⟨0x100400, 0xF7FFFF⟩,
    ⟨0x100500, 0xF7FFFF⟩, ⟨0x100600, 0xF7FFFF⟩, ⟨0x100700, 0xF7FFFF⟩, ⟨0x100800, 0xF7FFFF⟩, ⟨0x100900, 0xF7FFFF⟩,
    ⟨0x100A00, 0xF7FFFF⟩]
  ++ [⟨0x200000, 0xF7FF00⟩, ⟨0x200100, 0xF7FF00⟩, ⟨0x200200, 0xF7FF00⟩, ⟨0x200300, 0xF7FF00⟩, ⟨0x200400, 0xF7FF00⟩,
    ⟨0x200500, 0xF7FF00⟩, ⟨0x200600, 0xF7FF00⟩, ⟨0x200A00, 0xF7FF00⟩]
  ++ [⟨0x300000, 0xF700FF⟩, ⟨0x400000, 0xF700FE⟩, ⟨0x500000, 0xF700FF⟩, ⟨0x600000, 0xF700FF⟩, ⟨0x700000, 0xF700FF⟩]
  ++ [⟨0x800000, 0xF7FFFF⟩, ⟨0x900000, 0xF7FFFF⟩, ⟨0xA00000, 0xF7FFFF⟩, ⟨0xB00000, 0xFFFFFF⟩, ⟨0xC00000, 0xFFFFFF⟩]

/-- The command an opcode-table word stands for: the word in bits 23:0, and above it the configuration block, of which
the table gives no bit. -/
def tableCommand (nbits w : Nat) : Command :=
  ⟨BitVec.ofNat 24 (w % 2 ^ nbits), BitVec.ofNat 112 (w % 2 ^ nbits / 2 ^ 24)⟩

/-- The instruction the decoder reads from a word numbered as the opcode table numbers it. -/
def decodeTableWord (nbits w : Nat) : Option Instr :=
  match decode (tableCommand nbits w) with
  | .ok i => some i
  | .error _ => none

end Sys2Proof
end

