-- ==== Sys2Proof/Machine/State.lean ====
section
/-! DEFINITION. The state of the block and of its ports, what its environment and its host may do (as data), the reasons a
step can stop, and the state after reset. -/

namespace Sys2Proof.Machine

/-- `phase`: the position inside a command (R14, R16). -/
inductive Phase where
  | idle
  | rdPend
  | wrPend
  | cfgPend
  deriving DecidableEq, Repr

/-- `rsp_status` (R58, R141). -/
inductive Status where
  | ok
  | invalidPinIndex
  | bankMismatch
  | transportFailure
  deriving DecidableEq, Repr

/-- A response to HOST: `rsp_data` and `rsp_status` (R58). -/
structure Response where
  data : Byte
  status : Status
  deriving DecidableEq, Repr

/-- A request on the transport port: `bus_rw` is the constructor, then `bus_addr` and, on a write, `bus_wdata` (R31). -/
inductive BusRequest where
  | read (addr : Byte)
  | write (addr data : Byte)
  deriving DecidableEq, Repr

/-- How ENV meets an outstanding request. `ok` completes it. `busErr` completes it with `bus_err` 1 (R152), and
`took` says whether a write reached the register space all the same. `late` has not completed it yet.
`never` does not complete it, now or at any later attempt (R47, R169). -/
inductive Completion where
  | ok
  | busErr (took : Bool)
  | late
  | never
  deriving DecidableEq, Repr

/-- What ENV does at one attempt to complete a transaction: first its own changes of the register space, as pairs of
an address and a byte (R42, R43), then the completion. -/
structure BusTurn where
  pokes : List (Byte × Byte)
  completion : Completion
  deriving DecidableEq, Repr

/-- Which environment answers reads: the general one of R49, or the plain byte array of R48. -/
inductive Environment where
  | general
  | reference
  deriving DecidableEq, Repr

/-- How much of a command the block's move takes. With `event` it is one event of R8: the block accepts a command (and issues
its first request), performs one transaction, or delivers a response. With `command` it is all the events of a command up to
its response or to a transaction that has not completed, with no other agent between them (log 1). -/
inductive Grain where
  | event
  | command
  deriving DecidableEq, Repr

/-- Who acts next (R8): HOST presents a command (R50); HOST drives the reset input (R160), where `took` says whether a write
outstanding at that moment reached the register space (R172); ENV changes a register (R43); or the block, SEQ, has its move,
of the grain given. The order of the entries is the order of the events (log 25). -/
inductive Input where
  | command (c : Command)
  | reset (took : Bool)
  | envWrite (addr data : Byte)
  | seq (g : Grain)
  deriving DecidableEq, Repr

/-- The register space behind the transport as the reference environment holds it (R30, R48): addresses and bytes, in
the canonical form `Memory.wf`. -/
abbrev Memory := List Host.Cell

/-- A recorded fault: which register was read while it held no value (R26, U9). -/
inductive UnwrittenRead where
  | bankMode
  | cmd
  | tmp
  | idx
  deriving DecidableEq, Repr

structure State where
  /-- The parameters of R7, never written. -/
  config : Config
  /-- The lifecycle flag (R10). -/
  initialized : Bool
  /-- The cached bank mode (R11); none is "holds no value" (R26). -/
  bankMode : Option BankMode
  /-- The position in the command (R14, R16). -/
  phase : Phase
  /-- The accepted command (R14); none is "holds no value" (R26). -/
  cmd : Option Command
  /-- The byte the read half of a read-modify-write returned (R14); none is "holds no value" (R26). -/
  tmp : Option Byte
  /-- Which construction write is in progress, 0 to 13 (R14); none is "holds no value" (R26). -/
  idx : Option (Fin 14)
  /-- The command port: the command HOST presents and the block has not accepted yet, `cw` with `cfgblk` (R8, R50, R54). -/
  presented : Option Command
  /-- The response port; none is "no response pending" (R26, R58). -/
  rsp : Option Response
  /-- The response of a command whose last transaction has completed, not delivered yet (R8, R58); none is "none to
  deliver". -/
  due : Option Response
  /-- HOST: it waits for the response to the last command it has presented (R9, R50, R151). -/
  awaited : Bool
  /-- The outstanding request on the transport port, at most one (R31, R40). -/
  bus : Option BusRequest
  /-- The register space of the reference environment (R48). -/
  memory : Memory
  /-- Which environment answers (R48, R49). -/
  env : Environment
  /-- MODEL: what ENV does at the coming attempts to complete a transaction (R42, R43, R47). -/
  turns : List BusTurn
  /-- MODEL: who acts next and how, first event first (R8, R50, R160; log 25). Where no entry is left the block has its moves,
  one event each. -/
  inputs : List Input
  /-- The transactions that have ended, in program order (R49). -/
  history : List Transaction
  /-- MODEL: how many free bytes have been drawn (R49). -/
  draws : Nat
  /-- MODEL: how much the block's move in hand takes, written when the block is given the move (R8; log 1). -/
  grain : Grain
  /-- MODEL: the faults recorded, oldest first: the reads of a register that held no value. U9 of 93_implementation_defined.md
  says such a read must `fault`: "the model records a fault and the run supports no claim" (log 3). -/
  faults : List UnwrittenRead
  deriving DecidableEq, Repr

/-- Reasons the machine stops with a fault: none. The block has no fault of its own (R140, R145), and a read of a register that
holds no value is a fault the state records, not a stop (`State.faults`; U9, log 3). -/
inductive Fault where
  deriving DecidableEq, Repr

/-- Reasons the model gives a command no meaning: the outcome "refused" of R150, a verdict of the model and not an event of
the hardware. All safe: a run that contains one supports no claim. -/
inductive Refusal where
  /-- An instruction without a meaning yet: raised by exec's arm only. Safe. -/
  | notModelled (mnemonic : String)
  /-- A reserved command word (R56): raised by the fetch. Safe. -/
  | reservedWord (why : Reserved)
  /-- A command other than CONSTRUCT while `initialized` is 0 (R86): raised by its admission. Safe. -/
  | notInitialized
  /-- CONSTRUCT while `initialized` is 1 (R86): raised by its admission. Safe. -/
  | alreadyInitialized
  /-- A pin index above 7 with `PIN_CHECK` off (R131): raised by the five pin commands. Safe. -/
  | pinIndexOutOfRange
  /-- A command executed while another one is in progress, or before its response is delivered (R86, R151, U16): raised by
  admission, and by no step. Safe. -/
  | commandInProgress
  deriving DecidableEq, Repr

/-- The state after reset (R26, R160): `initialized` 0, `phase` IDLE, no value in `bank_mode`, `cmd`, `tmp` and `idx`, no
response pending, no request outstanding, an empty history. The parameters have the documented values and defaults.
ENV and HOST: DESIGN CHOICE, the general environment, a trusted transport, nothing presented yet (log 4, 5, 8, 11), the grain
that of R8 (log 1). No fault is recorded (U9). -/
def State.reset : State where
  config := Config.documented
  initialized := false
  bankMode := none
  phase := .idle
  cmd := none
  tmp := none
  idx := none
  presented := none
  rsp := none
  due := none
  awaited := false
  bus := none
  memory := []
  env := .general
  turns := []
  inputs := []
  history := []
  draws := 0
  grain := .event
  faults := []

end Sys2Proof.Machine
end

