-- ==== Sys2Proof/Machine/Operands.lean ====
section
/-! DEFINITION. Every operand computation: the pin mask (R70), the base table (R71), the address function (R72) and the
decoder block (R76), the bytes of a configuration snapshot (R23) and the fourteen construction writes (R82). -/

namespace Sys2Proof.Machine

/-- `pin_mask`: `1 << pin_index` for an index in 0 to 7, and no value outside (R70, R131). -/
def pinMask (pin : Byte) : Option Byte :=
  if pin.toNat ≤ 7 then some (1#8 <<< pin.toNat) else none

/-- `base(kind)`, the constant `BASE[kind]` (R71). -/
def baseAddress (t : BaseTable) : RegKind → Byte
  | .direction => t.direction
  | .polarity => t.polarity
  | .interruptEnable => t.interruptEnable
  | .defaultCompare => t.defaultCompare
  | .interruptControl => t.interruptControl
  | .peripheralConfig => t.peripheralConfig
  | .pullUp => t.pullUp
  | .interruptFlag => t.interruptFlag
  | .interruptCapture => t.interruptCapture
  | .currentValue => t.currentValue
  | .outputLatch => t.outputLatch

/-- What is added for a port in a mode: 0 for port A, `OFF_SEPARATE` or `OFF_COMMON` for port B (R72). -/
def portOffset (c : Config) : Port → BankMode → Byte
  | .a, _ => 0
  | .b, .separate => c.offSeparate
  | .b, .common => c.offCommon

/-- `address(port, kind, mode)`: total, addition modulo 256 (R72, R73). -/
def address (c : Config) (p : Port) (k : RegKind) (m : BankMode) : Byte :=
  baseAddress c.base k + portOffset c p m

/-- The address decoder as a hardware block: `addr_o` from `port_i`, `kind_i` and `mode_i`. For `kind_i` 11 to 15 the
output is not defined and is a free value (R76, U10; log 18). -/
def addressDecoder (c : Config) (portI : BitVec 1) (kindI : BitVec 4) (modeI : BitVec 1) : Byte :=
  match RegKind.ofCode kindI.toNat with
  | some k => address c (Port.ofCode portI) k (BankMode.ofCode modeI)
  | none => Config.undefinedAddress portI kindI modeI

/-- `cfg[k]`: the byte of a kind in a snapshot (R23). -/
def configByte (cfg : PortConfig) : CfgKind → Byte
  | .direction => cfg.direction
  | .polarity => cfg.polarity
  | .interruptEnable => cfg.interruptEnable
  | .defaultCompare => cfg.defaultCompare
  | .interruptControl => cfg.interruptControl
  | .peripheralConfig => cfg.peripheralConfig
  | .pullUp => cfg.pullUp

/-- The register kind of one of the seven configuration kinds (R23). -/
def configKind : CfgKind → RegKind
  | .direction => .direction
  | .polarity => .polarity
  | .interruptEnable => .interruptEnable
  | .defaultCompare => .defaultCompare
  | .interruptControl => .interruptControl
  | .peripheralConfig => .peripheralConfig
  | .pullUp => .pullUp

/-- `SIX`: the six kinds whose order the source fixes (R82). -/
def orderedSix : List CfgKind :=
  [.direction, .polarity, .interruptEnable, .defaultCompare, .interruptControl, .pullUp]

/-- `SEVEN`: `SIX` with peripheral-configuration inserted at `IOCON_POS` (R82). -/
def orderedSeven (c : Config) : List CfgKind :=
  orderedSix.take c.ioconPos.val ++ .peripheralConfig :: orderedSix.drop c.ioconPos.val

/-- One construction write: an address and the byte for it (R82). -/
structure PushWrite where
  addr : Byte
  data : Byte
  deriving DecidableEq, Repr

/-- The seven writes of one port, each the snapshot's own byte (R82). -/
def portPushes (c : Config) (m : BankMode) (p : Port) (cfg : PortConfig) : List PushWrite :=
  (orderedSeven c).map fun k => ⟨address c p (configKind k) m, configByte cfg k⟩

/-- The fourteen writes of CONSTRUCT in order, all with the derived mode (R81, R82). -/
def pushWrites (c : Config) (m : BankMode) (cfgA cfgB : PortConfig) : List PushWrite :=
  match c.cfgPortOrder with
  | .portAFirst => portPushes c m .a cfgA ++ portPushes c m .b cfgB
  | .portBFirst => portPushes c m .b cfgB ++ portPushes c m .a cfgA

end Sys2Proof.Machine
end

