-- ==== Sys2Proof/Machine/Flags.lean ====
section
/-! DEFINITION. The condition results of the block: the bank bit and the mode derived from two of them (R21, R81), the pin
state (R121), the response byte and the status codes (R58, R141), the output `initialized_o` (R58). -/

namespace Sys2Proof.Machine

/-- `bank_bit(v) = v[BANK_BIT]` (R21). -/
def bankBit (c : Config) (v : Byte) : Bool := v.getLsbD c.bankBit.val

/-- The bank mode CONSTRUCT derives: the AND of the two snapshots' bank bits, compared with `BANK_SEP_VALUE` (R81). -/
def derivedMode (c : Config) (cfgA cfgB : PortConfig) : BankMode :=
  if (bankBit c cfgA.peripheralConfig && bankBit c cfgB.peripheralConfig) = c.bankSepValue then .separate else .common

/-- The two snapshots carry different bank bits (R84). -/
def bankBitsDiffer (c : Config) (cfgA cfgB : PortConfig) : Bool :=
  bankBit c cfgA.peripheralConfig != bankBit c cfgB.peripheralConfig

/-- HIGH iff `(value & mask) != 0` (R121). -/
def pinState (value mask : Byte) : PinState := if value &&& mask = 0 then .low else .high

/-- The response byte of a pin state: 0x01 for HIGH, 0x00 for LOW (R58). -/
def pinStateByte : PinState → Byte
  | .high => 0x01
  | .low => 0x00

/-- The code `rsp_status[1:0]` (R141). -/
def statusCode : Status → BitVec 2
  | .ok => 0
  | .invalidPinIndex => 1
  | .bankMismatch => 2
  | .transportFailure => 3

/-- The level output `initialized_o`, equal to the flag (R58). -/
def initializedOut (s : State) : BitVec 1 := if s.initialized then 1 else 0

end Sys2Proof.Machine
end

