-- ==== Sys2Proof/Machine/Ops.lean ====
section
/-! DEFINITION. The named operations over the register space and the state: memory, the transport (one transaction), the
response, the scripts of one and two transactions and of the construction push, admission (R86), the ending of a
command in an error (R144), and the reset input (R160, R172). -/

namespace Sys2Proof.Machine

/-! ### The register space of the reference environment (R48) -/

/-- What an address that is not listed reads as. DESIGN CHOICE (log 4). -/
def Memory.unlisted : Byte := 0x00

/-- The byte at a key of the list. -/
def Memory.lookup : Memory → Nat → Byte
  | [], _ => Memory.unlisted
  | (k, v) :: rest, a => if k = a then v else Memory.lookup rest a

/-- The list with the byte at a key set, in canonical form: a byte equal to the unlisted one is not listed. -/
def Memory.store : Memory → Nat → Byte → Memory
  | [], a, v => if v = Memory.unlisted then [] else [(a, v)]
  | (k, w) :: rest, a, v =>
    if a < k then (if v = Memory.unlisted then (k, w) :: rest else (a, v) :: (k, w) :: rest)
    else if a = k then (if v = Memory.unlisted then rest else (a, v) :: rest)
    else (k, w) :: Memory.store rest a v

/-- `P[a]` (R48). -/
def Memory.read (m : Memory) (a : Byte) : Byte := Memory.lookup m a.toNat

/-- `P[a] <- v` (R48). -/
def Memory.write (m : Memory) (a v : Byte) : Memory := Memory.store m a.toNat v

/-- The canonical form: addresses strictly rising, all in 0 to 255, no entry equal to the unlisted byte. -/
abbrev Memory.wf (m : Memory) : Prop :=
  m.Pairwise (fun c d => c.1 < d.1) ∧ ∀ c ∈ m, c.1 < 256 ∧ c.2 ≠ Memory.unlisted

/-- ENV's own changes of the register space, in order (R43). -/
def pokeAll : List (Byte × Byte) → Memory → Memory
  | [], m => m
  | (a, v) :: rest, m => pokeAll rest (Memory.write m a v)

/-! ### Updates of the state -/

/-- The sequencer takes a command: `cmd` is written, no response is pending while it runs (R14, R58). -/
def accept (c : Command) (s : State) : State := { s with cmd := some c, rsp := none }

/-- A request is held on the transport port and the sequencer waits in a phase for its completion (R16, R31). -/
def hold (ph : Phase) (r : BusRequest) (s : State) : State := { s with phase := ph, bus := some r }

/-- A transaction has ended: nothing is outstanding, the history records it (R40, R49). -/
def settle (t : Transaction) (s : State) : State := { s with bus := none, history := s.history ++ [t] }

/-- `respond(v)` (R58, R90): the command has ended, `phase` is back in IDLE, and the transient registers, live only while a
command is in progress, hold no value: no copy of a configuration byte is kept (R13, R14, R16; log 15). At the grain of
events the response is now due and its delivery is a step of its own (R8; log 1); else it is delivered, and HOST waits for it no
longer (R9). -/
def respond (v : Byte) (st : Status) (s : State) : State :=
  { s with
    phase := .idle
    cmd := none
    tmp := none
    idx := none
    rsp := match s.grain with
      | .event => s.rsp
      | .command => some ⟨v, st⟩
    due := match s.grain with
      | .event => some ⟨v, st⟩
      | .command => none
    awaited := match s.grain with
      | .event => s.awaited
      | .command => false }

/-- The response that is due is delivered to HOST, once (R8, R58), and HOST waits for it no longer (R9). -/
def deliver (s : State) : State := { s with rsp := s.due, due := none, awaited := false }

/-- `tmp <- v` (R120). -/
def latchTmp (v : Byte) (s : State) : State := { s with tmp := some v }

/-- `bank_mode <- m` (R81). -/
def cacheMode (m : BankMode) (s : State) : State := { s with bankMode := some m }

/-- `idx <- n`, the construction write in progress (R14, R82). -/
def countPush (n : Nat) (s : State) : State := { s with idx := some (Fin.ofNat 14 n) }

/-- A register that holds no value is read: "the model records a fault and the run supports no claim" (U9 of
93_implementation_defined.md; R26). The record is kept for the whole run. -/
def recordFault (r : UnwrittenRead) (s : State) : State := { s with faults := s.faults ++ [r] }

/-- `initialized <- b` (R83, R85). -/
def setLifecycle (b : Bool) (s : State) : State := { s with initialized := b }

/-! ### Reading a register that may hold no value (R26, U9; log 3)

A register that holds its value reads as it. One that holds none records a fault, and what it reads as is a free value: never a
value the model supplies. -/

/-- What `bank_mode` reads as (R11). -/
def modeOf (s : State) : BankMode :=
  match s.bankMode with
  | some m => m
  | none => Config.unwrittenMode s.faults.length

/-- `bank_mode` has been read; only CONSTRUCT writes it (R11). -/
def noteMode (s : State) : State :=
  match s.bankMode with
  | some _ => s
  | none => recordFault .bankMode s

/-- What `tmp` reads as (R14). -/
def tmpOf (s : State) : Byte :=
  match s.tmp with
  | some x => x
  | none => Config.unwrittenTmp s.faults.length

/-- `tmp` has been read, and holds what it was read as until its command ends. -/
def noteTmp (s : State) : State :=
  match s.tmp with
  | some _ => s
  | none => { recordFault .tmp s with tmp := some (tmpOf s) }

/-- What `idx` reads as (R14). -/
def idxOf (s : State) : Fin 14 :=
  match s.idx with
  | some n => n
  | none => Config.unwrittenIdx s.faults.length

/-- `idx` has been read, and holds what it was read as until the push goes on. -/
def noteIdx (s : State) : State :=
  match s.idx with
  | some _ => s
  | none => { recordFault .idx s with idx := some (idxOf s) }

/-- What `cmd` reads as (R14). -/
def commandOf (s : State) : Command :=
  match s.cmd with
  | some c => c
  | none => encode (Config.unwrittenCommand s.faults.length)

/-- `cmd` has been read, and holds what it was read as until the command ends. -/
def noteCmd (s : State) : State :=
  match s.cmd with
  | some _ => s
  | none => { recordFault .cmd s with cmd := some (commandOf s) }

/-! ### The transport: one transaction -/

/-- One more free byte has been drawn. -/
def advance (s : State) : State := { s with draws := s.draws + 1 }

/-- The free byte the environment answers a read of `a` with, at the present draw (R49; log 5). -/
def freeByte (a : Byte) (s : State) : Byte := Config.oracle s.draws s.history a

/-- What ENV answers a completed `read_byte(a)` with: any byte in the general environment (R49), `P[a]` in the
reference environment (R48). -/
def answer (a : Byte) (s : State) : Byte × State :=
  match s.env with
  | .general => (freeByte a s, advance s)
  | .reference => (Memory.read s.memory a, s)

/-- What a `write_byte(a, v)` that reaches the register space does there: `P[a] <- v` in the reference environment (R48);
in the general environment it is recorded in the history and has no other effect (R49). -/
def absorb (a v : Byte) (s : State) : State :=
  match s.env with
  | .general => s
  | .reference => { s with memory := Memory.write s.memory a v }

/-- ENV's turn at the transport: its own changes of the register space, then how it meets the request. No turn left is
the transport the block trusts, which completes with no ENV step (R47; log 8). A `never` stays for every later
attempt (R169). -/
def takeTurn (s : State) : Completion × State :=
  match s.turns with
  | [] => (.ok, s)
  | t :: rest =>
    (t.completion, { s with
      memory := pokeAll t.pokes s.memory
      turns := if t.completion = .never then ⟨[], .never⟩ :: rest else rest })

/-- How an attempt at one transaction ends: done, failed with `bus_err` seen by the block, or still waiting. -/
inductive Tx (α : Type) where
  | done (x : α) (s : State)
  | failed (s : State)
  | waiting (s : State)

/-- `MemRead(a, 1)`: exactly one `read_byte(a)` (R31, R90). With `TRANSPORT_ERRORS` off a failed read completes as if
nothing had happened and returns a byte the block takes at face value (R152; log 9). -/
def readByte (a : Byte) (s : State) : Tx Byte :=
  match takeTurn (hold .rdPend (.read a) s) with
  | (.ok, s1) => .done (answer a s1).1 (settle (.read a (answer a s1).1) (answer a s1).2)
  | (.busErr _, s1) =>
    if s1.config.transportErrors then .failed (settle (.readFailed a) s1)
    else .done (freeByte a s1) (settle (.read a (freeByte a s1)) (advance s1))
  | (.late, s1) => .waiting s1
  | (.never, s1) => .waiting s1

/-- `MemWrite(a, 1, v)`: exactly one `write_byte(a, v)`, in phase WR_PEND or CFG_PEND (R31, R91, R82). A failed write may
or may not have reached the register space (log 10). -/
def writeByte (ph : Phase) (a v : Byte) (s : State) : Tx Unit :=
  match takeTurn (hold ph (.write a v) s) with
  | (.ok, s1) => .done () (settle (.write a v) (absorb a v s1))
  | (.busErr took, s1) =>
    let s2 := if took then absorb a v s1 else s1
    if s2.config.transportErrors then .failed (settle (.writeFailed a v) s2)
    else .done () (settle (.write a v) s2)
  | (.late, s1) => .waiting s1
  | (.never, s1) => .waiting s1

/-! ### Taking an error (R144): there is no exception entry in this block -/

/-- A command ends in an error: `phase` returns to IDLE and the response carries the status and `rsp_data` 0x00. Nothing
is saved, no mode changes, no further transaction is issued, nothing is latched (R144, R145). -/
def endInError (st : Status) (s : State) : State := respond 0x00 st s

/-! ### The scripts -/

/-- A command begins its first transaction. At the grain of events the acceptance is a step of its own, which ends with the
request issued (R8, R16; log 1); a command in progress goes on. -/
def opening (ph : Phase) (r : BusRequest) (k : State → Host.Outcome State Fault Refusal) (s : State) :
    Host.Outcome State Fault Refusal :=
  if s.phase = .idle ∧ s.grain = .event then .next (hold ph r s) else k s

/-- A command goes on to a later transaction. At the grain of events the transaction before it was a step, which ends with
the next request issued (R8, R16; log 1). -/
def following (ph : Phase) (r : BusRequest) (k : State → Host.Outcome State Fault Refusal) (s : State) :
    Host.Outcome State Fault Refusal :=
  if s.grain = .event then .next (hold ph r s) else k s

/-- The last transaction of a command that ends with a read, and its response, a function of the byte (R90, R121). -/
def lastRead (a : Byte) (post : Byte → Byte) (s : State) : Host.Outcome State Fault Refusal :=
  match readByte a s with
  | .done v s1 => .next (respond (post v) .ok s1)
  | .failed s1 => .next (endInError .transportFailure s1)
  | .waiting s1 => .next s1

/-- The last transaction of a command that ends with a write, and its response 0x00 (R91). -/
def lastWrite (a v : Byte) (s : State) : Host.Outcome State Fault Refusal :=
  match writeByte .wrPend a v s with
  | .done _ s1 => .next (respond 0x00 .ok s1)
  | .failed s1 => .next (endInError .transportFailure s1)
  | .waiting s1 => .next s1

/-- One read, the response a function of the byte (R90, R121). -/
def readScript (a : Byte) (post : Byte → Byte) (s : State) : Host.Outcome State Fault Refusal :=
  opening .rdPend (.read a) (lastRead a post) s

/-- One write, the response 0x00 (R91). -/
def writeScript (a v : Byte) (s : State) : Host.Outcome State Fault Refusal :=
  opening .wrPend (.write a v) (lastWrite a v) s

/-- The write half of a read-modify-write: the byte written is `f(tmp)` (R120). -/
def rmwWriteHalf (a : Byte) (f : Byte → Byte) (s : State) : Host.Outcome State Fault Refusal :=
  lastWrite a (f (tmpOf s)) (noteTmp s)

/-- A read-modify-write from its read half: `[RD a -> tmp ; WR a f(tmp)]` (R120). -/
def rmwReadHalf (a : Byte) (f : Byte → Byte) (s : State) : Host.Outcome State Fault Refusal :=
  match readByte a s with
  | .done v s1 => following .wrPend (.write a (f v)) (rmwWriteHalf a f) (latchTmp v s1)
  | .failed s1 => .next (endInError .transportFailure s1)
  | .waiting s1 => .next s1

/-- A read-modify-write from where the sequencer stands: from the write half in WR_PEND, else from the read half. -/
def rmwScript (a : Byte) (f : Byte → Byte) (s : State) : Host.Outcome State Fault Refusal :=
  match s.phase with
  | .wrPend => rmwWriteHalf a f s
  | .idle | .rdPend | .cfgPend => opening .rdPend (.read a) (rmwReadHalf a f) s

/-- The state with construction write number `n` issued, if there is one and the grain makes that the end of the step (R8, R16;
log 1). -/
def pushPause (ws : List PushWrite) (n : Nat) (s : State) : Option State :=
  match ws, s.grain with
  | w :: _, .event => some (hold .cfgPend (.write w.addr w.data) (countPush n s))
  | _ :: _, .command => none
  | [], _ => none

/-- The construction push from write number `n` on, its request issued or not; after the last write `initialized` is set and
the response given (R82, R83). -/
def pushScript : List PushWrite → Nat → State → Host.Outcome State Fault Refusal
  | [], _, s => .next (respond 0x00 .ok (setLifecycle true s))
  | w :: rest, n, s =>
    match writeByte .cfgPend w.addr w.data (countPush n s) with
    | .done _ s1 =>
      match pushPause rest (n + 1) s1 with
      | some s2 => .next s2
      | none => pushScript rest (n + 1) s1
    | .failed s1 => .next (endInError .transportFailure s1)
    | .waiting s1 => .next s1

/-- The construction push from its first write (R82). -/
def pushFromStart (ws : List PushWrite) (s : State) : Host.Outcome State Fault Refusal :=
  match pushPause ws 0 s with
  | some s1 => .next s1
  | none => pushScript ws 0 s

/-! ### Admission (R86) and operand checks (R143) -/

/-- Why a command other than CONSTRUCT is not admitted: in IDLE it needs `initialized`, and the response of the command before it
delivered; in any other phase the only command the sequencer goes on with is the one it has accepted (R86, R40). -/
def admission (i : Instr) (s : State) : Option Refusal :=
  match s.phase, s.due with
  | .idle, none => if s.initialized then none else some .notInitialized
  | .idle, some _ => some .commandInProgress
  | .rdPend, _ | .wrPend, _ | .cfgPend, _ => if s.cmd = some (encode i) then none else some .commandInProgress

/-- Why CONSTRUCT is not admitted (R86). -/
def constructAdmission (i : Instr) (s : State) : Option Refusal :=
  match s.phase, s.due with
  | .idle, none => if s.initialized then some .alreadyInitialized else none
  | .idle, some _ => some .commandInProgress
  | .rdPend, _ | .wrPend, _ | .cfgPend, _ => if s.cmd = some (encode i) then none else some .commandInProgress

/-- The command is in `cmd`: taken now if the block is IDLE, there already if it is in progress. -/
def present (i : Instr) (s : State) : State :=
  match s.phase with
  | .idle => accept (encode i) s
  | .rdPend | .wrPend | .cfgPend => s

/-- Go on with the cached bank mode (R11). -/
def withMode (k : BankMode → State → Host.Outcome State Fault Refusal) (s : State) : Host.Outcome State Fault Refusal :=
  k (modeOf s) (noteMode s)

/-- A command that has no operand check: admission, then its script (R143). -/
def operate (i : Instr) (k : BankMode → State → Host.Outcome State Fault Refusal) (s : State) :
    Host.Outcome State Fault Refusal :=
  match admission i s with
  | some r => .refused r
  | none => withMode k (present i s)

/-- A pin index above 7: an error status with `PIN_CHECK` on, refused with it off; no transaction either way (R131). -/
def badPinIndex (s : State) : Host.Outcome State Fault Refusal :=
  if s.config.pinCheck then .next (endInError .invalidPinIndex s) else .refused .pinIndexOutOfRange

/-- A pin command: admission, then the check of the pin index, then its script with the pin mask (R131, R143). -/
def operatePin (i : Instr) (pin : Byte) (k : Byte → BankMode → State → Host.Outcome State Fault Refusal) (s : State) :
    Host.Outcome State Fault Refusal :=
  match admission i s with
  | some r => .refused r
  | none =>
    match pinMask pin with
    | none => badPinIndex (present i s)
    | some mask => withMode (k mask) (present i s)

/-! ### The shapes of the commands -/

/-- `get_K(port)` (R90). -/
def getRegister (i : Instr) (p : Port) (k : RegKind) (s : State) : Host.Outcome State Fault Refusal :=
  operate i (fun m s1 => readScript (address s1.config p k m) (fun v => v) s1) s

/-- `set_K(port, value)` (R91). -/
def setRegister (i : Instr) (p : Port) (k : RegKind) (v : Byte) (s : State) : Host.Outcome State Fault Refusal :=
  operate i (fun m s1 => writeScript (address s1.config p k m) v s1) s

/-- `rmw(port, f)` on the current-value register with a pin mask (R120, R123 to R125). -/
def pinRmw (i : Instr) (p : Port) (pin : Byte) (f : Byte → Byte → Byte) (s : State) : Host.Outcome State Fault Refusal :=
  operatePin i pin (fun mask m s1 => rmwScript (address s1.config p .currentValue m) (fun x => f x mask) s1) s

/-- `rmw(port, f)` on the current-value register (R120, R126, R128). -/
def portRmw (i : Instr) (p : Port) (f : Byte → Byte) (s : State) : Host.Outcome State Fault Refusal :=
  operate i (fun m s1 => rmwScript (address s1.config p .currentValue m) f s1) s

/-! ### The reset input (R160, R172) -/

/-- A write that was outstanding when reset came may or may not have reached the register space (R172). -/
def tornWrite (took : Bool) (s : State) : State :=
  match s.bus, took with
  | some (.write a v), true => absorb a v s
  | _, _ => s

/-- The turn at which a transport hangs belongs to the request that reset abandons. -/
def dropHang : List BusTurn → List BusTurn
  | [] => []
  | t :: rest => if t.completion = .never then rest else t :: rest

/-- The registers after the reset input: those of R26, and nothing presented (log 20). The history is kept, the peripheral is
not touched, no transaction is issued and no response delivered (R160, R172), so HOST waits on for one it waited for. -/
def clearRegisters (s : State) : State :=
  { s with
    initialized := false
    bankMode := none
    phase := .idle
    cmd := none
    tmp := none
    idx := none
    presented := none
    rsp := none
    due := none
    bus := none
    turns := match s.bus with
      | some _ => dropHang s.turns
      | none => s.turns }

/-- The reset input, in any phase: a command in progress is torn (R160, R172; log 20). -/
def resetInput (took : Bool) (s : State) : State := clearRegisters (tornWrite took s)

end Sys2Proof.Machine
end

