-- ==== Sys2Proof/Machine/Lifecycle.lean ====
section
/-! DEFINITION. Construction and destruction (41_lifecycle.md). -/

namespace Sys2Proof.Machine

/-- CONSTRUCT from its acceptance: the check of the bank bits if it is switched on (R84), the derivation of the mode, then
the fourteen writes (R80 to R83). -/
def constructFromStart (cfgA cfgB : PortConfig) (s : State) : Host.Outcome State Fault Refusal :=
  if s.config.bankMismatchCheck && bankBitsDiffer s.config cfgA cfgB then .next (endInError .bankMismatch s)
  else
    pushFromStart (pushWrites s.config (derivedMode s.config cfgA cfgB) cfgA cfgB)
      (cacheMode (derivedMode s.config cfgA cfgB) s)

/-- CONSTRUCT from the write in progress, number `idx` (R16, R82). -/
def constructFromPush (cfgA cfgB : PortConfig) (s : State) : Host.Outcome State Fault Refusal :=
  withMode
    (fun m s1 => pushScript ((pushWrites s1.config m cfgA cfgB).drop (idxOf s1).val) (idxOf s1).val (noteIdx s1)) s

/-- `construct cfgA, cfgB` (R80). -/
def execConstruct (cfgA cfgB : PortConfig) (s : State) : Host.Outcome State Fault Refusal :=
  match constructAdmission (.construct cfgA cfgB) s with
  | some r => .refused r
  | none =>
    match s.phase with
    | .idle => constructFromStart cfgA cfgB (accept (encode (.construct cfgA cfgB)) s)
    | .rdPend | .wrPend | .cfgPend => constructFromPush cfgA cfgB s

/-- `destruct` (R85): clears the flag and responds; no transaction, `bank_mode` is left. It has no transaction to wait for,
so it is never the command in progress. -/
def execDestruct (s : State) : Host.Outcome State Fault Refusal :=
  match s.phase, s.due with
  | .idle, none =>
    if s.initialized then .next (respond 0x00 .ok (setLifecycle false (accept (encode .destruct) s)))
    else .refused .notInitialized
  | .idle, some _ | .rdPend, _ | .wrPend, _ | .cfgPend, _ => .refused .commandInProgress

end Sys2Proof.Machine
end

