-- ==== Sys2Proof/Machine/PinPort.lean ====
section
/-! DEFINITION. The pin and port operations (43_pin_port_ops.md): all of them on the current-value register. -/

namespace Sys2Proof.Machine

/-- `f(x) = x | mask` (R123). -/
def setBits (x mask : Byte) : Byte := x ||| mask

/-- `f(x) = x & ~mask` (R124). -/
def resetBits (x mask : Byte) : Byte := x &&& ~~~mask

/-- `f(x) = x ^ mask` (R125). -/
def toggleBits (x mask : Byte) : Byte := x ^^^ mask

/-- `get_pin_state <port>, <pin>` (R121): one read, no write; HIGH is 0x01, LOW is 0x00. -/
def execGetPinState (p : Port) (pin : Byte) (s : State) : Host.Outcome State Fault Refusal :=
  operatePin (.getPinState p pin) pin
    (fun mask m s1 => readScript (address s1.config p .currentValue m) (fun v => pinStateByte (pinState v mask)) s1) s

/-- `set_pin_state <port>, <pin>, <state>` (R122): what `set_pin` does on HIGH, what `reset_pin` does on LOW. -/
def execSetPinState (p : Port) (pin : Byte) (st : PinState) (s : State) : Host.Outcome State Fault Refusal :=
  match st with
  | .high => pinRmw (.setPinState p pin .high) p pin setBits s
  | .low => pinRmw (.setPinState p pin .low) p pin resetBits s

/-- `set_pin <port>, <pin>` (R123). -/
def execSetPin (p : Port) (pin : Byte) (s : State) : Host.Outcome State Fault Refusal :=
  pinRmw (.setPin p pin) p pin setBits s

/-- `reset_pin <port>, <pin>` (R124). -/
def execResetPin (p : Port) (pin : Byte) (s : State) : Host.Outcome State Fault Refusal :=
  pinRmw (.resetPin p pin) p pin resetBits s

/-- `toggle_pin <port>, <pin>` (R125). -/
def execTogglePin (p : Port) (pin : Byte) (s : State) : Host.Outcome State Fault Refusal :=
  pinRmw (.togglePin p pin) p pin toggleBits s

/-- `set_pins <port>` (R126): the read is issued although the byte written is always 0xFF. -/
def execSetPins (p : Port) (s : State) : Host.Outcome State Fault Refusal :=
  portRmw (.setPins p) p (fun x => setBits x 0xFF) s

/-- `reset_pins <port>` (R127): one write of 0x00, and with `RESET_PINS_READS` a read before it whose value is unused. -/
def execResetPins (p : Port) (s : State) : Host.Outcome State Fault Refusal :=
  operate (.resetPins p)
    (fun m s1 =>
      if s1.config.resetPinsReads then rmwScript (address s1.config p .currentValue m) (fun _ => 0x00) s1
      else writeScript (address s1.config p .currentValue m) 0x00 s1) s

/-- `toggle_pins <port>` (R128). -/
def execTogglePins (p : Port) (s : State) : Host.Outcome State Fault Refusal :=
  portRmw (.togglePins p) p (fun x => toggleBits x 0xFF) s

end Sys2Proof.Machine
end

