-- ==== Sys2Proof/Machine/RegisterAccess.lean ====
section
/-! DEFINITION. The nineteen register accessors (42_register_access.md): eleven `get` commands (R92 to R102), eight `set`
commands (R103 to R110). -/

namespace Sys2Proof.Machine

/-- `get_direction <port>` (R92). -/
def execGetDirection (p : Port) (s : State) : Host.Outcome State Fault Refusal :=
  getRegister (.getDirection p) p .direction s

/-- `get_polarity <port>` (R93). -/
def execGetPolarity (p : Port) (s : State) : Host.Outcome State Fault Refusal :=
  getRegister (.getPolarity p) p .polarity s

/-- `get_interrupt_enable <port>` (R94). -/
def execGetInterruptEnable (p : Port) (s : State) : Host.Outcome State Fault Refusal :=
  getRegister (.getInterruptEnable p) p .interruptEnable s

/-- `get_default_compare <port>` (R95). -/
def execGetDefaultCompare (p : Port) (s : State) : Host.Outcome State Fault Refusal :=
  getRegister (.getDefaultCompare p) p .defaultCompare s

/-- `get_interrupt_control <port>` (R96). -/
def execGetInterruptControl (p : Port) (s : State) : Host.Outcome State Fault Refusal :=
  getRegister (.getInterruptControl p) p .interruptControl s

/-- `get_peripheral_config <port>` (R97). -/
def execGetPeripheralConfig (p : Port) (s : State) : Host.Outcome State Fault Refusal :=
  getRegister (.getPeripheralConfig p) p .peripheralConfig s

/-- `get_pull_up <port>` (R98). -/
def execGetPullUp (p : Port) (s : State) : Host.Outcome State Fault Refusal :=
  getRegister (.getPullUp p) p .pullUp s

/-- `get_interrupt_flag <port>` (R99). -/
def execGetInterruptFlag (p : Port) (s : State) : Host.Outcome State Fault Refusal :=
  getRegister (.getInterruptFlag p) p .interruptFlag s

/-- `get_interrupt_capture <port>` (R100). -/
def execGetInterruptCapture (p : Port) (s : State) : Host.Outcome State Fault Refusal :=
  getRegister (.getInterruptCapture p) p .interruptCapture s

/-- `get_current_value <port>` (R101). -/
def execGetCurrentValue (p : Port) (s : State) : Host.Outcome State Fault Refusal :=
  getRegister (.getCurrentValue p) p .currentValue s

/-- `get_output_latch <port>` (R102). -/
def execGetOutputLatch (p : Port) (s : State) : Host.Outcome State Fault Refusal :=
  getRegister (.getOutputLatch p) p .outputLatch s

/-- `set_direction <port>, <byte>` (R103). -/
def execSetDirection (p : Port) (v : Byte) (s : State) : Host.Outcome State Fault Refusal :=
  setRegister (.setDirection p v) p .direction v s

/-- `set_polarity <port>, <byte>` (R104). -/
def execSetPolarity (p : Port) (v : Byte) (s : State) : Host.Outcome State Fault Refusal :=
  setRegister (.setPolarity p v) p .polarity v s

/-- `set_interrupt_enable <port>, <byte>` (R105). -/
def execSetInterruptEnable (p : Port) (v : Byte) (s : State) : Host.Outcome State Fault Refusal :=
  setRegister (.setInterruptEnable p v) p .interruptEnable v s

/-- `set_default_compare <port>, <byte>` (R106). -/
def execSetDefaultCompare (p : Port) (v : Byte) (s : State) : Host.Outcome State Fault Refusal :=
  setRegister (.setDefaultCompare p v) p .defaultCompare v s

/-- `set_interrupt_control <port>, <byte>` (R107). -/
def execSetInterruptControl (p : Port) (v : Byte) (s : State) : Host.Outcome State Fault Refusal :=
  setRegister (.setInterruptControl p v) p .interruptControl v s

/-- `set_peripheral_config <port>, <byte>` (R108). `bank_mode` is not touched. -/
def execSetPeripheralConfig (p : Port) (v : Byte) (s : State) : Host.Outcome State Fault Refusal :=
  setRegister (.setPeripheralConfig p v) p .peripheralConfig v s

/-- `set_pull_up <port>, <byte>` (R109). -/
def execSetPullUp (p : Port) (v : Byte) (s : State) : Host.Outcome State Fault Refusal :=
  setRegister (.setPullUp p v) p .pullUp v s

/-- `set_output_latch <port>, <byte>` (R110). -/
def execSetOutputLatch (p : Port) (v : Byte) (s : State) : Host.Outcome State Fault Refusal :=
  setRegister (.setOutputLatch p v) p .outputLatch v s

end Sys2Proof.Machine
end

