-- ==== Sys2Proof/Machine/Dispatch.lean ====
section
/-! DEFINITION. The dispatch of a command to its meaning, one arm per constructor. -/

namespace Sys2Proof.Machine

def exec (i : Instr) (s : State) : Host.Outcome State Fault Refusal :=
  match i with
  | .getDirection p => Sys2Proof.Machine.execGetDirection p s
  | .getPolarity p => Sys2Proof.Machine.execGetPolarity p s
  | .getInterruptEnable p => Sys2Proof.Machine.execGetInterruptEnable p s
  | .getDefaultCompare p => Sys2Proof.Machine.execGetDefaultCompare p s
  | .getInterruptControl p => Sys2Proof.Machine.execGetInterruptControl p s
  | .getPeripheralConfig p => Sys2Proof.Machine.execGetPeripheralConfig p s
  | .getPullUp p => Sys2Proof.Machine.execGetPullUp p s
  | .getInterruptFlag p => Sys2Proof.Machine.execGetInterruptFlag p s
  | .getInterruptCapture p => Sys2Proof.Machine.execGetInterruptCapture p s
  | .getCurrentValue p => Sys2Proof.Machine.execGetCurrentValue p s
  | .getOutputLatch p => Sys2Proof.Machine.execGetOutputLatch p s
  | .setDirection p v => Sys2Proof.Machine.execSetDirection p v s
  | .setPolarity p v => Sys2Proof.Machine.execSetPolarity p v s
  | .setInterruptEnable p v => Sys2Proof.Machine.execSetInterruptEnable p v s
  | .setDefaultCompare p v => Sys2Proof.Machine.execSetDefaultCompare p v s
  | .setInterruptControl p v => Sys2Proof.Machine.execSetInterruptControl p v s
  | .setPeripheralConfig p v => Sys2Proof.Machine.execSetPeripheralConfig p v s
  | .setPullUp p v => Sys2Proof.Machine.execSetPullUp p v s
  | .setOutputLatch p v => Sys2Proof.Machine.execSetOutputLatch p v s
  | .getPinState p pin => Sys2Proof.Machine.execGetPinState p pin s
  | .setPinState p pin st => Sys2Proof.Machine.execSetPinState p pin st s
  | .setPin p pin => Sys2Proof.Machine.execSetPin p pin s
  | .resetPin p pin => Sys2Proof.Machine.execResetPin p pin s
  | .togglePin p pin => Sys2Proof.Machine.execTogglePin p pin s
  | .setPins p => Sys2Proof.Machine.execSetPins p s
  | .resetPins p => Sys2Proof.Machine.execResetPins p s
  | .togglePins p => Sys2Proof.Machine.execTogglePins p s
  | .construct cfgA cfgB => Sys2Proof.Machine.execConstruct cfgA cfgB s
  | .destruct => Sys2Proof.Machine.execDestruct s

end Sys2Proof.Machine
end

