-- ==== Sys2Proof/Machine/Fetch.lean ====
section
/-! DEFINITION. What happens next: the event at the head of the inputs, or the block's move, which takes a command or goes on
with one (R8, R16, R44, R50). The block has no program counter and fetches nothing from the register space. -/

namespace Sys2Proof.Machine

/-- What the next step is: run (or go on with) an instruction, a step that runs none, or a stop. -/
inductive Fetched where
  | run (i : Instr) (s : State)
  | noCommand (s : State)
  | refuse (r : Refusal)

/-- The event at the head of the inputs has been taken. -/
def takeInput (rest : List Input) (s : State) : State := { s with inputs := rest }

/-- ENV changes a register on its own (R43). -/
def envWrites (a v : Byte) (s : State) : State := { s with memory := Memory.write s.memory a v }

/-- HOST presents a command at the command port (R8, R50) and waits for its response (R9). -/
def hostPresents (c : Command) (s : State) : State := { s with presented := some c, awaited := true }

/-- The command at the command port is taken (R50). -/
def takePresented (s : State) : State := { s with presented := none }

/-- The block is given its move, of a grain (R8; log 1). -/
def giveMove (g : Grain) (rest : List Input) (s : State) : State := { s with inputs := rest, grain := g }

/-- HOST presents a command only while the sequencer is idle, and waits for the response to the one before it (R50, R86, R151). -/
def HostMayPresent (s : State) : Prop := s.phase = .idle ∧ s.due = none ∧ s.presented = none

/-- The command in progress, as `cmd` holds it. -/
def inProgress (s : State) : Fetched :=
  match decode (commandOf s) with
  | .ok i => .run i (noteCmd s)
  | .error why => .refuse (.reservedWord why)

/-- The command at the command port, if there is one: a reserved word is refused (R56). With none the block waits in IDLE
(R160; log 22). -/
def acceptPresented (s : State) : Fetched :=
  match s.presented with
  | none => .noCommand s
  | some c =>
    match decode c with
    | .ok i => .run i (takePresented s)
    | .error why => .refuse (.reservedWord why)

/-- The block's move (R8, R16): it delivers the response that is due, accepts the command presented to it, waits in IDLE, or
goes on with the command in progress. -/
def blockMove (s : State) : Fetched :=
  match s.phase, s.due with
  | .idle, some _ => .noCommand (deliver s)
  | .idle, none => acceptPresented s
  | .rdPend, _ | .wrPend, _ | .cfgPend, _ => inProgress s

/-- What happens next (R8): the event at the head of the inputs; DESIGN CHOICE: a reset or an ENV change there comes before the
block's next event, and an entry `seq` before it puts the block first (log 25). A command HOST has to wait with leaves the
move to the block (R50, R86); so does the end of the inputs; such a move is one event. -/
def fetch (s : State) : Fetched :=
  match s.inputs with
  | [] => blockMove (giveMove .event [] s)
  | .seq g :: rest => blockMove (giveMove g rest s)
  | .command c :: rest =>
    match s.phase, s.due, s.presented with
    | .idle, none, none => .noCommand (hostPresents c (takeInput rest s))
    | _, _, _ => blockMove (giveMove .event (.command c :: rest) s)
  | .reset took :: rest => .noCommand (resetInput took (takeInput rest s))
  | .envWrite a v :: rest => .noCommand (envWrites a v (takeInput rest s))

/-- The state with a command at the command port, the block in IDLE to take it and its move next, of the whole command. -/
def presentCommand (c : Command) (s : State) : State :=
  { s with
    phase := .idle, due := none, bus := none, presented := some c, awaited := true, inputs := .seq .command :: s.inputs }

end Sys2Proof.Machine
end

