-- ==== Sys2Proof/Machine/Step.lean ====
section
/-! DEFINITION. One step of the machine, and a word placed where the next step takes its command. -/

namespace Sys2Proof.Machine

/-- One step: HOST's, ENV's or the block's (R8). The block's move is one event, or, where the inputs give it that grain, all the
events of a command to its response or to a transaction that has not completed (log 1). -/
def step (s : State) : Host.Outcome State Fault Refusal :=
  match fetch s with
  | .run i s1 => exec i s1
  | .noCommand s1 => .next s1
  | .refuse r => .refused r

/-- The state in which the next step takes the command of an opcode-table word (log 17). -/
def State.withFetchWord (s : State) (nbits w : Nat) : State := presentCommand (tableCommand nbits w) s

end Sys2Proof.Machine
end

