-- ==== Sys2Proof/Safety.lean ====
section
/-! DEFINITION. The terms claims are stated in: when a command is admitted, what ENV does during it, the transactions a
command's rule gives it, the invariant of the block, the end of a run, and the duties of software. -/

namespace Sys2Proof.Machine

/-! ### When a command is admitted (R86) -/

/-- The block is IDLE with no response left to deliver, initialized, and holds a bank mode: what every command but CONSTRUCT
needs (R86, R27). -/
def ReadyIn (m : BankMode) (s : State) : Prop :=
  s.phase = .idle ∧ s.due = none ∧ s.initialized = true ∧ s.bankMode = some m

/-- The block is IDLE with no response left to deliver, and not initialized: what CONSTRUCT needs (R86). -/
def Fresh (s : State) : Prop := s.phase = .idle ∧ s.due = none ∧ s.initialized = false

/-! ### What ENV does at the coming transactions (R42, R43, R47) -/

/-- ENV completes the next `n` transactions, each at its first attempt. Where no turn is left it completes (log 8). -/
def Completes (n : Nat) (s : State) : Prop := ∀ t ∈ s.turns.take n, t.completion = .ok

/-- ENV completes `n` transactions and the next one completes with `bus_err` 1 (R152). -/
def FailsAt (n : Nat) (took : Bool) (s : State) : Prop :=
  Completes n s ∧ ∃ t, s.turns[n]? = some t ∧ t.completion = .busErr took

/-- ENV completes `n` transactions and the next one is not complete at its first attempt. -/
def WaitsAt (n : Nat) (s : State) : Prop := Completes n s ∧ ∃ t, s.turns[n]? = some t ∧ t.completion = .late

/-- ENV's own changes of the register space at its coming turn number `n` (R43). -/
def pokesAt (n : Nat) (s : State) : List (Byte × Byte) :=
  match s.turns[n]? with
  | some t => t.pokes
  | none => []

/-- The register space as ENV's own changes leave it at its coming turn number `n`, the block having written nothing. -/
def spaceAt : Nat → State → Memory
  | 0, s => pokeAll (pokesAt 0 s) s.memory
  | n + 1, s => pokeAll (pokesAt (n + 1) s) (spaceAt n s)

/-- In the turns to come ENV makes no change of its own at address `x`. -/
def Untouched (x : Byte) (s : State) : Prop := ∀ t ∈ s.turns, ∀ pk ∈ t.pokes, pk.1 ≠ x

/-- The reference environment with no ENV step and a transport that completes (R48): the hypotheses H1 and H2 of R130. -/
def Undisturbed (s : State) : Prop := s.env = .reference ∧ s.turns = []

/-! ### What a command leaves unchanged -/

/-- What every command but CONSTRUCT and DESTRUCT leaves as it was: the parameters, the lifecycle flag, the bank mode, the
kind of environment, the command port, the inputs and the grain. -/
structure Framed (s t : State) : Prop where
  config : t.config = s.config
  initialized : t.initialized = s.initialized
  bankMode : t.bankMode = s.bankMode
  env : t.env = s.env
  presented : t.presented = s.presented
  inputs : t.inputs = s.inputs
  grain : t.grain = s.grain

/-- No command is in progress: `phase` is IDLE, nothing is outstanding, and `cmd`, `tmp` and `idx`, live only while a command is
in progress, hold no value (R14, R16; log 15). Of the configuration CONSTRUCT was given nothing is left (R13). -/
structure Resting (s : State) : Prop where
  phase : s.phase = .idle
  bus : s.bus = none
  cmd : s.cmd = none
  tmp : s.tmp = none
  idx : s.idx = none

/-- A command has ended, its response is at the response port (R58), and HOST waits for it no longer (R9). -/
def Answers (v : Byte) (st : Status) (s : State) : Prop :=
  s.rsp = some ⟨v, st⟩ ∧ s.due = none ∧ s.awaited = false ∧ Resting s

/-- The response of the command that has ended, delivered or still to be delivered (R8, R58). -/
def responseOf (s : State) : Option Response :=
  match s.due with
  | some r => some r
  | none => s.rsp

/-! ### The transactions a command's rule gives it -/

/-- The address of a transaction. -/
def transactionAddr : Transaction → Byte
  | .read a _ => a
  | .write a _ => a
  | .readFailed a => a
  | .writeFailed a _ => a

/-- The address of a request on the transport port. -/
def requestAddr : BusRequest → Byte
  | .read a => a
  | .write a _ => a

/-- An address the block may emit: one in the image of `address` with the machine's own constants, and with the documented ones
at most 20 (R30, R35). -/
def Emittable (c : Config) (x : Byte) : Prop :=
  (∃ p k m, x = address c p k m) ∧ (c = Config.documented → x.toNat ≤ 20)

/-- The address a command reads, for the commands that read (R90, R120, R121, R127). -/
def readAddress (c : Config) (m : BankMode) : Instr → Option Byte
  | .getDirection p => some (address c p .direction m)
  | .getPolarity p => some (address c p .polarity m)
  | .getInterruptEnable p => some (address c p .interruptEnable m)
  | .getDefaultCompare p => some (address c p .defaultCompare m)
  | .getInterruptControl p => some (address c p .interruptControl m)
  | .getPeripheralConfig p => some (address c p .peripheralConfig m)
  | .getPullUp p => some (address c p .pullUp m)
  | .getInterruptFlag p => some (address c p .interruptFlag m)
  | .getInterruptCapture p => some (address c p .interruptCapture m)
  | .getCurrentValue p => some (address c p .currentValue m)
  | .getOutputLatch p => some (address c p .outputLatch m)
  | .setDirection _ _ | .setPolarity _ _ | .setInterruptEnable _ _ | .setDefaultCompare _ _
  | .setInterruptControl _ _ | .setPeripheralConfig _ _ | .setPullUp _ _ | .setOutputLatch _ _ => none
  | .getPinState p pin => if pinInRange pin then some (address c p .currentValue m) else none
  | .setPinState p pin _ => if pinInRange pin then some (address c p .currentValue m) else none
  | .setPin p pin => if pinInRange pin then some (address c p .currentValue m) else none
  | .resetPin p pin => if pinInRange pin then some (address c p .currentValue m) else none
  | .togglePin p pin => if pinInRange pin then some (address c p .currentValue m) else none
  | .setPins p => some (address c p .currentValue m)
  | .resetPins p => if c.resetPinsReads then some (address c p .currentValue m) else none
  | .togglePins p => some (address c p .currentValue m)
  | .construct _ _ | .destruct => none

/-- The address a command other than CONSTRUCT writes, for the commands that write (R91, R120, R127). -/
def writeAddress (c : Config) (m : BankMode) : Instr → Option Byte
  | .getDirection _ | .getPolarity _ | .getInterruptEnable _ | .getDefaultCompare _ | .getInterruptControl _
  | .getPeripheralConfig _ | .getPullUp _ | .getInterruptFlag _ | .getInterruptCapture _ | .getCurrentValue _
  | .getOutputLatch _ | .getPinState _ _ => none
  | .setDirection p _ => some (address c p .direction m)
  | .setPolarity p _ => some (address c p .polarity m)
  | .setInterruptEnable p _ => some (address c p .interruptEnable m)
  | .setDefaultCompare p _ => some (address c p .defaultCompare m)
  | .setInterruptControl p _ => some (address c p .interruptControl m)
  | .setPeripheralConfig p _ => some (address c p .peripheralConfig m)
  | .setPullUp p _ => some (address c p .pullUp m)
  | .setOutputLatch p _ => some (address c p .outputLatch m)
  | .setPinState p pin _ => if pinInRange pin then some (address c p .currentValue m) else none
  | .setPin p pin => if pinInRange pin then some (address c p .currentValue m) else none
  | .resetPin p pin => if pinInRange pin then some (address c p .currentValue m) else none
  | .togglePin p pin => if pinInRange pin then some (address c p .currentValue m) else none
  | .setPins p => some (address c p .currentValue m)
  | .resetPins p => some (address c p .currentValue m)
  | .togglePins p => some (address c p .currentValue m)
  | .construct _ _ | .destruct => none

/-- The byte a command other than CONSTRUCT writes, from the byte `x` it has read where it reads one (R91, R122 to R128). -/
def writtenByte (x : Byte) : Instr → Byte
  | .getDirection _ | .getPolarity _ | .getInterruptEnable _ | .getDefaultCompare _ | .getInterruptControl _
  | .getPeripheralConfig _ | .getPullUp _ | .getInterruptFlag _ | .getInterruptCapture _ | .getCurrentValue _
  | .getOutputLatch _ | .getPinState _ _ => x
  | .setDirection _ v | .setPolarity _ v | .setInterruptEnable _ v | .setDefaultCompare _ v
  | .setInterruptControl _ v | .setPeripheralConfig _ v | .setPullUp _ v | .setOutputLatch _ v => v
  | .setPinState _ pin .high => x ||| (1#8 <<< pin.toNat)
  | .setPinState _ pin .low => x &&& ~~~(1#8 <<< pin.toNat)
  | .setPin _ pin => x ||| (1#8 <<< pin.toNat)
  | .resetPin _ pin => x &&& ~~~(1#8 <<< pin.toNat)
  | .togglePin _ pin => x ^^^ (1#8 <<< pin.toNat)
  | .setPins _ => 0xFF
  | .resetPins _ => 0x00
  | .togglePins _ => x ^^^ 0xFF
  | .construct _ _ | .destruct => x

/-! ### The invariant of the block (R27, R31, R40) -/

/-- What the registers and the transport port hold while command `i` is in progress in mode `m`, phase by phase (R14, R16). -/
def AtPosition (i : Instr) (m : BankMode) (s : State) : Prop :=
  match s.phase with
  | .idle => s.bus = none
  | .rdPend => s.initialized = true ∧ ∃ a, readAddress s.config m i = some a ∧ s.bus = some (.read a)
  | .wrPend => s.initialized = true ∧ ∃ a x, writeAddress s.config m i = some a ∧
      ((readAddress s.config m i).isSome = true → s.tmp = some x) ∧ s.bus = some (.write a (writtenByte x i))
  | .cfgPend => s.initialized = false ∧ ∃ cfgA cfgB n w, i = .construct cfgA cfgB ∧ s.idx = some n ∧
      (pushWrites s.config m cfgA cfgB)[n.val]? = some w ∧ s.bus = some (.write w.addr w.data)

/-- The invariant: the register space keeps its canonical form; the bank mode holds a value while the block is initialized
(R27); in IDLE nothing is outstanding and the transient registers hold no value; while a response is due none is at the
port; a command at the command port finds the block IDLE and its last response delivered (R50, R86); HOST waits while a command
is presented, in progress or not answered (R9, R151); a command in progress is in `cmd`, has no response, and the one
outstanding request is the one its rule gives at this position. -/
structure Inv (s : State) : Prop where
  memory_wf : Memory.wf s.memory
  mode_held : s.initialized = true → s.bankMode.isSome = true
  idle_resting : s.phase = .idle → Resting s
  due_pending : s.due ≠ none → s.rsp = none
  presented_waits : s.presented ≠ none → s.phase = .idle ∧ s.due = none
  awaited_held : s.presented ≠ none ∨ s.phase ≠ .idle ∨ s.due ≠ none → s.awaited = true
  in_progress : s.phase ≠ .idle → s.rsp = none ∧ s.due = none ∧
    ∃ i m, s.cmd = some (encode i) ∧ s.bankMode = some m ∧ AtPosition i m s

/-! ### The block's move, stuck and ended (R8, R9, R47, R150) -/

/-- The block moves next, and `u` is the state with that move taken from the inputs: they are at an end, give the block its move,
or hold a command HOST has to wait with. No reset and no ENV write comes first (R8, R50, R86; log 1, log 25). -/
def BlockMoves (s u : State) : Prop :=
  (s.inputs = [] ∧ u = giveMove .event [] s) ∨
  (∃ g rest, s.inputs = .seq g :: rest ∧ u = giveMove g rest s) ∨
  ∃ c rest, s.inputs = .command c :: rest ∧ ¬ HostMayPresent s ∧ u = giveMove .event s.inputs s

/-- The outcome "stuck" of R150: a transaction is outstanding and the transport never completes it. -/
def Stuck (s : State) : Prop := s.phase ≠ .idle ∧ ∃ rest, s.turns = ⟨[], .never⟩ :: rest

/-- A run has ended: HOST has no command left to present, the response to the last one it presented has been delivered, and
`phase` is IDLE (R9). What ENV, the reset input or the block may still do does not matter (log 26). -/
def RunEnded (s : State) : Prop :=
  (∀ c, Input.command c ∉ s.inputs) ∧ s.awaited = false ∧ s.phase = .idle

/-! ### Shared addresses and the duties of software (R75, R164 to R166, R173) -/

/-- Two registers share an address in a mode (R75, R166). -/
def Aliased (c : Config) (m : BankMode) (p q : Port) (k l : RegKind) : Prop :=
  ¬ (p = q ∧ k = l) ∧ address c p k m = address c q l m

/-- The duties of R173 that a command alone can break: pin indices in 0 to 7, equal bank bits in both snapshots, and no
change of the bank bit through `set_peripheral_config`. -/
def KeepsDuties (s : State) (i : Instr) : Prop :=
  i.wellFormed = true ∧
  (∀ cfgA cfgB, i = .construct cfgA cfgB → bankBitsDiffer s.config cfgA cfgB = false) ∧
  (∀ p v m, i = .setPeripheralConfig p v → s.bankMode = some m →
    (bankBit s.config v = s.config.bankSepValue ↔ m = .separate))

end Sys2Proof.Machine
end

