-- ==== Sys2Proof/Certificates/Slice0/Obligations.lean ====
section
/-! DEFINITION. The statements for the provers. Each docstring names the rules of the spec it formalises. -/

open Sys2Proof Sys2Proof.Machine

/-! ### The pure functions: pin mask, base table, address (40_address_decode.md) -/

/-- R71: the fixed table `base`, total over the eleven kinds, its eleven values distinct. -/
def Obligations.BaseTableOfElevenKinds : Prop :=
  [RegKind.direction, .polarity, .interruptEnable, .defaultCompare, .interruptControl, .peripheralConfig, .pullUp,
      .interruptFlag, .interruptCapture, .currentValue, .outputLatch].map (baseAddress BaseTable.documented)
    = [0, 1, 2, 3, 4, 5, 6, 7, 8, 9, 10] ∧
  ∀ k l : RegKind, baseAddress BaseTable.documented k = baseAddress BaseTable.documented l → k = l

/-- R72: the address function for every table of constants, the sum modulo 256; with the documented constants the modulo
never acts, and the two examples. R76: the decoder block computes `address` from the codes of port, kind and mode; of
the unused kind codes 11 to 15 nothing is said (log 18). -/
def Obligations.AddressIsBasePlusOffset : Prop :=
  (∀ (c : Config) (p : Port) (k : RegKind) (m : BankMode),
    (address c p k m).toNat = ((baseAddress c.base k).toNat +
      (if p = .a then 0 else if m = .separate then c.offSeparate.toNat else c.offCommon.toNat)) % 256) ∧
  (∀ (p : Port) (k : RegKind) (m : BankMode), (baseAddress BaseTable.documented k).toNat +
      (if p = .a then 0 else if m = .separate then Config.documented.offSeparate.toNat
        else Config.documented.offCommon.toNat) ≤ 20) ∧
  Config.documented.offSeparate = 10 ∧ Config.documented.offCommon = 1 ∧
  address Config.documented .b .currentValue .separate = 0x13 ∧
  address Config.documented .b .currentValue .common = 0x0A ∧
  ∀ (c : Config) (p : Port) (k : RegKind) (m : BankMode), addressDecoder c p.code k.code m.code = address c p k m

/-- R33, R34: the address maps of the two modes with the documented constants, all 44 entries. -/
def Obligations.AddressMapsOfBothModes : Prop :=
  let kinds : List RegKind := [.direction, .polarity, .interruptEnable, .defaultCompare, .interruptControl,
    .peripheralConfig, .pullUp, .interruptFlag, .interruptCapture, .currentValue, .outputLatch]
  kinds.map (fun k => address Config.documented .a k .separate) = [0, 1, 2, 3, 4, 5, 6, 7, 8, 9, 10] ∧
  kinds.map (fun k => address Config.documented .b k .separate) = [10, 11, 12, 13, 14, 15, 16, 17, 18, 19, 20] ∧
  kinds.map (fun k => address Config.documented .a k .common) = [0, 1, 2, 3, 4, 5, 6, 7, 8, 9, 10] ∧
  kinds.map (fun k => address Config.documented .b k .common) = [1, 2, 3, 4, 5, 6, 7, 8, 9, 10, 11]

/-- R74: port A's address is the same in both modes and is `BASE`; port B's differs by exactly 10 or 1; for a fixed port and
mode the eleven addresses are consecutive, so `address` is injective over the kind. -/
def Obligations.AddressLawsThatHold : Prop :=
  ∀ k : RegKind,
    address Config.documented .a k .separate = baseAddress BaseTable.documented k ∧
    address Config.documented .a k .common = baseAddress BaseTable.documented k ∧
    address Config.documented .b k .separate - address Config.documented .a k .separate = 10 ∧
    address Config.documented .b k .common - address Config.documented .a k .common = 1 ∧
    ∀ (p : Port) (m : BankMode),
      address Config.documented p k m = address Config.documented p .direction m + k.code.setWidth 8 ∧
      ∀ l : RegKind, address Config.documented p k m = address Config.documented p l m → k = l

/-- R75: the pairs of registers that share an address with the documented constants are exactly the eleven of the rule's
table: in common mode port B's kind `k` and port A's kind `k+1`, in separate mode port B's direction and port A's
output-latch. -/
def Obligations.SharedAddressesAreExactlyTheListedPairs : Prop :=
  (∀ (p q : Port) (k l : RegKind), Aliased Config.documented .separate p q k l ↔
    (p = .a ∧ q = .b ∧ k = .outputLatch ∧ l = .direction) ∨ (p = .b ∧ q = .a ∧ k = .direction ∧ l = .outputLatch)) ∧
  (∀ (p q : Port) (k l : RegKind), Aliased Config.documented .common p q k l ↔
    (p = .a ∧ q = .b ∧ k.code.toNat = l.code.toNat + 1) ∨ (p = .b ∧ q = .a ∧ l.code.toNat = k.code.toNat + 1)) ∧
  address Config.documented .a .outputLatch .separate = 10 ∧
  ∀ k : RegKind, k ≠ .direction → address Config.documented .a k .common = k.code.setWidth 8

/-- R35, R30 and R31, derived: every address the block emits is in the image of `address` with the machine's own constants, and
with the documented ones at most 20. Of the transactions a step adds to the history, and, from a state that meets the
invariant, of the request that is outstanding after the step. -/
def Obligations.OnlyAddressesInTheImageAreEmitted : Prop :=
  ∀ s t : State, step s = .next t →
    (∀ tr ∈ t.history, tr ∈ s.history ∨ Emittable s.config (transactionAddr tr)) ∧
    (Inv s → ∀ r, t.bus = some r → Emittable s.config (requestAddr r))

/-! ### One event of R8 -/

/-- R8, at the grain of events (log 1). The acceptance of a command is a step: it writes `cmd`, leaves no response at the port
and issues the first request of the command, and for CONSTRUCT derives the mode and sets `idx` to 0; nothing else changes, no
transaction has been performed. The delivery of a response is a step, at either grain, and HOST waits for it no longer (R9). And
every step, whoever acts, performs at most one transaction, only for a command accepted before it, and then it delivers nothing.
-/
def Obligations.AStepIsOneEventAtTheGrainOfEvents : Prop :=
  (∀ (i : Instr) (a : Byte) (m : BankMode) (s : State), ReadyIn m s → s.grain = .event →
    (readAddress s.config m i = some a →
      exec i s = .next { s with cmd := some (encode i), rsp := none, phase := .rdPend, bus := some (.read a) }) ∧
    (readAddress s.config m i = none → writeAddress s.config m i = some a →
      exec i s = .next { s with
        cmd := some (encode i), rsp := none, phase := .wrPend, bus := some (.write a (writtenByte 0 i)) })) ∧
  (∀ (cfgA cfgB : PortConfig) (w : PushWrite) (s : State), Fresh s → s.grain = .event →
    (s.config.bankMismatchCheck = true → bankBitsDiffer s.config cfgA cfgB = false) →
    (pushWrites s.config (derivedMode s.config cfgA cfgB) cfgA cfgB)[0]? = some w →
      exec (.construct cfgA cfgB) s = .next { s with
        cmd := some (encode (.construct cfgA cfgB)), rsp := none, phase := .cfgPend, idx := some 0,
        bankMode := some (derivedMode s.config cfgA cfgB), bus := some (.write w.addr w.data) }) ∧
  (∀ (s u : State) (r : Response), BlockMoves s u → s.phase = .idle → s.due = some r →
    step s = .next { u with rsp := some r, due := none, awaited := false }) ∧
  ∀ s t : State, step s = .next t → t.grain = .event →
    t.history = s.history ∨ ((∃ tr, t.history = s.history ++ [tr]) ∧ s.phase ≠ .idle ∧ t.rsp = s.rsp)

/-- R70 and R77: eight single-bit masks, distinct, disjoint, their OR 0xFF, the complement with exactly that bit clear; and no
value outside 0 to 7. -/
def Obligations.PinMasksAreTheEightSingleBits : Prop :=
  (∀ pin : Byte, (pin.toNat ≤ 7 ∧ ∃ m, pinMask pin = some m ∧ m.toNat = 2 ^ pin.toNat ∧
      ∀ b : Fin 8, (m.getLsbD b.val = true ↔ b.val = pin.toNat) ∧ ((~~~m).getLsbD b.val = false ↔ b.val = pin.toNat)) ∨
    (7 < pin.toNat ∧ pinMask pin = none)) ∧
  ([0, 1, 2, 3, 4, 5, 6, 7] : List Byte).map pinMask
    = [some 0x01, some 0x02, some 0x04, some 0x08, some 0x10, some 0x20, some 0x40, some 0x80] ∧
  (∀ (i j m n : Byte), pinMask i = some m → pinMask j = some n → i ≠ j → m ≠ n ∧ m &&& n = 0x00) ∧
  ((([0, 1, 2, 3, 4, 5, 6, 7] : List Byte).filterMap pinMask).foldl (fun x y => x ||| y) 0) = 0xFF

/-! ### Encoding (30_encoding.md) -/

/-- R54: the configuration block holds port A in bits 55:0 and port B in bits 111:56, the byte of kind code `k` at bits
`8k+7 : 8k` of its half, and unpacking gives the two snapshots back. -/
def Obligations.ConfigurationBlockPacksBothSnapshots : Prop :=
  ∀ cfgA cfgB : PortConfig,
    (∀ k : CfgKind,
      (ConfigBlock.ofConfigs cfgA cfgB).extractLsb' (8 * (configKind k).code.toNat) 8 = configByte cfgA k ∧
      (ConfigBlock.ofConfigs cfgA cfgB).extractLsb' (56 + 8 * (configKind k).code.toNat) 8 = configByte cfgB k) ∧
    ConfigBlock.portA (ConfigBlock.ofConfigs cfgA cfgB) = cfgA ∧
    ConfigBlock.portB (ConfigBlock.ofConfigs cfgA cfgB) = cfgB

/-- Decoding an encoded command gives it back: every command, every operand the encoding admits (pin indices above 7 too). -/
def Obligations.DecodeOfEncodeIsTheCommand : Prop := ∀ i : Instr, decode (encode i) = .ok i

/-- A command has one word: what decodes to it is its encoding, with its configuration block for CONSTRUCT. -/
def Obligations.EncodeOfDecodeIsTheWord : Prop :=
  ∀ (c : Command) (i : Instr), decode c = .ok i →
    (encode i).word = c.word ∧ (∀ cfgA cfgB, i = .construct cfgA cfgB → (encode i).cfgblk = c.cfgblk)

/-- R53 and R62: the 29 patterns are pairwise disjoint, a word is a command exactly when it selects one of them, and the
pattern selected is that of the command decoded. -/
def Obligations.DecoderAgreesWithTheOpcodeMap : Prop :=
  opcodeMap.length = 29 ∧
  opcodeMap.Pairwise (fun r q => ∀ w : CommandWord, ¬ (r.selects w ∧ q.selects w)) ∧
  (∀ c : Command, (∃ i, decode c = .ok i) ↔ ∃ r ∈ opcodeMap, r.selects c.word) ∧
  (∀ i : Instr, i.pattern ∈ opcodeMap) ∧
  ∀ (c : Command) (i : Instr), decode c = .ok i → i.pattern.selects c.word

/-- R56 and R57: exactly the words the rule lists are reserved, those of the three absent `set` commands (`op` 0x2 with `sel` 7,
8, 9) among them, and a block in IDLE that meets one at its command port refuses it. -/
def Obligations.ReservedWordsAreExactlyTheListedOnes : Prop :=
  (∀ c : Command, (∃ why, decode c = .error why) ↔
    (let w := c.word
     let op := (w.extractLsb' 20 4).toNat
     let port := w.extractLsb' 19 1
     let sel := w.extractLsb' 8 8
     let data := w.extractLsb' 0 8
     op = 0x0 ∨ op = 0xD ∨ op = 0xE ∨ op = 0xF ∨ w.extractLsb' 16 3 ≠ 0 ∨
     (op = 0x1 ∧ 11 ≤ sel.toNat) ∨
     (op = 0x2 ∧ (sel = 7 ∨ sel = 8 ∨ sel = 9 ∨ 11 ≤ sel.toNat)) ∨
     ((op = 0x1 ∨ op = 0x8 ∨ op = 0x9 ∨ op = 0xA ∨ op = 0xB ∨ op = 0xC) ∧ data ≠ 0) ∨
     ((op = 0x3 ∨ op = 0x5 ∨ op = 0x6 ∨ op = 0x7) ∧ data ≠ 0) ∨
     (op = 0x4 ∧ data &&& 0xFE ≠ 0) ∨
     ((op = 0x8 ∨ op = 0x9 ∨ op = 0xA ∨ op = 0xB ∨ op = 0xC) ∧ sel ≠ 0) ∨
     ((op = 0xB ∨ op = 0xC) ∧ port = 1))) ∧
  ∀ (s u : State) (c : Command) (why : Reserved),
    BlockMoves s u → s.phase = .idle → s.due = none → s.presented = some c → decode c = .error why →
      step s = .refused (.reservedWord why)

/-- A few words of every format, written out from the opcode map, and what they stand for. -/
def Obligations.SampleWordsDecode : Prop :=
  decodeTableWord 24 0x180A00 = some (.getOutputLatch .b) ∧
  decodeTableWord 24 0x200588 = some (.setPeripheralConfig .a 0x88) ∧
  decodeTableWord 24 0x380500 = some (.getPinState .b 5) ∧
  decodeTableWord 24 0x400001 = some (.setPinState .a 0 .high) ∧
  decodeTableWord 24 0x58FF00 = some (.setPin .b 255) ∧
  decodeTableWord 24 0xA80000 = some (.togglePins .b) ∧
  decodeTableWord 24 0xC00000 = some .destruct ∧
  decodeTableWord 24 0x2809FF = none

/-! ### The step -/

/-- R50 and R86: where the block moves next, in IDLE and with no response left to deliver, the command at the command port is
decoded and run, from the state in which the move and the command have been taken. How much of the command the move takes is its
grain, the model's choice (log 1). -/
def Obligations.StepRunsThePresentedCommand : Prop :=
  ∀ (s u : State) (c : Command) (i : Instr),
    BlockMoves s u → s.phase = .idle → s.due = none → s.presented = some c → decode c = .ok i →
    step s = exec i (takePresented u)

/-- R16 and R50: where the block moves next and a command is in progress, the step goes on with the command in `cmd`; a command
HOST has to wait with is not presented. The move's grain and the list of inputs are the model's choice (log 1, log 11). -/
def Obligations.StepGoesOnWithTheCommandInProgress : Prop :=
  ∀ (s u : State) (c : Command) (i : Instr),
    BlockMoves s u → s.phase ≠ .idle → s.cmd = some c → decode c = .ok i → step s = exec i u

/-- R160 (and log 22): with nothing presented and no response left to deliver the block, given its move, waits in IDLE. R8 and
R50: a command HOST may present is at the command port after HOST's step, HOST waits for its response (R9), and the block has not
moved. R43 (and log 11): an ENV
write changes the register space and nothing else but that it has been taken from the inputs. -/
def Obligations.StepWithoutACommand : Prop :=
  (∀ s u : State, BlockMoves s u → s.phase = .idle → s.due = none → s.presented = none → step s = .next u) ∧
  (∀ (s : State) (c : Command) (rest : List Input), HostMayPresent s → s.inputs = .command c :: rest →
    step s = .next { s with inputs := rest, presented := some c, awaited := true }) ∧
  ∀ (s : State) (a v : Byte) (rest : List Input), s.inputs = .envWrite a v :: rest →
    step s = .next { s with inputs := rest, memory := Memory.write s.memory a v }

/-- R86: the admission table. Uninitialized, only CONSTRUCT is admitted; initialized, every command but CONSTRUCT. The last two
clauses are the model's choice (log 21): R86 only says that while a command is in progress, its response included, HOST
must wait, and R150 lists no refusal for it; exec of another command then is refused as `commandInProgress`, which no step
does. -/
def Obligations.AdmissionFollowsTheLifecycle : Prop :=
  ∀ (s : State) (i : Instr),
    (s.phase = .idle → s.due = none → s.initialized = false → (∀ cfgA cfgB, i ≠ .construct cfgA cfgB) →
      exec i s = .refused .notInitialized) ∧
    (∀ cfgA cfgB, s.phase = .idle → s.due = none → s.initialized = true → i = .construct cfgA cfgB →
      exec i s = .refused .alreadyInitialized) ∧
    (s.phase ≠ .idle → s.cmd ≠ some (encode i) → exec i s = .refused .commandInProgress) ∧
    (s.phase = .idle → s.due ≠ none → exec i s = .refused .commandInProgress)

/-! ### Register accessors (42_register_access.md) -/

/-- R90 for the eleven `get` commands, as one step (log 1): an admitted `get` issues exactly one read, at the address of its
kind, responds with the byte the read returned and status 0, and writes no block state that outlives it; the register space is
as ENV left it. In the reference environment the byte is what the register space holds; in the general one it is any byte. That
`cmd`, `tmp` and `idx` hold no value once the command has ended is the model's choice (log 15, DEDUCED). -/
def Obligations.GetsRespondWithTheByteRead : Prop :=
  ∀ (p : Port) (m : BankMode) (s : State), ReadyIn m s → s.grain = .command → Completes 1 s →
    ∀ ik ∈ [(Instr.getDirection p, RegKind.direction), (.getPolarity p, .polarity),
        (.getInterruptEnable p, .interruptEnable), (.getDefaultCompare p, .defaultCompare),
        (.getInterruptControl p, .interruptControl), (.getPeripheralConfig p, .peripheralConfig),
        (.getPullUp p, .pullUp), (.getInterruptFlag p, .interruptFlag), (.getInterruptCapture p, .interruptCapture),
        (.getCurrentValue p, .currentValue), (.getOutputLatch p, .outputLatch)],
    ∃ v t, exec ik.1 s = .next t ∧ Answers v .ok t ∧
      t.history = s.history ++ [.read (address s.config p ik.2 m) v] ∧
      (s.env = .reference → v = Memory.read (spaceAt 0 s) (address s.config p ik.2 m)) ∧
      t.memory = spaceAt 0 s ∧ Framed s t

/-- R91 for the eight `set` commands, as one step (log 1): an admitted `set` issues exactly one write, of the byte unchanged, at
the address of its kind, and responds 0x00; it reads nothing and writes no block state that outlives it, `bank_mode` included
(R108). In the reference environment the location holds the byte afterwards. That in the general environment the write leaves
the list of the register space alone is the model's choice (log 7): R49 says only that the write is recorded and has no other
required effect. That `cmd`, `tmp` and `idx` hold no value once the command has ended is the model's choice (log 15, DEDUCED).
-/
def Obligations.SetsWriteTheByteUnchanged : Prop :=
  ∀ (p : Port) (v : Byte) (m : BankMode) (s : State), ReadyIn m s → s.grain = .command → Completes 1 s →
    ∀ ik ∈ [(Instr.setDirection p v, RegKind.direction), (.setPolarity p v, .polarity),
        (.setInterruptEnable p v, .interruptEnable), (.setDefaultCompare p v, .defaultCompare),
        (.setInterruptControl p v, .interruptControl), (.setPeripheralConfig p v, .peripheralConfig),
        (.setPullUp p v, .pullUp), (.setOutputLatch p v, .outputLatch)],
    ∃ t, exec ik.1 s = .next t ∧ Answers 0x00 .ok t ∧
      t.history = s.history ++ [.write (address s.config p ik.2 m) v] ∧
      (s.env = .reference → t.memory = Memory.write (spaceAt 0 s) (address s.config p ik.2 m) v) ∧
      (s.env = .general → t.memory = spaceAt 0 s) ∧ Framed s t

/-! ### Pin and port operations (43_pin_port_ops.md) -/

/-- R121, as one step (log 1): `get_pin_state` issues one read of current-value and no write, and responds 0x01 exactly when the
bit of the byte read is 1, that is when `value & pin_mask` is not 0. That `cmd`, `tmp` and `idx` hold no value once the command
has ended is the model's choice (log 15, DEDUCED). -/
def Obligations.GetPinStateTestsOneBit : Prop :=
  ∀ (p : Port) (pin : Byte) (m : BankMode) (s : State), ReadyIn m s → s.grain = .command → Completes 1 s →
    pin.toNat ≤ 7 →
    ∃ v t, exec (.getPinState p pin) s = .next t ∧
      Answers (if v.getLsbD pin.toNat then 0x01 else 0x00) .ok t ∧
      (v.getLsbD pin.toNat = true ↔ v &&& (1#8 <<< pin.toNat) ≠ 0x00) ∧
      t.history = s.history ++ [.read (address s.config p .currentValue m) v] ∧
      (s.env = .reference → v = Memory.read (spaceAt 0 s) (address s.config p .currentValue m)) ∧
      t.memory = spaceAt 0 s ∧ Framed s t

/-- R120, R123, R124, R125, as one step (log 1): `set_pin`, `reset_pin` and `toggle_pin` read current-value, then write the byte
read with the pin's bit OR-ed in, cleared or inverted, at the same address; the write happens even if it changes no bit. In the
reference environment the read returns what the location holds when it acts, and the write replaces the whole byte, whatever ENV
did to it in between. That in the general environment the write leaves the list of the register space alone is the model's
choice (log 7). That `cmd`, `tmp` and `idx` hold no value once the command has ended is the model's choice (log 15, DEDUCED). -/
def Obligations.PinOperationsReadModifyWrite : Prop :=
  ∀ (p : Port) (pin : Byte) (m : BankMode) (s : State), ReadyIn m s → s.grain = .command → Completes 2 s →
    pin.toNat ≤ 7 →
    ∀ f ∈ [(Instr.setPin p pin, fun x : Byte => x ||| (1#8 <<< pin.toNat)),
        (.resetPin p pin, fun x : Byte => x &&& ~~~(1#8 <<< pin.toNat)),
        (.togglePin p pin, fun x : Byte => x ^^^ (1#8 <<< pin.toNat))],
    ∃ x t, exec f.1 s = .next t ∧ Answers 0x00 .ok t ∧
      t.history = s.history ++ [.read (address s.config p .currentValue m) x,
        .write (address s.config p .currentValue m) (f.2 x)] ∧
      (s.env = .reference → x = Memory.read (spaceAt 0 s) (address s.config p .currentValue m) ∧
        t.memory = Memory.write (spaceAt 1 s) (address s.config p .currentValue m) (f.2 x)) ∧
      (s.env = .general → t.memory = spaceAt 1 s) ∧ Framed s t

/-- R122, the result as one step (log 1): `set_pin_state` reads current-value and writes the byte read with the pin's bit set on
HIGH, cleared on LOW. That in the general environment the write leaves the list of the register space alone is the model's
choice (log 7). That `cmd`, `tmp` and `idx` hold no value once the command has ended is the model's choice (log 15, DEDUCED). -/
def Obligations.SetPinStateSetsOrClearsTheBit : Prop :=
  ∀ (p : Port) (pin : Byte) (st : PinState) (m : BankMode) (s : State), ReadyIn m s → s.grain = .command →
    Completes 2 s → pin.toNat ≤ 7 →
    ∃ x y t, exec (.setPinState p pin st) s = .next t ∧
      (st = .high → y = x ||| (1#8 <<< pin.toNat)) ∧ (st = .low → y = x &&& ~~~(1#8 <<< pin.toNat)) ∧
      Answers 0x00 .ok t ∧
      t.history = s.history ++ [.read (address s.config p .currentValue m) x,
        .write (address s.config p .currentValue m) y] ∧
      (s.env = .reference → x = Memory.read (spaceAt 0 s) (address s.config p .currentValue m) ∧
        t.memory = Memory.write (spaceAt 1 s) (address s.config p .currentValue m) y) ∧
      (s.env = .general → t.memory = spaceAt 1 s) ∧ Framed s t

/-- R122 and R60: from IDLE, `set_pin_state` is exactly `set_pin` on HIGH and exactly `reset_pin` on LOW, whatever ENV does (a
failure and an unfinished transaction included), at either grain and for every pin index: the same next state, but for the
command word in `cmd` while the command is in progress, or the same refusal. That `cmd` holds no value once the command has ended
is the model's choice (log 15, DEDUCED). -/
def Obligations.SetPinStateDispatches : Prop :=
  ∀ (p : Port) (pin : Byte) (s : State), s.phase = .idle →
    ∀ ij ∈ [(Instr.setPinState p pin .high, Instr.setPin p pin), (.setPinState p pin .low, .resetPin p pin)],
    (∃ t c, exec ij.2 s = .next t ∧ exec ij.1 s = .next { t with cmd := c } ∧
      (t.phase = .idle → t.cmd = none ∧ c = none) ∧
      (t.phase ≠ .idle → t.cmd = some (encode ij.2) ∧ c = some (encode ij.1))) ∨
    (∃ r, exec ij.2 s = .refused r ∧ exec ij.1 s = .refused r)

/-- R126 and R128, as one step (log 1): `set_pins` and `toggle_pins` read current-value, then write 0xFF and the complement of
the byte read; `set_pins` issues its read although the byte written does not depend on it. That in the general environment the
write leaves the list of the register space alone is the model's choice (log 7). That `cmd`, `tmp` and `idx` hold no value once
the command has ended is the model's choice (log 15, DEDUCED). -/
def Obligations.PortOperationsReadModifyWrite : Prop :=
  ∀ (p : Port) (m : BankMode) (s : State), ReadyIn m s → s.grain = .command → Completes 2 s →
    ∀ f ∈ [(Instr.setPins p, fun _ : Byte => (0xFF : Byte)), (.togglePins p, fun x : Byte => ~~~x)],
    ∃ x t, exec f.1 s = .next t ∧ Answers 0x00 .ok t ∧
      t.history = s.history ++ [.read (address s.config p .currentValue m) x,
        .write (address s.config p .currentValue m) (f.2 x)] ∧
      (s.env = .reference → x = Memory.read (spaceAt 0 s) (address s.config p .currentValue m) ∧
        t.memory = Memory.write (spaceAt 1 s) (address s.config p .currentValue m) (f.2 x)) ∧
      (s.env = .general → t.memory = spaceAt 1 s) ∧ Framed s t

/-- R127, as one step (log 1): `reset_pins` issues one write of 0x00 and no read; with `RESET_PINS_READS` it issues a read
before it whose value is not used. That in the general environment the write leaves the list of the register space alone is the
model's choice (log 7). That `cmd`, `tmp` and `idx` hold no value once the command has ended is the model's choice (log 15,
DEDUCED). -/
def Obligations.ResetPinsWritesZero : Prop :=
  ∀ (p : Port) (m : BankMode) (s : State), ReadyIn m s → s.grain = .command →
    (s.config.resetPinsReads = false → Completes 1 s →
      ∃ t, exec (.resetPins p) s = .next t ∧ Answers 0x00 .ok t ∧
        t.history = s.history ++ [.write (address s.config p .currentValue m) 0x00] ∧
        (s.env = .reference → t.memory = Memory.write (spaceAt 0 s) (address s.config p .currentValue m) 0x00) ∧
        (s.env = .general → t.memory = spaceAt 0 s) ∧ Framed s t) ∧
    (s.config.resetPinsReads = true → Completes 2 s →
      ∃ x t, exec (.resetPins p) s = .next t ∧ Answers 0x00 .ok t ∧
        t.history = s.history ++ [.read (address s.config p .currentValue m) x,
          .write (address s.config p .currentValue m) 0x00] ∧
        (s.env = .reference → t.memory = Memory.write (spaceAt 1 s) (address s.config p .currentValue m) 0x00) ∧
        (s.env = .general → t.memory = spaceAt 1 s) ∧ Framed s t)

/-- R131 and R144: a pin index above 7. With `PIN_CHECK` off the five pin commands are refused; with it on they end with status
InvalidPinIndex, and nothing changes but the response: no transaction, no block state. At the grain of events the response is
due (log 1). That `cmd`, `tmp` and `idx` hold no value once the command has ended is the model's choice (log 15, DEDUCED). -/
def Obligations.PinIndexAboveSevenHasNoEffect : Prop :=
  ∀ (p : Port) (pin : Byte) (st : PinState) (s : State), s.phase = .idle → s.due = none → s.initialized = true →
    7 < pin.toNat →
    ∀ i ∈ [Instr.getPinState p pin, .setPinState p pin st, .setPin p pin, .resetPin p pin, .togglePin p pin],
    (s.config.pinCheck = false → exec i s = .refused .pinIndexOutOfRange) ∧
    (s.config.pinCheck = true → s.grain = .command →
      exec i s = .next { s with
        cmd := none, tmp := none, idx := none, rsp := some ⟨0x00, .invalidPinIndex⟩, awaited := false }) ∧
    (s.config.pinCheck = true → s.grain = .event → exec i s = .next { s with
      cmd := none, tmp := none, idx := none, rsp := none, due := some ⟨0x00, .invalidPinIndex⟩ })

/-! ### Construction and destruction (41_lifecycle.md) -/

/-- R81: the derived mode is separate exactly when the AND of the two bank bits equals `BANK_SEP_VALUE`; with the defaults,
exactly when bit 7 of both bytes is 1. -/
def Obligations.BankModeIsTheAndOfBothBits : Prop :=
  (∀ (c : Config) (cfgA cfgB : PortConfig), derivedMode c cfgA cfgB = .separate ↔
    (cfgA.peripheralConfig.getLsbD c.bankBit.val && cfgB.peripheralConfig.getLsbD c.bankBit.val) = c.bankSepValue) ∧
  (∀ cfgA cfgB : PortConfig, derivedMode Config.documented cfgA cfgB = .separate ↔
    (128 ≤ cfgA.peripheralConfig.toNat ∧ 128 ≤ cfgB.peripheralConfig.toNat)) ∧
  ∀ (c : Config) (cfgA cfgB : PortConfig), derivedMode c cfgA cfgB = .separate ∨ derivedMode c cfgA cfgB = .common

/-- R82: the fourteen construction writes. For every configuration: seven of one port, then seven of the other, the ports in
`CFG_PORT_ORDER`; a port's writes are the six ordered kinds with peripheral-configuration at `IOCON_POS`, each the snapshot's
own byte at the address of that port and kind. With the defaults, the two address sequences of the rule. -/
def Obligations.PushOrderOfTheFourteenWrites : Prop :=
  (∀ (c : Config) (m : BankMode) (cfgA cfgB : PortConfig),
    (c.cfgPortOrder = .portAFirst → pushWrites c m cfgA cfgB = portPushes c m .a cfgA ++ portPushes c m .b cfgB) ∧
    (c.cfgPortOrder = .portBFirst → pushWrites c m cfgA cfgB = portPushes c m .b cfgB ++ portPushes c m .a cfgA) ∧
    (pushWrites c m cfgA cfgB).length = 14) ∧
  (∀ (c : Config) (m : BankMode) (p : Port) (cfg : PortConfig),
    (portPushes c m p cfg).length = 7 ∧
    (portPushes c m p cfg)[c.ioconPos.val]? = some ⟨address c p .peripheralConfig m, cfg.peripheralConfig⟩ ∧
    (portPushes c m p cfg).eraseIdx c.ioconPos.val =
      [⟨address c p .direction m, cfg.direction⟩, ⟨address c p .polarity m, cfg.polarity⟩,
        ⟨address c p .interruptEnable m, cfg.interruptEnable⟩, ⟨address c p .defaultCompare m, cfg.defaultCompare⟩,
        ⟨address c p .interruptControl m, cfg.interruptControl⟩, ⟨address c p .pullUp m, cfg.pullUp⟩]) ∧
  (∀ cfgA cfgB : PortConfig, (pushWrites Config.documented .separate cfgA cfgB).map (·.addr)
    = [0, 1, 2, 3, 4, 6, 5, 10, 11, 12, 13, 14, 16, 15]) ∧
  (∀ cfgA cfgB : PortConfig, (pushWrites Config.documented .common cfgA cfgB).map (·.addr)
    = [0, 1, 2, 3, 4, 6, 5, 1, 2, 3, 4, 5, 7, 6])

/-- R80 to R83 and R13, as one step (log 1): on a fresh block, with the bank-bit check off or passed, CONSTRUCT derives the
mode, issues its fourteen writes and no read, sets `initialized` and responds 0x00 with status 0; no byte of the snapshots is
kept (R13, R83). In the reference environment undisturbed, the register space ends as the fourteen writes leave it. That `cmd`,
`tmp` and `idx` hold no value once the command has ended is the model's choice (log 15, DEDUCED). -/
def Obligations.ConstructPushesAndInitializes : Prop :=
  ∀ (cfgA cfgB : PortConfig) (s : State), Fresh s → s.grain = .command → Completes 14 s →
    (s.config.bankMismatchCheck = true → bankBitsDiffer s.config cfgA cfgB = false) →
    ∃ t, exec (.construct cfgA cfgB) s = .next t ∧ t.initialized = true ∧
      t.bankMode = some (derivedMode s.config cfgA cfgB) ∧ Answers 0x00 .ok t ∧
      t.history = s.history ++
        (pushWrites s.config (derivedMode s.config cfgA cfgB) cfgA cfgB).map (fun w => .write w.addr w.data) ∧
      (Undisturbed s → t.memory = (pushWrites s.config (derivedMode s.config cfgA cfgB) cfgA cfgB).foldl
        (fun mem w => Memory.write mem w.addr w.data) s.memory) ∧
      t.config = s.config ∧ t.env = s.env ∧ t.presented = s.presented ∧ t.inputs = s.inputs ∧ t.draws = s.draws ∧
      t.grain = s.grain

/-- R84 and R144: with `BANK_MISMATCH_CHECK` on, snapshots whose bank bits differ are rejected: no transaction, `initialized`
and `bank_mode` as they were, the response carries BankMismatch, the snapshots are not kept. At the grain of events the response
is due (log 1). That `cmd`, `tmp` and `idx` hold no value once the command has ended is the model's choice (log 15, DEDUCED). -/
def Obligations.MismatchedBankBitsAreRejectedWhenChecked : Prop :=
  ∀ (cfgA cfgB : PortConfig) (s : State), Fresh s → s.config.bankMismatchCheck = true →
    cfgA.peripheralConfig.getLsbD s.config.bankBit.val ≠ cfgB.peripheralConfig.getLsbD s.config.bankBit.val →
    (s.grain = .command → exec (.construct cfgA cfgB) s = .next { s with
      cmd := none, tmp := none, idx := none, rsp := some ⟨0x00, .bankMismatch⟩, awaited := false }) ∧
    (s.grain = .event → exec (.construct cfgA cfgB) s = .next { s with
      cmd := none, tmp := none, idx := none, rsp := none, due := some ⟨0x00, .bankMismatch⟩ })

/-- R85: on an initialized block `destruct` clears the flag and responds 0x00; it issues no transaction and leaves `bank_mode`
and everything else. At the grain of events the response is due (log 1). That `cmd`, `tmp` and `idx` hold no value once the
command has ended is the model's choice (log 15, DEDUCED). -/
def Obligations.DestructClearsTheFlagOnly : Prop :=
  ∀ s : State, s.phase = .idle → s.due = none → s.initialized = true →
    (s.grain = .command → exec .destruct s = .next { s with
      initialized := false, cmd := none, tmp := none, idx := none, rsp := some ⟨0x00, .ok⟩, awaited := false }) ∧
    (s.grain = .event → exec .destruct s = .next { s with
      initialized := false, cmd := none, tmp := none, idx := none, rsp := none, due := some ⟨0x00, .ok⟩ })

/-- R88: what the block does during CONSTRUCT does not depend on what the peripheral holds or answers: two fresh states that
differ only in the register space, the environment, the draws and ENV's own changes of the register space (but complete
the transactions alike) issue the same transactions and end with the same block state. -/
def Obligations.ConstructDoesNotDependOnThePeripheral : Prop :=
  ∀ (cfgA cfgB : PortConfig) (s s' : State), Fresh s →
    s' = { s with memory := s'.memory, env := s'.env, draws := s'.draws, turns := s'.turns } →
    s.turns.map (·.completion) = s'.turns.map (·.completion) →
    ∃ t t', exec (.construct cfgA cfgB) s = .next t ∧ exec (.construct cfgA cfgB) s' = .next t' ∧
      t' = { t with memory := t'.memory, env := t'.env, draws := t'.draws, turns := t'.turns }

/-! ### Frames -/

/-- The frame of the 27 commands other than CONSTRUCT and DESTRUCT, from any state, at either grain and however the transactions
end: parameters, lifecycle flag, bank mode, kind of environment, command port, inputs and grain are unchanged; the construction
count is, or holds no value once the command has ended; `tmp` too unless the command reads and writes; HOST waits on as it did, or
no longer once the command has ended (R9); the history only grows. That `tmp` and `idx` hold no value once the command has ended
is the model's choice (log 15, DEDUCED). -/
def Obligations.AccessorAndPinCommandFrame : Prop :=
  ∀ (i : Instr) (s t : State), (∀ cfgA cfgB, i ≠ .construct cfgA cfgB) → i ≠ .destruct → exec i s = .next t →
    Framed s t ∧ s.history <+: t.history ∧ (t.idx = s.idx ∨ (t.phase = .idle ∧ t.idx = none)) ∧
    (t.awaited = s.awaited ∨ (t.phase = .idle ∧ t.due = none ∧ t.awaited = false)) ∧
    ((∀ m, (readAddress s.config m i).isSome = true → writeAddress s.config m i = none) →
      t.tmp = s.tmp ∨ (t.phase = .idle ∧ t.tmp = none))

/-- Every byte of the register space but the one stored to, from any state and however the transactions end: for a command other
than CONSTRUCT, every address that is not the command's write address and that ENV does not change on its own reads as
before; a command that stores nothing (the eleven `get` commands, `get_pin_state`, `destruct`) has no write address. -/
def Obligations.RegisterSpaceFrame : Prop :=
  ∀ (i : Instr) (s t : State) (x : Byte), (∀ cfgA cfgB, i ≠ .construct cfgA cfgB) → exec i s = .next t →
    Memory.wf s.memory → Untouched x s →
    (∀ a, writeAddress s.config (modeOf s) i = some a → x ≠ a) →
    Memory.read t.memory x = Memory.read s.memory x

/-- The frame of CONSTRUCT, from any state, at either grain and however the transactions end: the parameters, the kind of
environment, the command port, the inputs, the draws and the grain are unchanged; so is `tmp` while the push goes on; HOST waits
on as it did, or no longer once the command has ended (R9); `bank_mode` is unchanged or, from a fresh state, the derived mode.
Once it has ended no configuration byte is left in the block (R13, R83) and the response byte is 0x00. Every byte of the
register space but those of its fourteen writes (in the derived mode from IDLE, in the cached one when it goes on) that ENV does
not change on its own reads as before. That `cmd`, `tmp` and `idx` hold no value once the command has ended is the model's
choice (log 15, DEDUCED). -/
def Obligations.ConstructFrame : Prop :=
  ∀ (cfgA cfgB : PortConfig) (s t : State), exec (.construct cfgA cfgB) s = .next t →
    (t.config = s.config ∧ t.env = s.env ∧ t.presented = s.presented ∧ t.inputs = s.inputs ∧ t.draws = s.draws ∧
      t.grain = s.grain ∧ s.history <+: t.history) ∧
    (t.phase ≠ .idle → t.tmp = s.tmp) ∧
    (t.awaited = s.awaited ∨ (t.phase = .idle ∧ t.due = none ∧ t.awaited = false)) ∧
    (t.phase = .idle → t.cmd = none ∧ t.tmp = none ∧ t.idx = none ∧ ∃ st, responseOf t = some ⟨0x00, st⟩) ∧
    (t.bankMode = s.bankMode ∨ (Fresh s ∧ t.bankMode = some (derivedMode s.config cfgA cfgB))) ∧
    ∀ (m : BankMode) (x : Byte), Memory.wf s.memory → Untouched x s →
      (s.phase = .idle → m = derivedMode s.config cfgA cfgB) → (s.phase ≠ .idle → m = modeOf s) →
      (∀ w ∈ pushWrites s.config m cfgA cfgB, x ≠ w.addr) → Memory.read t.memory x = Memory.read s.memory x

/-! ### The source's properties of the pin and port operations (R130) -/

/-- R130 (a) to (f), in the reference environment undisturbed, each command one step (log 1): `set_pin` twice is `set_pin`
once; `set_pin_state` then `get_pin_state` gives the state set; `toggle_pin` twice restores; `set_pins` leaves 0xFF;
`reset_pins` leaves 0x00; `toggle_pins` twice restores. -/
def Obligations.PropertiesOfPinAndPortOperations : Prop :=
  ∀ (p : Port) (pin : Byte) (m : BankMode) (s : State), ReadyIn m s → s.grain = .command → Undisturbed s →
    Memory.wf s.memory → pin.toNat ≤ 7 →
    let a := address s.config p .currentValue m
    (∃ t u, exec (.setPin p pin) s = .next t ∧ exec (.setPin p pin) t = .next u ∧
      Memory.read u.memory a = Memory.read t.memory a) ∧
    (∃ t u, exec (.setPinState p pin .high) s = .next t ∧ exec (.getPinState p pin) t = .next u ∧
      u.rsp = some ⟨0x01, .ok⟩) ∧
    (∃ t u, exec (.setPinState p pin .low) s = .next t ∧ exec (.getPinState p pin) t = .next u ∧
      u.rsp = some ⟨0x00, .ok⟩) ∧
    (∃ t u, exec (.togglePin p pin) s = .next t ∧ exec (.togglePin p pin) t = .next u ∧
      Memory.read u.memory a = Memory.read s.memory a) ∧
    (∃ t, exec (.setPins p) s = .next t ∧ Memory.read t.memory a = 0xFF) ∧
    (∃ t, exec (.resetPins p) s = .next t ∧ Memory.read t.memory a = 0x00) ∧
    (∃ t u, exec (.togglePins p) s = .next t ∧ exec (.togglePins p) t = .next u ∧
      Memory.read u.memory a = Memory.read s.memory a)

/-! ### Errors (60_exceptions.md) -/

/-- R140: with the three optional checks off, a command that ends (the block is IDLE again) has status 0, its response delivered
or due. -/
def Obligations.NoErrorsByDefault : Prop :=
  ∀ (i : Instr) (s t : State), s.config.pinCheck = false → s.config.bankMismatchCheck = false →
    s.config.transportErrors = false → exec i s = .next t → t.phase = .idle →
    ∃ v, responseOf t = some ⟨v, .ok⟩

/-- R141 and R173, derived: a command that keeps the duties its operands can break (a pin index in 0 to 7, equal bank bits) ends
with status 0, or with TransportFailure where `TRANSPORT_ERRORS` is on; never InvalidPinIndex or BankMismatch. -/
def Obligations.DutifulCommandsMeetNoOperandError : Prop :=
  ∀ (i : Instr) (s t : State), KeepsDuties s i → exec i s = .next t → t.phase = .idle →
    ∃ v st, responseOf t = some ⟨v, st⟩ ∧ (st = .ok ∨ (st = .transportFailure ∧ v = 0x00 ∧ s.config.transportErrors = true))

/-- R144 and R152, as one step (log 1): with `TRANSPORT_ERRORS` on, a read that fails ends the command: status TransportFailure,
`rsp_data` 0x00, no further transaction (a read-modify-write issues no write), no register written. That `cmd`, `tmp` and `idx`
hold no value once the command has ended is the model's choice (log 15, DEDUCED). -/
def Obligations.FailedReadEndsTheCommand : Prop :=
  ∀ (i : Instr) (a : Byte) (m : BankMode) (took : Bool) (s : State), ReadyIn m s → s.grain = .command →
    s.config.transportErrors = true → FailsAt 0 took s → readAddress s.config m i = some a →
    exec i s = .next { s with
      cmd := none
      tmp := none
      idx := none
      bus := none
      rsp := some ⟨0x00, .transportFailure⟩
      awaited := false
      history := s.history ++ [.readFailed a]
      memory := spaceAt 0 s
      turns := s.turns.tail }

/-- R144 and R152, as one step (log 1): with `TRANSPORT_ERRORS` on, a write that fails ends the command with status
TransportFailure; the read half of a read-modify-write has been issued and is not undone, and the lifecycle flag and the bank
mode are as they were. That `cmd`, `tmp` and `idx` hold no value once the command has ended is the model's choice (log 15,
DEDUCED). -/
def Obligations.FailedWriteEndsTheCommand : Prop :=
  ∀ (i : Instr) (a : Byte) (m : BankMode) (took : Bool) (s : State), ReadyIn m s → s.grain = .command →
    s.config.transportErrors = true → writeAddress s.config m i = some a →
    (readAddress s.config m i = none → FailsAt 0 took s →
      ∃ t, exec i s = .next t ∧ Answers 0x00 .transportFailure t ∧
        t.history = s.history ++ [.writeFailed a (writtenByte 0 i)] ∧ Framed s t) ∧
    (readAddress s.config m i = some a → FailsAt 1 took s →
      ∃ x t, exec i s = .next t ∧ Answers 0x00 .transportFailure t ∧
        t.history = s.history ++ [.read a x, .writeFailed a (writtenByte x i)] ∧ Framed s t)

/-- R144, as one step (log 1): with `TRANSPORT_ERRORS` on, a CONSTRUCT whose write number `n` fails stops there: `initialized`
stays 0, `bank_mode` keeps the derived value, the `n` writes before it have been issued and are not undone, none after it is.
That `cmd`, `tmp` and `idx` hold no value once the command has ended is the model's choice (log 15, DEDUCED). -/
def Obligations.FailedConstructionWriteStopsThePush : Prop :=
  ∀ (cfgA cfgB : PortConfig) (n : Fin 14) (took : Bool) (s : State), Fresh s → s.grain = .command →
    s.config.transportErrors = true → FailsAt n.val took s →
    (s.config.bankMismatchCheck = true → bankBitsDiffer s.config cfgA cfgB = false) →
    ∃ t w, exec (.construct cfgA cfgB) s = .next t ∧ t.initialized = false ∧
      t.bankMode = some (derivedMode s.config cfgA cfgB) ∧ Answers 0x00 .transportFailure t ∧
      (pushWrites s.config (derivedMode s.config cfgA cfgB) cfgA cfgB)[n.val]? = some w ∧
      t.history = s.history ++
        (((pushWrites s.config (derivedMode s.config cfgA cfgB) cfgA cfgB).take n.val).map
          (fun w => Transaction.write w.addr w.data)) ++ [.writeFailed w.addr w.data]

/-- R58 and R141: the codes of the response: status 0 to 3, HIGH 0x01 and LOW 0x00; `initialized_o` is the flag. -/
def Obligations.ResponseCodes : Prop :=
  [Status.ok, .invalidPinIndex, .bankMismatch, .transportFailure].map statusCode = [0, 1, 2, 3] ∧
  pinStateByte .high = 0x01 ∧ pinStateByte .low = 0x00 ∧
  ∀ s : State, initializedOut s = 1 ↔ s.initialized = true

/-! ### Reset (10_state.md, 70_reset_and_hazards.md) -/

/-- R26: the state of the block after reset; R9 has HOST present its commands from there, so none is
presented and none awaits its response yet. -/
def Obligations.ResetStateOfTheBlock : Prop :=
  State.reset.initialized = false ∧ State.reset.bankMode = none ∧ State.reset.phase = .idle ∧ State.reset.cmd = none ∧
  State.reset.tmp = none ∧ State.reset.idx = none ∧ State.reset.presented = none ∧ State.reset.rsp = none ∧
  State.reset.due = none ∧ State.reset.awaited = false ∧ State.reset.bus = none ∧ State.reset.faults = []

/-- R160 and R172: the reset input, in any phase and also between the last transaction of a command and its response, puts the
block in the state of R26; it issues no transaction and delivers no response, and the transactions already completed stay
done. The register space changes only by an outstanding write that took effect. After it the only command admitted is
CONSTRUCT. That a command HOST had presented is gone too is the model's choice (log 20), and so is that HOST waits on for a
response it waited for, which it never gets (log 26, DEDUCED). -/
def Obligations.ResetInputClearsTheBlock : Prop :=
  ∀ (s : State) (took : Bool) (rest : List Input), s.inputs = .reset took :: rest →
    ∃ t, step s = .next t ∧ t.initialized = false ∧ t.bankMode = none ∧ t.phase = .idle ∧ t.cmd = none ∧ t.tmp = none ∧
      t.idx = none ∧ t.presented = none ∧ t.rsp = none ∧ t.due = none ∧ t.bus = none ∧ t.history = s.history ∧
      t.config = s.config ∧ t.env = s.env ∧ t.inputs = rest ∧ t.grain = s.grain ∧ t.awaited = s.awaited ∧ t.faults = s.faults ∧
      (t.memory = s.memory ∨ ∃ a v, s.bus = some (.write a v) ∧ took = true ∧ t.memory = Memory.write s.memory a v) ∧
      ∀ i : Instr, (∀ cfgA cfgB, i ≠ .construct cfgA cfgB) → exec i t = .refused .notInitialized

/-! ### Waiting, hanging, interleaving (20_memory.md, 70_reset_and_hazards.md) -/

/-- R16 and R120, as one step (log 1): a read-modify-write whose write has not completed stands in WR_PEND with the byte read
in `tmp` and its write request outstanding; its read is done, no response is pending. This is the point at which ENV may step
(R42). -/
def Obligations.ReadModifyWriteWaitsInWrPend : Prop :=
  ∀ (i : Instr) (a : Byte) (m : BankMode) (s : State), ReadyIn m s → s.grain = .command →
    readAddress s.config m i = some a → writeAddress s.config m i = some a → WaitsAt 1 s →
    ∃ x t, exec i s = .next t ∧ t.phase = .wrPend ∧ t.tmp = some x ∧ t.cmd = some (encode i) ∧
      t.bus = some (.write a (writtenByte x i)) ∧ t.rsp = none ∧ t.due = none ∧
      t.history = s.history ++ [.read a x] ∧ Framed s t

/-- R16, R42 and R83, as one step (log 1): a CONSTRUCT whose write number `n` has not completed stands in CFG_PEND with `idx`
`n`, the derived mode in `bank_mode`, that write outstanding; the `n` writes before it are done, `initialized` is 0 and no
response is pending. ENV may step at each of the fourteen points. -/
def Obligations.ConstructWaitsInCfgPend : Prop :=
  ∀ (cfgA cfgB : PortConfig) (n : Fin 14) (s : State), Fresh s → s.grain = .command →
    (s.config.bankMismatchCheck = true → bankBitsDiffer s.config cfgA cfgB = false) → WaitsAt n.val s →
    ∃ t w, exec (.construct cfgA cfgB) s = .next t ∧ t.phase = .cfgPend ∧ t.idx = some n ∧ t.initialized = false ∧
      t.bankMode = some (derivedMode s.config cfgA cfgB) ∧ t.cmd = some (encode (.construct cfgA cfgB)) ∧
      t.rsp = none ∧ t.due = none ∧
      (pushWrites s.config (derivedMode s.config cfgA cfgB) cfgA cfgB)[n.val]? = some w ∧
      t.bus = some (.write w.addr w.data) ∧
      t.history = s.history ++ ((pushWrites s.config (derivedMode s.config cfgA cfgB) cfgA cfgB).take n.val).map
        (fun w => Transaction.write w.addr w.data)

/-- The model's choice of steps and turns (log 1, log 8), after 20_memory.md section 4: a transaction that completes late only
delays its command. (a) For every command in progress and at every one of its transactions (the read or the write of a
command, any of the fourteen writes): at an attempt that is late the block's move changes nothing but what ENV changes on its
own, and the command stands where it stood. (b) A command split at its first transaction is the command run in one piece: the
block's next move, of the same grain, ends exactly as the command would have ended had ENV made the same changes and gone on to
its next turn. -/
def Obligations.LateCompletionOnlyDelays : Prop :=
  (∀ (pk : List (Byte × Byte)) (rest : List BusTurn) (s u : State), Inv s → s.phase ≠ .idle → BlockMoves s u →
    s.turns = ⟨pk, .late⟩ :: rest → step s = .next { u with memory := pokeAll pk s.memory, turns := rest }) ∧
  ∀ (i : Instr) (pk : List (Byte × Byte)) (rest : List BusTurn) (more : List Input) (s : State),
    s.turns = ⟨pk, .late⟩ :: rest → s.inputs = .seq .command :: more → s.grain = .command →
    ((∃ m, ReadyIn m s ∧ ((readAddress s.config m i).isSome = true ∨ (writeAddress s.config m i).isSome = true)) ∨
      (Fresh s ∧ ∃ cfgA cfgB, i = .construct cfgA cfgB ∧
        (s.config.bankMismatchCheck = true → bankBitsDiffer s.config cfgA cfgB = false))) →
    ∃ t, exec i s = .next t ∧ t.phase ≠ .idle ∧ t.rsp = none ∧ t.history = s.history ∧
      step t = exec i { s with inputs := more, memory := pokeAll pk s.memory, turns := rest }

/-- R8 (log 1): the block's moves of one event amount to its move of a whole command. From a state that meets the invariant,
whatever the block does when the inputs give it one move of the grain of commands (the end of a command and its response, a
transaction that has not completed, a refused nothing to do), it does too when they give it, in place of that entry, some number
from one to sixteen of moves of the grain of events, and it reaches the same state. -/
def Obligations.EventStepsAmountToTheCommandStep : Prop :=
  ∀ (s t : State) (rest : List Input), Inv s → s.inputs = .seq .command :: rest → step s = .next t →
    ∃ n, 1 ≤ n ∧ n ≤ 16 ∧
      Sys2Proof.core.run n { s with inputs := List.replicate n (.seq .event) ++ rest } = .next { t with grain := .event }

/-- R47 and R169: a transport that never completes leaves the block stuck: each move of the block takes the move from the inputs
and changes nothing else, for as long as HOST drives no reset and ENV changes no register. -/
def Obligations.HungTransportLeavesTheBlockStuck : Prop :=
  ∀ s u : State, Inv s → Stuck s → BlockMoves s u → step s = .next u ∧ Stuck u

/-- R163, as one step (log 1): the lost update. In the reference environment, if ENV writes any byte to the location between the
read and the write of a read-modify-write, the location ends with the byte computed from the stale copy: ENV's change is lost.
For the six commands the rule names. -/
def Obligations.UpdateBetweenTheHalvesIsLost : Prop :=
  ∀ (p : Port) (pin w : Byte) (m : BankMode) (s : State) (rest : List BusTurn), ReadyIn m s → s.grain = .command →
    s.env = .reference → Memory.wf s.memory → pin.toNat ≤ 7 →
    s.turns = ⟨[], .ok⟩ :: ⟨[(address s.config p .currentValue m, w)], .ok⟩ :: rest →
    ∀ f ∈ [(Instr.setPin p pin, fun x : Byte => x ||| (1#8 <<< pin.toNat)),
        (.resetPin p pin, fun x : Byte => x &&& ~~~(1#8 <<< pin.toNat)),
        (.togglePin p pin, fun x : Byte => x ^^^ (1#8 <<< pin.toNat)),
        (.setPinState p pin .high, fun x : Byte => x ||| (1#8 <<< pin.toNat)),
        (.setPinState p pin .low, fun x : Byte => x &&& ~~~(1#8 <<< pin.toNat)),
        (.setPins p, fun _ : Byte => (0xFF : Byte)), (.togglePins p, fun x : Byte => ~~~x)],
    ∃ t, exec f.1 s = .next t ∧ Memory.read t.memory (address s.config p .currentValue m) =
      f.2 (Memory.read s.memory (address s.config p .currentValue m))

/-- R166, derived from R75: with the documented constants in separate mode `set_output_latch A` and `set_direction B` issue the
same transaction, and `get_output_latch A` and `get_direction B` read the same address: each pair of commands leaves the same
state, but for the word in `cmd` while the command is in progress. That `cmd` holds no value once the command has ended is the
model's choice (log 15, DEDUCED). -/
def Obligations.AliasedCommandsIssueTheSameTransaction : Prop :=
  ∀ (v : Byte) (s : State), ReadyIn .separate s → s.config = Config.documented →
    ∀ ij ∈ [(Instr.setOutputLatch .a v, Instr.setDirection .b v), (.getOutputLatch .a, .getDirection .b)],
    ∃ t c, exec ij.1 s = .next t ∧ exec ij.2 s = .next { t with cmd := c } ∧
      (t.phase = .idle → t.cmd = none ∧ c = none) ∧
      (t.phase ≠ .idle → t.cmd = some (encode ij.1) ∧ c = some (encode ij.2))

/-! ### Whole-machine rules and the invariant -/

/-- R27 (c): `initialized` changes only at the completion of CONSTRUCT (0 to 1), at DESTRUCT (1 to 0) and at reset (to 0). Said
of every execution, and of every step with the command it runs: the one accepted in IDLE from the command port, or the one in
`cmd`. -/
def Obligations.LifecycleFlagChangesOnlyByConstructDestructReset : Prop :=
  (∀ (i : Instr) (s t : State), exec i s = .next t → t.initialized ≠ s.initialized →
    (∃ cfgA cfgB, i = .construct cfgA cfgB ∧ t.initialized = true ∧ t.phase = .idle ∧
      responseOf t = some ⟨0x00, .ok⟩) ∨
    (i = .destruct ∧ t.initialized = false)) ∧
  ∀ s t : State, step s = .next t → t.initialized ≠ s.initialized →
    (∃ took rest, s.inputs = .reset took :: rest ∧ t.initialized = false) ∨
    ∃ c i, decode c = .ok i ∧
      ((s.phase = .idle ∧ s.due = none ∧ s.presented = some c) ∨ (s.phase ≠ .idle ∧ commandOf s = c)) ∧
      ((∃ cfgA cfgB, i = .construct cfgA cfgB ∧ t.initialized = true) ∨ (i = .destruct ∧ t.initialized = false))

/-- R27 (d) and R11: `bank_mode` never changes while `initialized` is 1. -/
def Obligations.BankModeFixedWhileInitialized : Prop :=
  ∀ s t : State, step s = .next t → s.initialized = true → t.initialized = true → t.bankMode = s.bankMode

/-- R40 (f) and R49: a step never drops, alters or reorders a transaction already issued: the history only grows. -/
def Obligations.HistoryOnlyGrows : Prop := ∀ s t : State, step s = .next t → s.history <+: t.history

/-- R13, R14, R27 (a), (b), R31, R40 and the canonical register space: every step, at either grain, keeps the invariant. That in
IDLE `cmd`, `tmp` and `idx` hold no value is the model's choice (log 15, DEDUCED). -/
def Obligations.EveryStepKeepsTheInvariant : Prop := ∀ s t : State, Inv s → step s = .next t → Inv t

/-- The invariant holds right after reset. -/
def Obligations.InvariantHoldsAfterReset : Prop := Inv State.reset

/-- R26 and U9 ("They hold no value. No admitted command reads them unwritten. If a model ever reads one unwritten it must
`fault`, never supply separate, common or zero"): under the invariant no step reads a register that holds no value, so none
records a fault; a recorded fault is kept for the whole run; and where `bank_mode`, `cmd`, `tmp` or `idx` is read while it
holds no value, in a state no run reaches, the fault is recorded. That the block goes on with a free value is the model's
choice (log 3). -/
def Obligations.NoStepReadsAnUnwrittenRegister : Prop :=
  (∀ s t : State, Inv s → step s = .next t → t.faults = s.faults) ∧
  (∀ s t : State, step s = .next t → s.faults <+: t.faults) ∧
  (∀ (i : Instr) (s : State), i.wellFormed = true → i ≠ .destruct →
    (s.phase = .idle → s.due = none ∧ s.initialized = true ∧ ∀ cfgA cfgB, i ≠ .construct cfgA cfgB) →
    (s.phase ≠ .idle → s.cmd = some (encode i)) → s.bankMode = none →
    ∃ t, exec i s = .next t ∧ s.faults ++ [.bankMode] <+: t.faults) ∧
  (∀ s u : State, BlockMoves s u → s.phase ≠ .idle → s.cmd = none →
    ∃ i, step s = exec i { u with cmd := some (encode i), faults := s.faults ++ [.cmd] }) ∧
  (∀ (i : Instr) (a b : Byte) (m : BankMode) (s : State), s.phase = .wrPend → s.cmd = some (encode i) →
    s.bankMode = some m → readAddress s.config m i = some a → writeAddress s.config m i = some b → s.tmp = none →
    ∃ x, exec i s = exec i { s with tmp := some x, faults := s.faults ++ [.tmp] }) ∧
  ∀ (cfgA cfgB : PortConfig) (m : BankMode) (s : State), s.phase ≠ .idle →
    s.cmd = some (encode (.construct cfgA cfgB)) → s.bankMode = some m → s.idx = none →
    ∃ n, exec (.construct cfgA cfgB) s =
      exec (.construct cfgA cfgB) { s with idx := some n, faults := s.faults ++ [.idx] }

/-- R150: under the invariant a step refuses only in IDLE and only the command HOST has presented: a reserved word; CONSTRUCT on
an initialized block; any other command on an uninitialized one; or a pin index above 7 with `PIN_CHECK` off. -/
def Obligations.OnlyAPresentedCommandIsRefused : Prop :=
  ∀ (s : State) (r : Refusal), Inv s → step s = .refused r →
    s.phase = .idle ∧ s.due = none ∧ ∃ c, s.presented = some c ∧
      ((∃ why, decode c = .error why ∧ r = .reservedWord why) ∨
        ∃ i, decode c = .ok i ∧
          ((r = .notInitialized ∧ s.initialized = false ∧ ∀ cfgA cfgB, i ≠ .construct cfgA cfgB) ∨
            (r = .alreadyInitialized ∧ s.initialized = true ∧ ∃ cfgA cfgB, i = .construct cfgA cfgB) ∨
            (r = .pinIndexOutOfRange ∧ s.initialized = true ∧ i.wellFormed = false ∧ s.config.pinCheck = false)))

/-- R9: an admitted command that is the last HOST presents, over a transport that completes its transactions, ends the run within
five steps, each one event of R8 (HOST presents it; the block accepts it, performs at most two transactions and delivers the
response): HOST has no command left, its last response is delivered, the block is IDLE. And an ended run stays ended, whatever
inputs that are no command are still to come: moves of the block, ENV writes, a reset (log 26, DEDUCED). -/
def Obligations.AdmittedCommandEndsTheRun : Prop :=
  (∀ (s : State) (c : Command) (i : Instr) (m : BankMode), ReadyIn m s → s.presented = none → Completes 2 s →
    s.inputs = [.command c] →
    decode c = .ok i → i.wellFormed = true → (∀ cfgA cfgB, i ≠ .construct cfgA cfgB) →
    ∃ n t, n ≤ 5 ∧ Sys2Proof.core.run n s = .next t ∧ t.grain = .event ∧ t.presented = none ∧ t.due = none ∧
      t.rsp.isSome = true ∧ RunEnded t) ∧
  ∀ s t : State, Inv s → RunEnded s → step s = .next t → RunEnded t
end

