-- ==== Sys2Proof/Laws/State.lean ====
section
/-! SUPPORT. One lemma per field and update of the state, true by rfl, so that no proof unfolds a record update. -/

namespace Sys2Proof.Machine

section Fields
variable (s : State)

/-! ### `accept` -/

@[simp] theorem accept_config (c : Command) : (accept c s).config = s.config := rfl
@[simp] theorem accept_initialized (c : Command) : (accept c s).initialized = s.initialized := rfl
@[simp] theorem accept_bankMode (c : Command) : (accept c s).bankMode = s.bankMode := rfl
@[simp] theorem accept_phase (c : Command) : (accept c s).phase = s.phase := rfl
@[simp] theorem accept_cmd (c : Command) : (accept c s).cmd = some c := rfl
@[simp] theorem accept_tmp (c : Command) : (accept c s).tmp = s.tmp := rfl
@[simp] theorem accept_idx (c : Command) : (accept c s).idx = s.idx := rfl
@[simp] theorem accept_presented (c : Command) : (accept c s).presented = s.presented := rfl
@[simp] theorem accept_rsp (c : Command) : (accept c s).rsp = none := rfl
@[simp] theorem accept_due (c : Command) : (accept c s).due = s.due := rfl
@[simp] theorem accept_awaited (c : Command) : (accept c s).awaited = s.awaited := rfl
@[simp] theorem accept_bus (c : Command) : (accept c s).bus = s.bus := rfl
@[simp] theorem accept_memory (c : Command) : (accept c s).memory = s.memory := rfl
@[simp] theorem accept_env (c : Command) : (accept c s).env = s.env := rfl
@[simp] theorem accept_turns (c : Command) : (accept c s).turns = s.turns := rfl
@[simp] theorem accept_inputs (c : Command) : (accept c s).inputs = s.inputs := rfl
@[simp] theorem accept_history (c : Command) : (accept c s).history = s.history := rfl
@[simp] theorem accept_draws (c : Command) : (accept c s).draws = s.draws := rfl
@[simp] theorem accept_grain (c : Command) : (accept c s).grain = s.grain := rfl
@[simp] theorem accept_faults (c : Command) : (accept c s).faults = s.faults := rfl

/-! ### `hold` -/

@[simp] theorem hold_config (ph : Phase) (r : BusRequest) : (hold ph r s).config = s.config := rfl
@[simp] theorem hold_initialized (ph : Phase) (r : BusRequest) : (hold ph r s).initialized = s.initialized := rfl
@[simp] theorem hold_bankMode (ph : Phase) (r : BusRequest) : (hold ph r s).bankMode = s.bankMode := rfl
@[simp] theorem hold_phase (ph : Phase) (r : BusRequest) : (hold ph r s).phase = ph := rfl
@[simp] theorem hold_cmd (ph : Phase) (r : BusRequest) : (hold ph r s).cmd = s.cmd := rfl
@[simp] theorem hold_tmp (ph : Phase) (r : BusRequest) : (hold ph r s).tmp = s.tmp := rfl
@[simp] theorem hold_idx (ph : Phase) (r : BusRequest) : (hold ph r s).idx = s.idx := rfl
@[simp] theorem hold_presented (ph : Phase) (r : BusRequest) : (hold ph r s).presented = s.presented := rfl
@[simp] theorem hold_rsp (ph : Phase) (r : BusRequest) : (hold ph r s).rsp = s.rsp := rfl
@[simp] theorem hold_due (ph : Phase) (r : BusRequest) : (hold ph r s).due = s.due := rfl
@[simp] theorem hold_awaited (ph : Phase) (r : BusRequest) : (hold ph r s).awaited = s.awaited := rfl
@[simp] theorem hold_bus (ph : Phase) (r : BusRequest) : (hold ph r s).bus = some r := rfl
@[simp] theorem hold_memory (ph : Phase) (r : BusRequest) : (hold ph r s).memory = s.memory := rfl
@[simp] theorem hold_env (ph : Phase) (r : BusRequest) : (hold ph r s).env = s.env := rfl
@[simp] theorem hold_turns (ph : Phase) (r : BusRequest) : (hold ph r s).turns = s.turns := rfl
@[simp] theorem hold_inputs (ph : Phase) (r : BusRequest) : (hold ph r s).inputs = s.inputs := rfl
@[simp] theorem hold_history (ph : Phase) (r : BusRequest) : (hold ph r s).history = s.history := rfl
@[simp] theorem hold_draws (ph : Phase) (r : BusRequest) : (hold ph r s).draws = s.draws := rfl
@[simp] theorem hold_grain (ph : Phase) (r : BusRequest) : (hold ph r s).grain = s.grain := rfl
@[simp] theorem hold_faults (ph : Phase) (r : BusRequest) : (hold ph r s).faults = s.faults := rfl

/-! ### `settle` -/

@[simp] theorem settle_config (t : Transaction) : (settle t s).config = s.config := rfl
@[simp] theorem settle_initialized (t : Transaction) : (settle t s).initialized = s.initialized := rfl
@[simp] theorem settle_bankMode (t : Transaction) : (settle t s).bankMode = s.bankMode := rfl
@[simp] theorem settle_phase (t : Transaction) : (settle t s).phase = s.phase := rfl
@[simp] theorem settle_cmd (t : Transaction) : (settle t s).cmd = s.cmd := rfl
@[simp] theorem settle_tmp (t : Transaction) : (settle t s).tmp = s.tmp := rfl
@[simp] theorem settle_idx (t : Transaction) : (settle t s).idx = s.idx := rfl
@[simp] theorem settle_presented (t : Transaction) : (settle t s).presented = s.presented := rfl
@[simp] theorem settle_rsp (t : Transaction) : (settle t s).rsp = s.rsp := rfl
@[simp] theorem settle_due (t : Transaction) : (settle t s).due = s.due := rfl
@[simp] theorem settle_awaited (t : Transaction) : (settle t s).awaited = s.awaited := rfl
@[simp] theorem settle_bus (t : Transaction) : (settle t s).bus = none := rfl
@[simp] theorem settle_memory (t : Transaction) : (settle t s).memory = s.memory := rfl
@[simp] theorem settle_env (t : Transaction) : (settle t s).env = s.env := rfl
@[simp] theorem settle_turns (t : Transaction) : (settle t s).turns = s.turns := rfl
@[simp] theorem settle_inputs (t : Transaction) : (settle t s).inputs = s.inputs := rfl
@[simp] theorem settle_history (t : Transaction) : (settle t s).history = s.history ++ [t] := rfl
@[simp] theorem settle_draws (t : Transaction) : (settle t s).draws = s.draws := rfl
@[simp] theorem settle_grain (t : Transaction) : (settle t s).grain = s.grain := rfl
@[simp] theorem settle_faults (t : Transaction) : (settle t s).faults = s.faults := rfl

/-! ### `recordFault` -/

@[simp] theorem recordFault_config (r : UnwrittenRead) : (recordFault r s).config = s.config := rfl
@[simp] theorem recordFault_initialized (r : UnwrittenRead) : (recordFault r s).initialized = s.initialized := rfl
@[simp] theorem recordFault_bankMode (r : UnwrittenRead) : (recordFault r s).bankMode = s.bankMode := rfl
@[simp] theorem recordFault_phase (r : UnwrittenRead) : (recordFault r s).phase = s.phase := rfl
@[simp] theorem recordFault_cmd (r : UnwrittenRead) : (recordFault r s).cmd = s.cmd := rfl
@[simp] theorem recordFault_tmp (r : UnwrittenRead) : (recordFault r s).tmp = s.tmp := rfl
@[simp] theorem recordFault_idx (r : UnwrittenRead) : (recordFault r s).idx = s.idx := rfl
@[simp] theorem recordFault_presented (r : UnwrittenRead) : (recordFault r s).presented = s.presented := rfl
@[simp] theorem recordFault_rsp (r : UnwrittenRead) : (recordFault r s).rsp = s.rsp := rfl
@[simp] theorem recordFault_due (r : UnwrittenRead) : (recordFault r s).due = s.due := rfl
@[simp] theorem recordFault_awaited (r : UnwrittenRead) : (recordFault r s).awaited = s.awaited := rfl
@[simp] theorem recordFault_bus (r : UnwrittenRead) : (recordFault r s).bus = s.bus := rfl
@[simp] theorem recordFault_memory (r : UnwrittenRead) : (recordFault r s).memory = s.memory := rfl
@[simp] theorem recordFault_env (r : UnwrittenRead) : (recordFault r s).env = s.env := rfl
@[simp] theorem recordFault_turns (r : UnwrittenRead) : (recordFault r s).turns = s.turns := rfl
@[simp] theorem recordFault_inputs (r : UnwrittenRead) : (recordFault r s).inputs = s.inputs := rfl
@[simp] theorem recordFault_history (r : UnwrittenRead) : (recordFault r s).history = s.history := rfl
@[simp] theorem recordFault_draws (r : UnwrittenRead) : (recordFault r s).draws = s.draws := rfl
@[simp] theorem recordFault_grain (r : UnwrittenRead) : (recordFault r s).grain = s.grain := rfl
@[simp] theorem recordFault_faults (r : UnwrittenRead) : (recordFault r s).faults = s.faults ++ [r] := rfl

/-! ### `respond` -/

@[simp] theorem respond_config (v : Byte) (st : Status) : (respond v st s).config = s.config := rfl
@[simp] theorem respond_initialized (v : Byte) (st : Status) : (respond v st s).initialized = s.initialized := rfl
@[simp] theorem respond_bankMode (v : Byte) (st : Status) : (respond v st s).bankMode = s.bankMode := rfl
@[simp] theorem respond_phase (v : Byte) (st : Status) : (respond v st s).phase = .idle := rfl
@[simp] theorem respond_cmd (v : Byte) (st : Status) : (respond v st s).cmd = none := rfl
@[simp] theorem respond_tmp (v : Byte) (st : Status) : (respond v st s).tmp = none := rfl
@[simp] theorem respond_idx (v : Byte) (st : Status) : (respond v st s).idx = none := rfl
@[simp] theorem respond_presented (v : Byte) (st : Status) : (respond v st s).presented = s.presented := rfl
theorem respond_rsp (v : Byte) (st : Status) : (respond v st s).rsp = (match s.grain with
      | .event => s.rsp
      | .command => some ⟨v, st⟩) := rfl
theorem respond_due (v : Byte) (st : Status) : (respond v st s).due = (match s.grain with
      | .event => some ⟨v, st⟩
      | .command => none) := rfl
theorem respond_awaited (v : Byte) (st : Status) : (respond v st s).awaited = (match s.grain with
      | .event => s.awaited
      | .command => false) := rfl
@[simp] theorem respond_bus (v : Byte) (st : Status) : (respond v st s).bus = s.bus := rfl
@[simp] theorem respond_memory (v : Byte) (st : Status) : (respond v st s).memory = s.memory := rfl
@[simp] theorem respond_env (v : Byte) (st : Status) : (respond v st s).env = s.env := rfl
@[simp] theorem respond_turns (v : Byte) (st : Status) : (respond v st s).turns = s.turns := rfl
@[simp] theorem respond_inputs (v : Byte) (st : Status) : (respond v st s).inputs = s.inputs := rfl
@[simp] theorem respond_history (v : Byte) (st : Status) : (respond v st s).history = s.history := rfl
@[simp] theorem respond_draws (v : Byte) (st : Status) : (respond v st s).draws = s.draws := rfl
@[simp] theorem respond_grain (v : Byte) (st : Status) : (respond v st s).grain = s.grain := rfl
@[simp] theorem respond_faults (v : Byte) (st : Status) : (respond v st s).faults = s.faults := rfl

/-! ### `deliver` -/

@[simp] theorem deliver_config : (deliver s).config = s.config := rfl
@[simp] theorem deliver_initialized : (deliver s).initialized = s.initialized := rfl
@[simp] theorem deliver_bankMode : (deliver s).bankMode = s.bankMode := rfl
@[simp] theorem deliver_phase : (deliver s).phase = s.phase := rfl
@[simp] theorem deliver_cmd : (deliver s).cmd = s.cmd := rfl
@[simp] theorem deliver_tmp : (deliver s).tmp = s.tmp := rfl
@[simp] theorem deliver_idx : (deliver s).idx = s.idx := rfl
@[simp] theorem deliver_presented : (deliver s).presented = s.presented := rfl
@[simp] theorem deliver_rsp : (deliver s).rsp = s.due := rfl
@[simp] theorem deliver_due : (deliver s).due = none := rfl
@[simp] theorem deliver_awaited : (deliver s).awaited = false := rfl
@[simp] theorem deliver_bus : (deliver s).bus = s.bus := rfl
@[simp] theorem deliver_memory : (deliver s).memory = s.memory := rfl
@[simp] theorem deliver_env : (deliver s).env = s.env := rfl
@[simp] theorem deliver_turns : (deliver s).turns = s.turns := rfl
@[simp] theorem deliver_inputs : (deliver s).inputs = s.inputs := rfl
@[simp] theorem deliver_history : (deliver s).history = s.history := rfl
@[simp] theorem deliver_draws : (deliver s).draws = s.draws := rfl
@[simp] theorem deliver_grain : (deliver s).grain = s.grain := rfl
@[simp] theorem deliver_faults : (deliver s).faults = s.faults := rfl

/-! ### `latchTmp` -/

@[simp] theorem latchTmp_config (v : Byte) : (latchTmp v s).config = s.config := rfl
@[simp] theorem latchTmp_initialized (v : Byte) : (latchTmp v s).initialized = s.initialized := rfl
@[simp] theorem latchTmp_bankMode (v : Byte) : (latchTmp v s).bankMode = s.bankMode := rfl
@[simp] theorem latchTmp_phase (v : Byte) : (latchTmp v s).phase = s.phase := rfl
@[simp] theorem latchTmp_cmd (v : Byte) : (latchTmp v s).cmd = s.cmd := rfl
@[simp] theorem latchTmp_tmp (v : Byte) : (latchTmp v s).tmp = some v := rfl
@[simp] theorem latchTmp_idx (v : Byte) : (latchTmp v s).idx = s.idx := rfl
@[simp] theorem latchTmp_presented (v : Byte) : (latchTmp v s).presented = s.presented := rfl
@[simp] theorem latchTmp_rsp (v : Byte) : (latchTmp v s).rsp = s.rsp := rfl
@[simp] theorem latchTmp_due (v : Byte) : (latchTmp v s).due = s.due := rfl
@[simp] theorem latchTmp_awaited (v : Byte) : (latchTmp v s).awaited = s.awaited := rfl
@[simp] theorem latchTmp_bus (v : Byte) : (latchTmp v s).bus = s.bus := rfl
@[simp] theorem latchTmp_memory (v : Byte) : (latchTmp v s).memory = s.memory := rfl
@[simp] theorem latchTmp_env (v : Byte) : (latchTmp v s).env = s.env := rfl
@[simp] theorem latchTmp_turns (v : Byte) : (latchTmp v s).turns = s.turns := rfl
@[simp] theorem latchTmp_inputs (v : Byte) : (latchTmp v s).inputs = s.inputs := rfl
@[simp] theorem latchTmp_history (v : Byte) : (latchTmp v s).history = s.history := rfl
@[simp] theorem latchTmp_draws (v : Byte) : (latchTmp v s).draws = s.draws := rfl
@[simp] theorem latchTmp_grain (v : Byte) : (latchTmp v s).grain = s.grain := rfl
@[simp] theorem latchTmp_faults (v : Byte) : (latchTmp v s).faults = s.faults := rfl

/-! ### `cacheMode` -/

@[simp] theorem cacheMode_config (m : BankMode) : (cacheMode m s).config = s.config := rfl
@[simp] theorem cacheMode_initialized (m : BankMode) : (cacheMode m s).initialized = s.initialized := rfl
@[simp] theorem cacheMode_bankMode (m : BankMode) : (cacheMode m s).bankMode = some m := rfl
@[simp] theorem cacheMode_phase (m : BankMode) : (cacheMode m s).phase = s.phase := rfl
@[simp] theorem cacheMode_cmd (m : BankMode) : (cacheMode m s).cmd = s.cmd := rfl
@[simp] theorem cacheMode_tmp (m : BankMode) : (cacheMode m s).tmp = s.tmp := rfl
@[simp] theorem cacheMode_idx (m : BankMode) : (cacheMode m s).idx = s.idx := rfl
@[simp] theorem cacheMode_presented (m : BankMode) : (cacheMode m s).presented = s.presented := rfl
@[simp] theorem cacheMode_rsp (m : BankMode) : (cacheMode m s).rsp = s.rsp := rfl
@[simp] theorem cacheMode_due (m : BankMode) : (cacheMode m s).due = s.due := rfl
@[simp] theorem cacheMode_awaited (m : BankMode) : (cacheMode m s).awaited = s.awaited := rfl
@[simp] theorem cacheMode_bus (m : BankMode) : (cacheMode m s).bus = s.bus := rfl
@[simp] theorem cacheMode_memory (m : BankMode) : (cacheMode m s).memory = s.memory := rfl
@[simp] theorem cacheMode_env (m : BankMode) : (cacheMode m s).env = s.env := rfl
@[simp] theorem cacheMode_turns (m : BankMode) : (cacheMode m s).turns = s.turns := rfl
@[simp] theorem cacheMode_inputs (m : BankMode) : (cacheMode m s).inputs = s.inputs := rfl
@[simp] theorem cacheMode_history (m : BankMode) : (cacheMode m s).history = s.history := rfl
@[simp] theorem cacheMode_draws (m : BankMode) : (cacheMode m s).draws = s.draws := rfl
@[simp] theorem cacheMode_grain (m : BankMode) : (cacheMode m s).grain = s.grain := rfl
@[simp] theorem cacheMode_faults (m : BankMode) : (cacheMode m s).faults = s.faults := rfl

/-! ### `countPush` -/

@[simp] theorem countPush_config (n : Nat) : (countPush n s).config = s.config := rfl
@[simp] theorem countPush_initialized (n : Nat) : (countPush n s).initialized = s.initialized := rfl
@[simp] theorem countPush_bankMode (n : Nat) : (countPush n s).bankMode = s.bankMode := rfl
@[simp] theorem countPush_phase (n : Nat) : (countPush n s).phase = s.phase := rfl
@[simp] theorem countPush_cmd (n : Nat) : (countPush n s).cmd = s.cmd := rfl
@[simp] theorem countPush_tmp (n : Nat) : (countPush n s).tmp = s.tmp := rfl
@[simp] theorem countPush_idx (n : Nat) : (countPush n s).idx = some (Fin.ofNat 14 n) := rfl
@[simp] theorem countPush_presented (n : Nat) : (countPush n s).presented = s.presented := rfl
@[simp] theorem countPush_rsp (n : Nat) : (countPush n s).rsp = s.rsp := rfl
@[simp] theorem countPush_due (n : Nat) : (countPush n s).due = s.due := rfl
@[simp] theorem countPush_awaited (n : Nat) : (countPush n s).awaited = s.awaited := rfl
@[simp] theorem countPush_bus (n : Nat) : (countPush n s).bus = s.bus := rfl
@[simp] theorem countPush_memory (n : Nat) : (countPush n s).memory = s.memory := rfl
@[simp] theorem countPush_env (n : Nat) : (countPush n s).env = s.env := rfl
@[simp] theorem countPush_turns (n : Nat) : (countPush n s).turns = s.turns := rfl
@[simp] theorem countPush_inputs (n : Nat) : (countPush n s).inputs = s.inputs := rfl
@[simp] theorem countPush_history (n : Nat) : (countPush n s).history = s.history := rfl
@[simp] theorem countPush_draws (n : Nat) : (countPush n s).draws = s.draws := rfl
@[simp] theorem countPush_grain (n : Nat) : (countPush n s).grain = s.grain := rfl
@[simp] theorem countPush_faults (n : Nat) : (countPush n s).faults = s.faults := rfl

/-! ### `setLifecycle` -/

@[simp] theorem setLifecycle_config (b : Bool) : (setLifecycle b s).config = s.config := rfl
@[simp] theorem setLifecycle_initialized (b : Bool) : (setLifecycle b s).initialized = b := rfl
@[simp] theorem setLifecycle_bankMode (b : Bool) : (setLifecycle b s).bankMode = s.bankMode := rfl
@[simp] theorem setLifecycle_phase (b : Bool) : (setLifecycle b s).phase = s.phase := rfl
@[simp] theorem setLifecycle_cmd (b : Bool) : (setLifecycle b s).cmd = s.cmd := rfl
@[simp] theorem setLifecycle_tmp (b : Bool) : (setLifecycle b s).tmp = s.tmp := rfl
@[simp] theorem setLifecycle_idx (b : Bool) : (setLifecycle b s).idx = s.idx := rfl
@[simp] theorem setLifecycle_presented (b : Bool) : (setLifecycle b s).presented = s.presented := rfl
@[simp] theorem setLifecycle_rsp (b : Bool) : (setLifecycle b s).rsp = s.rsp := rfl
@[simp] theorem setLifecycle_due (b : Bool) : (setLifecycle b s).due = s.due := rfl
@[simp] theorem setLifecycle_awaited (b : Bool) : (setLifecycle b s).awaited = s.awaited := rfl
@[simp] theorem setLifecycle_bus (b : Bool) : (setLifecycle b s).bus = s.bus := rfl
@[simp] theorem setLifecycle_memory (b : Bool) : (setLifecycle b s).memory = s.memory := rfl
@[simp] theorem setLifecycle_env (b : Bool) : (setLifecycle b s).env = s.env := rfl
@[simp] theorem setLifecycle_turns (b : Bool) : (setLifecycle b s).turns = s.turns := rfl
@[simp] theorem setLifecycle_inputs (b : Bool) : (setLifecycle b s).inputs = s.inputs := rfl
@[simp] theorem setLifecycle_history (b : Bool) : (setLifecycle b s).history = s.history := rfl
@[simp] theorem setLifecycle_draws (b : Bool) : (setLifecycle b s).draws = s.draws := rfl
@[simp] theorem setLifecycle_grain (b : Bool) : (setLifecycle b s).grain = s.grain := rfl
@[simp] theorem setLifecycle_faults (b : Bool) : (setLifecycle b s).faults = s.faults := rfl

/-! ### `advance` -/

@[simp] theorem advance_config : (advance s).config = s.config := rfl
@[simp] theorem advance_initialized : (advance s).initialized = s.initialized := rfl
@[simp] theorem advance_bankMode : (advance s).bankMode = s.bankMode := rfl
@[simp] theorem advance_phase : (advance s).phase = s.phase := rfl
@[simp] theorem advance_cmd : (advance s).cmd = s.cmd := rfl
@[simp] theorem advance_tmp : (advance s).tmp = s.tmp := rfl
@[simp] theorem advance_idx : (advance s).idx = s.idx := rfl
@[simp] theorem advance_presented : (advance s).presented = s.presented := rfl
@[simp] theorem advance_rsp : (advance s).rsp = s.rsp := rfl
@[simp] theorem advance_due : (advance s).due = s.due := rfl
@[simp] theorem advance_awaited : (advance s).awaited = s.awaited := rfl
@[simp] theorem advance_bus : (advance s).bus = s.bus := rfl
@[simp] theorem advance_memory : (advance s).memory = s.memory := rfl
@[simp] theorem advance_env : (advance s).env = s.env := rfl
@[simp] theorem advance_turns : (advance s).turns = s.turns := rfl
@[simp] theorem advance_inputs : (advance s).inputs = s.inputs := rfl
@[simp] theorem advance_history : (advance s).history = s.history := rfl
@[simp] theorem advance_draws : (advance s).draws = s.draws + 1 := rfl
@[simp] theorem advance_grain : (advance s).grain = s.grain := rfl
@[simp] theorem advance_faults : (advance s).faults = s.faults := rfl

/-! ### `takeInput` -/

@[simp] theorem takeInput_config (rest : List Input) : (takeInput rest s).config = s.config := rfl
@[simp] theorem takeInput_initialized (rest : List Input) : (takeInput rest s).initialized = s.initialized := rfl
@[simp] theorem takeInput_bankMode (rest : List Input) : (takeInput rest s).bankMode = s.bankMode := rfl
@[simp] theorem takeInput_phase (rest : List Input) : (takeInput rest s).phase = s.phase := rfl
@[simp] theorem takeInput_cmd (rest : List Input) : (takeInput rest s).cmd = s.cmd := rfl
@[simp] theorem takeInput_tmp (rest : List Input) : (takeInput rest s).tmp = s.tmp := rfl
@[simp] theorem takeInput_idx (rest : List Input) : (takeInput rest s).idx = s.idx := rfl
@[simp] theorem takeInput_presented (rest : List Input) : (takeInput rest s).presented = s.presented := rfl
@[simp] theorem takeInput_rsp (rest : List Input) : (takeInput rest s).rsp = s.rsp := rfl
@[simp] theorem takeInput_due (rest : List Input) : (takeInput rest s).due = s.due := rfl
@[simp] theorem takeInput_awaited (rest : List Input) : (takeInput rest s).awaited = s.awaited := rfl
@[simp] theorem takeInput_bus (rest : List Input) : (takeInput rest s).bus = s.bus := rfl
@[simp] theorem takeInput_memory (rest : List Input) : (takeInput rest s).memory = s.memory := rfl
@[simp] theorem takeInput_env (rest : List Input) : (takeInput rest s).env = s.env := rfl
@[simp] theorem takeInput_turns (rest : List Input) : (takeInput rest s).turns = s.turns := rfl
@[simp] theorem takeInput_inputs (rest : List Input) : (takeInput rest s).inputs = rest := rfl
@[simp] theorem takeInput_history (rest : List Input) : (takeInput rest s).history = s.history := rfl
@[simp] theorem takeInput_draws (rest : List Input) : (takeInput rest s).draws = s.draws := rfl
@[simp] theorem takeInput_grain (rest : List Input) : (takeInput rest s).grain = s.grain := rfl
@[simp] theorem takeInput_faults (rest : List Input) : (takeInput rest s).faults = s.faults := rfl

/-! ### `envWrites` -/

@[simp] theorem envWrites_config (a v : Byte) : (envWrites a v s).config = s.config := rfl
@[simp] theorem envWrites_initialized (a v : Byte) : (envWrites a v s).initialized = s.initialized := rfl
@[simp] theorem envWrites_bankMode (a v : Byte) : (envWrites a v s).bankMode = s.bankMode := rfl
@[simp] theorem envWrites_phase (a v : Byte) : (envWrites a v s).phase = s.phase := rfl
@[simp] theorem envWrites_cmd (a v : Byte) : (envWrites a v s).cmd = s.cmd := rfl
@[simp] theorem envWrites_tmp (a v : Byte) : (envWrites a v s).tmp = s.tmp := rfl
@[simp] theorem envWrites_idx (a v : Byte) : (envWrites a v s).idx = s.idx := rfl
@[simp] theorem envWrites_presented (a v : Byte) : (envWrites a v s).presented = s.presented := rfl
@[simp] theorem envWrites_rsp (a v : Byte) : (envWrites a v s).rsp = s.rsp := rfl
@[simp] theorem envWrites_due (a v : Byte) : (envWrites a v s).due = s.due := rfl
@[simp] theorem envWrites_awaited (a v : Byte) : (envWrites a v s).awaited = s.awaited := rfl
@[simp] theorem envWrites_bus (a v : Byte) : (envWrites a v s).bus = s.bus := rfl
@[simp] theorem envWrites_memory (a v : Byte) : (envWrites a v s).memory = Memory.write s.memory a v := rfl
@[simp] theorem envWrites_env (a v : Byte) : (envWrites a v s).env = s.env := rfl
@[simp] theorem envWrites_turns (a v : Byte) : (envWrites a v s).turns = s.turns := rfl
@[simp] theorem envWrites_inputs (a v : Byte) : (envWrites a v s).inputs = s.inputs := rfl
@[simp] theorem envWrites_history (a v : Byte) : (envWrites a v s).history = s.history := rfl
@[simp] theorem envWrites_draws (a v : Byte) : (envWrites a v s).draws = s.draws := rfl
@[simp] theorem envWrites_grain (a v : Byte) : (envWrites a v s).grain = s.grain := rfl
@[simp] theorem envWrites_faults (a v : Byte) : (envWrites a v s).faults = s.faults := rfl

/-! ### `hostPresents` -/

@[simp] theorem hostPresents_config (c : Command) : (hostPresents c s).config = s.config := rfl
@[simp] theorem hostPresents_initialized (c : Command) : (hostPresents c s).initialized = s.initialized := rfl
@[simp] theorem hostPresents_bankMode (c : Command) : (hostPresents c s).bankMode = s.bankMode := rfl
@[simp] theorem hostPresents_phase (c : Command) : (hostPresents c s).phase = s.phase := rfl
@[simp] theorem hostPresents_cmd (c : Command) : (hostPresents c s).cmd = s.cmd := rfl
@[simp] theorem hostPresents_tmp (c : Command) : (hostPresents c s).tmp = s.tmp := rfl
@[simp] theorem hostPresents_idx (c : Command) : (hostPresents c s).idx = s.idx := rfl
@[simp] theorem hostPresents_presented (c : Command) : (hostPresents c s).presented = some c := rfl
@[simp] theorem hostPresents_rsp (c : Command) : (hostPresents c s).rsp = s.rsp := rfl
@[simp] theorem hostPresents_due (c : Command) : (hostPresents c s).due = s.due := rfl
@[simp] theorem hostPresents_awaited (c : Command) : (hostPresents c s).awaited = true := rfl
@[simp] theorem hostPresents_bus (c : Command) : (hostPresents c s).bus = s.bus := rfl
@[simp] theorem hostPresents_memory (c : Command) : (hostPresents c s).memory = s.memory := rfl
@[simp] theorem hostPresents_env (c : Command) : (hostPresents c s).env = s.env := rfl
@[simp] theorem hostPresents_turns (c : Command) : (hostPresents c s).turns = s.turns := rfl
@[simp] theorem hostPresents_inputs (c : Command) : (hostPresents c s).inputs = s.inputs := rfl
@[simp] theorem hostPresents_history (c : Command) : (hostPresents c s).history = s.history := rfl
@[simp] theorem hostPresents_draws (c : Command) : (hostPresents c s).draws = s.draws := rfl
@[simp] theorem hostPresents_grain (c : Command) : (hostPresents c s).grain = s.grain := rfl
@[simp] theorem hostPresents_faults (c : Command) : (hostPresents c s).faults = s.faults := rfl

/-! ### `takePresented` -/

@[simp] theorem takePresented_config : (takePresented s).config = s.config := rfl
@[simp] theorem takePresented_initialized : (takePresented s).initialized = s.initialized := rfl
@[simp] theorem takePresented_bankMode : (takePresented s).bankMode = s.bankMode := rfl
@[simp] theorem takePresented_phase : (takePresented s).phase = s.phase := rfl
@[simp] theorem takePresented_cmd : (takePresented s).cmd = s.cmd := rfl
@[simp] theorem takePresented_tmp : (takePresented s).tmp = s.tmp := rfl
@[simp] theorem takePresented_idx : (takePresented s).idx = s.idx := rfl
@[simp] theorem takePresented_presented : (takePresented s).presented = none := rfl
@[simp] theorem takePresented_rsp : (takePresented s).rsp = s.rsp := rfl
@[simp] theorem takePresented_due : (takePresented s).due = s.due := rfl
@[simp] theorem takePresented_awaited : (takePresented s).awaited = s.awaited := rfl
@[simp] theorem takePresented_bus : (takePresented s).bus = s.bus := rfl
@[simp] theorem takePresented_memory : (takePresented s).memory = s.memory := rfl
@[simp] theorem takePresented_env : (takePresented s).env = s.env := rfl
@[simp] theorem takePresented_turns : (takePresented s).turns = s.turns := rfl
@[simp] theorem takePresented_inputs : (takePresented s).inputs = s.inputs := rfl
@[simp] theorem takePresented_history : (takePresented s).history = s.history := rfl
@[simp] theorem takePresented_draws : (takePresented s).draws = s.draws := rfl
@[simp] theorem takePresented_grain : (takePresented s).grain = s.grain := rfl
@[simp] theorem takePresented_faults : (takePresented s).faults = s.faults := rfl

/-! ### `giveMove` -/

@[simp] theorem giveMove_config (g : Grain) (rest : List Input) : (giveMove g rest s).config = s.config := rfl
@[simp] theorem giveMove_initialized (g : Grain) (rest : List Input) : (giveMove g rest s).initialized = s.initialized := rfl
@[simp] theorem giveMove_bankMode (g : Grain) (rest : List Input) : (giveMove g rest s).bankMode = s.bankMode := rfl
@[simp] theorem giveMove_phase (g : Grain) (rest : List Input) : (giveMove g rest s).phase = s.phase := rfl
@[simp] theorem giveMove_cmd (g : Grain) (rest : List Input) : (giveMove g rest s).cmd = s.cmd := rfl
@[simp] theorem giveMove_tmp (g : Grain) (rest : List Input) : (giveMove g rest s).tmp = s.tmp := rfl
@[simp] theorem giveMove_idx (g : Grain) (rest : List Input) : (giveMove g rest s).idx = s.idx := rfl
@[simp] theorem giveMove_presented (g : Grain) (rest : List Input) : (giveMove g rest s).presented = s.presented := rfl
@[simp] theorem giveMove_rsp (g : Grain) (rest : List Input) : (giveMove g rest s).rsp = s.rsp := rfl
@[simp] theorem giveMove_due (g : Grain) (rest : List Input) : (giveMove g rest s).due = s.due := rfl
@[simp] theorem giveMove_awaited (g : Grain) (rest : List Input) : (giveMove g rest s).awaited = s.awaited := rfl
@[simp] theorem giveMove_bus (g : Grain) (rest : List Input) : (giveMove g rest s).bus = s.bus := rfl
@[simp] theorem giveMove_memory (g : Grain) (rest : List Input) : (giveMove g rest s).memory = s.memory := rfl
@[simp] theorem giveMove_env (g : Grain) (rest : List Input) : (giveMove g rest s).env = s.env := rfl
@[simp] theorem giveMove_turns (g : Grain) (rest : List Input) : (giveMove g rest s).turns = s.turns := rfl
@[simp] theorem giveMove_inputs (g : Grain) (rest : List Input) : (giveMove g rest s).inputs = rest := rfl
@[simp] theorem giveMove_history (g : Grain) (rest : List Input) : (giveMove g rest s).history = s.history := rfl
@[simp] theorem giveMove_draws (g : Grain) (rest : List Input) : (giveMove g rest s).draws = s.draws := rfl
@[simp] theorem giveMove_grain (g : Grain) (rest : List Input) : (giveMove g rest s).grain = g := rfl
@[simp] theorem giveMove_faults (g : Grain) (rest : List Input) : (giveMove g rest s).faults = s.faults := rfl

/-! ### `clearRegisters` -/

@[simp] theorem clearRegisters_config : (clearRegisters s).config = s.config := rfl
@[simp] theorem clearRegisters_initialized : (clearRegisters s).initialized = false := rfl
@[simp] theorem clearRegisters_bankMode : (clearRegisters s).bankMode = none := rfl
@[simp] theorem clearRegisters_phase : (clearRegisters s).phase = .idle := rfl
@[simp] theorem clearRegisters_cmd : (clearRegisters s).cmd = none := rfl
@[simp] theorem clearRegisters_tmp : (clearRegisters s).tmp = none := rfl
@[simp] theorem clearRegisters_idx : (clearRegisters s).idx = none := rfl
@[simp] theorem clearRegisters_presented : (clearRegisters s).presented = none := rfl
@[simp] theorem clearRegisters_rsp : (clearRegisters s).rsp = none := rfl
@[simp] theorem clearRegisters_due : (clearRegisters s).due = none := rfl
@[simp] theorem clearRegisters_awaited : (clearRegisters s).awaited = s.awaited := rfl
@[simp] theorem clearRegisters_bus : (clearRegisters s).bus = none := rfl
@[simp] theorem clearRegisters_memory : (clearRegisters s).memory = s.memory := rfl
@[simp] theorem clearRegisters_env : (clearRegisters s).env = s.env := rfl
@[simp] theorem clearRegisters_turns : (clearRegisters s).turns = (match s.bus with
      | some _ => dropHang s.turns
      | none => s.turns) := rfl
@[simp] theorem clearRegisters_inputs : (clearRegisters s).inputs = s.inputs := rfl
@[simp] theorem clearRegisters_history : (clearRegisters s).history = s.history := rfl
@[simp] theorem clearRegisters_draws : (clearRegisters s).draws = s.draws := rfl
@[simp] theorem clearRegisters_grain : (clearRegisters s).grain = s.grain := rfl
@[simp] theorem clearRegisters_faults : (clearRegisters s).faults = s.faults := rfl

end Fields

/-! ### `respond`, by the grain -/

/-- At the grain of commands the response is delivered with the end of the command. -/
theorem respond_command {v : Byte} {st : Status} {s : State} (h : s.grain = .command) :
    respond v st s = { s with
      phase := .idle, cmd := none, tmp := none, idx := none, rsp := some ⟨v, st⟩, due := none, awaited := false } := by
  simp [respond, h]

/-- At the grain of events the response is due. -/
theorem respond_event {v : Byte} {st : Status} {s : State} (h : s.grain = .event) :
    respond v st s = { s with phase := .idle, cmd := none, tmp := none, idx := none, due := some ⟨v, st⟩ } := by
  simp [respond, h]

/-- HOST waits on, or the response is delivered (R9). -/
theorem respond_awaits (v : Byte) (st : Status) (s : State) : (respond v st s).awaited = s.awaited ∨
    ((respond v st s).phase = .idle ∧ (respond v st s).due = none ∧ (respond v st s).awaited = false) := by
  cases h : s.grain
  · exact .inl (by rw [respond_event h])
  · exact .inr (by rw [respond_command h]; exact ⟨rfl, rfl, rfl⟩)

/-! ### Reading a register that may hold no value -/

theorem modeOf_some {m : BankMode} {s : State} (h : s.bankMode = some m) : modeOf s = m := by simp [modeOf, h]
theorem noteMode_some {m : BankMode} {s : State} (h : s.bankMode = some m) : noteMode s = s := by simp [noteMode, h]
theorem noteMode_none {s : State} (h : s.bankMode = none) : noteMode s = recordFault .bankMode s := by simp [noteMode, h]
theorem modeOf_congr {s t : State} (hm : t.bankMode = s.bankMode) (hf : t.faults = s.faults) : modeOf t = modeOf s := by
  simp [modeOf, hm, hf]

theorem tmpOf_some {x : Byte} {s : State} (h : s.tmp = some x) : tmpOf s = x := by simp [tmpOf, h]
theorem noteTmp_some {x : Byte} {s : State} (h : s.tmp = some x) : noteTmp s = s := by simp [noteTmp, h]
theorem idxOf_some {n : Fin 14} {s : State} (h : s.idx = some n) : idxOf s = n := by simp [idxOf, h]
theorem noteIdx_some {n : Fin 14} {s : State} (h : s.idx = some n) : noteIdx s = s := by simp [noteIdx, h]
theorem commandOf_some {c : Command} {s : State} (h : s.cmd = some c) : commandOf s = c := by simp [commandOf, h]
theorem noteCmd_some {c : Command} {s : State} (h : s.cmd = some c) : noteCmd s = s := by simp [noteCmd, h]

/-- Reading the bank mode writes no register. -/
theorem noteMode_eq (s : State) : noteMode s = { s with faults := (noteMode s).faults } := by
  unfold noteMode; split <;> rfl

/-- Once read, a transient register holds what it was read as. -/
theorem noteTmp_eq (s : State) : noteTmp s = { s with tmp := some (tmpOf s), faults := (noteTmp s).faults } := by
  unfold noteTmp
  split
  · rename_i h; rw [tmpOf_some h, ← h]
  · rfl

theorem noteIdx_eq (s : State) : noteIdx s = { s with idx := some (idxOf s), faults := (noteIdx s).faults } := by
  unfold noteIdx
  split
  · rename_i h; rw [idxOf_some h, ← h]
  · rfl

theorem noteCmd_eq (s : State) : noteCmd s = { s with cmd := some (commandOf s), faults := (noteCmd s).faults } := by
  unfold noteCmd
  split
  · rename_i h; rw [commandOf_some h, ← h]
  · rfl

/-- A recorded fault stays recorded. -/
theorem note_faults (s : State) : s.faults <+: (noteMode s).faults ∧ s.faults <+: (noteTmp s).faults ∧
    s.faults <+: (noteIdx s).faults ∧ s.faults <+: (noteCmd s).faults := by
  refine ⟨?_, ?_, ?_, ?_⟩
  · cases h : s.bankMode <;> simp [noteMode, h]
  · cases h : s.tmp <;> simp [noteTmp, h]
  · cases h : s.idx <;> simp [noteIdx, h]
  · cases h : s.cmd <;> simp [noteCmd, h]

@[simp] theorem endInError_eq (st : Status) (s : State) : endInError st s = respond 0x00 st s := rfl

end Sys2Proof.Machine
end

