-- ==== Sys2Proof/Laws/Decode.lean ====
section
/-! SUPPORT. The fields of a word made from fields, a word as its fields, and the configuration block unpacked. -/

namespace Sys2Proof

section Fields
variable (op : BitVec 4) (port : BitVec 1) (sel data : Byte)

@[simp] theorem CommandWord.op_ofFields : CommandWord.op (CommandWord.ofFields op port sel data) = op := by
  unfold CommandWord.op CommandWord.ofFields
  ext i hi
  interval_cases i <;> simp

@[simp] theorem CommandWord.port_ofFields : CommandWord.port (CommandWord.ofFields op port sel data) = port := by
  unfold CommandWord.port CommandWord.ofFields
  ext i hi
  interval_cases i
  simp

@[simp] theorem CommandWord.rsv_ofFields : CommandWord.rsv (CommandWord.ofFields op port sel data) = 0 := by
  unfold CommandWord.rsv CommandWord.ofFields
  ext i hi
  interval_cases i <;> simp

@[simp] theorem CommandWord.sel_ofFields : CommandWord.sel (CommandWord.ofFields op port sel data) = sel := by
  unfold CommandWord.sel CommandWord.ofFields
  ext i hi
  interval_cases i <;> simp

@[simp] theorem CommandWord.data_ofFields : CommandWord.data (CommandWord.ofFields op port sel data) = data := by
  unfold CommandWord.data CommandWord.ofFields
  ext i hi
  interval_cases i <;> simp

end Fields

/-- A word whose reserved bits are 0 is made of its four other fields. -/
theorem CommandWord.ofFields_fields (w : CommandWord) (h : CommandWord.rsv w = 0) :
    CommandWord.ofFields (CommandWord.op w) (CommandWord.port w) (CommandWord.sel w) (CommandWord.data w) = w := by
  have hb : ∀ k, k < 3 → w.getLsbD (16 + k) = false := fun k hk => by
    have := congrArg (fun v => BitVec.getLsbD v k) h
    simpa [CommandWord.rsv, hk] using this
  have h0 := hb 0 (by omega)
  have h1 := hb 1 (by omega)
  have h2 := hb 2 (by omega)
  apply BitVec.eq_of_getLsbD_eq
  intro i hi
  unfold CommandWord.ofFields CommandWord.op CommandWord.port CommandWord.sel CommandWord.data
  interval_cases i <;> simp_all

@[simp] theorem Port.ofCode_code (p : Port) : Port.ofCode p.code = p := by cases p <;> rfl

@[simp] theorem BankMode.ofCode_code (m : BankMode) : BankMode.ofCode m.code = m := by cases m <;> rfl

theorem RegKind.ofCode_code (k : RegKind) : RegKind.ofCode k.code.toNat = some k := by cases k <;> rfl

@[simp] theorem PortConfig.unpack_pack (c : PortConfig) : PortConfig.unpack c.pack = c := by
  cases c
  unfold PortConfig.unpack PortConfig.pack
  congr 1 <;> (ext i hi; interval_cases i <;> simp)

theorem ConfigBlock.low_ofConfigs (a b : PortConfig) : (ConfigBlock.ofConfigs a b).extractLsb' 0 56 = a.pack := by
  unfold ConfigBlock.ofConfigs
  apply BitVec.eq_of_getLsbD_eq
  intro i hi
  have h1 : i < 112 := by omega
  simp [hi, h1]

theorem ConfigBlock.high_ofConfigs (a b : PortConfig) : (ConfigBlock.ofConfigs a b).extractLsb' 56 56 = b.pack := by
  unfold ConfigBlock.ofConfigs
  apply BitVec.eq_of_getLsbD_eq
  intro i hi
  have h1 : 56 + i < 112 := by omega
  simp [hi, h1]

@[simp] theorem ConfigBlock.portA_ofConfigs (a b : PortConfig) : ConfigBlock.portA (ConfigBlock.ofConfigs a b) = a := by
  rw [ConfigBlock.portA, ConfigBlock.low_ofConfigs, PortConfig.unpack_pack]

@[simp] theorem ConfigBlock.portB_ofConfigs (a b : PortConfig) : ConfigBlock.portB (ConfigBlock.ofConfigs a b) = b := by
  rw [ConfigBlock.portB, ConfigBlock.high_ofConfigs, PortConfig.unpack_pack]

end Sys2Proof
end

