-- ==== Sys2Proof/Laws/Memory.lean ====
section
/-! SUPPORT. The register space: a read after a write, a write elsewhere, and the canonical form kept by every operation. -/

namespace Sys2Proof.Machine

theorem Memory.lookup_store_same (m : Memory) (a : Nat) (v : Byte) (h : Memory.wf m) :
    Memory.lookup (Memory.store m a v) a = v := by
  induction m with
  | nil => by_cases hv : v = Memory.unlisted <;> simp [Memory.store, Memory.lookup, hv]
  | cons c rest ih =>
    obtain ⟨k, w⟩ := c
    obtain ⟨hp, hc⟩ := h
    rw [List.pairwise_cons] at hp
    have hrest : Memory.wf rest := ⟨hp.2, fun c hc' => hc c (List.mem_cons_of_mem _ hc')⟩
    have absent : ∀ (l : Memory), (∀ c ∈ l, a < c.1) → Memory.lookup l a = Memory.unlisted := by
      intro l hl
      induction l with
      | nil => rfl
      | cons d l' ihl =>
        obtain ⟨k', w'⟩ := d
        have := hl (k', w') (List.mem_cons_self ..)
        simp only [Memory.lookup]
        rw [if_neg (by simp only at this; omega)]
        exact ihl fun c hc' => hl c (List.mem_cons_of_mem _ hc')
    have low : a ≤ k → ∀ c ∈ rest, a < c.1 := fun hak c hc' => by
      have := hp.1 c hc'
      simp only at this
      omega
    simp only [Memory.store]
    by_cases h1 : a < k
    · by_cases hv : v = Memory.unlisted
      · simp only [h1, hv, if_true, Memory.lookup]
        rw [if_neg (by omega)]
        exact absent rest (low (by omega))
      · simp [h1, hv, Memory.lookup]
    · by_cases h2 : a = k
      · by_cases hv : v = Memory.unlisted
        · subst h2
          simp only [lt_irrefl, hv, if_true, if_false]
          exact absent rest (low le_rfl)
        · simp [h2, hv, Memory.lookup]
      · rw [if_neg h1, if_neg h2]
        simp only [Memory.lookup]
        rw [if_neg (by omega)]
        exact ih hrest

theorem Memory.lookup_store_other (m : Memory) (a b : Nat) (v : Byte) (hab : b ≠ a) (h : Memory.wf m) :
    Memory.lookup (Memory.store m a v) b = Memory.lookup m b := by
  induction m with
  | nil => by_cases hv : v = Memory.unlisted <;> simp [Memory.store, Memory.lookup, hv]; omega
  | cons c rest ih =>
    obtain ⟨k, w⟩ := c
    have hrest : Memory.wf rest := ⟨(List.pairwise_cons.mp h.1).2, fun c hc' => h.2 c (List.mem_cons_of_mem _ hc')⟩
    simp only [Memory.store]
    by_cases h1 : a < k
    · by_cases hv : v = Memory.unlisted
      · simp [h1, hv]
      · simp only [h1, hv, if_true, if_false]
        conv_lhs => rw [Memory.lookup]
        rw [if_neg (by omega)]
    · by_cases h2 : a = k
      · by_cases hv : v = Memory.unlisted
        · subst h2
          simp only [lt_irrefl, hv, if_true, if_false, Memory.lookup]
          rw [if_neg (by omega)]
        · subst h2
          simp only [lt_irrefl, hv, if_false, if_true, Memory.lookup]
          rw [if_neg (by omega), if_neg (by omega)]
      · rw [if_neg h1, if_neg h2]
        simp only [Memory.lookup]
        rw [ih hrest]

/-- The keys of a stored list are those of the list and the key stored to. -/
theorem Memory.mem_store {m : Memory} {a : Nat} {v : Byte} {c : Host.Cell} (hc : c ∈ Memory.store m a v) :
    c ∈ m ∨ (c = (a, v) ∧ v ≠ Memory.unlisted) := by
  induction m with
  | nil =>
    by_cases hv : v = Memory.unlisted <;> simp [Memory.store, hv] at hc
    exact .inr ⟨hc, hv⟩
  | cons d rest ih =>
    obtain ⟨k, w⟩ := d
    simp only [Memory.store] at hc
    split at hc
    · split at hc
      · exact .inl hc
      · rename_i hv
        rcases List.mem_cons.mp hc with rfl | hc
        · exact .inr ⟨rfl, hv⟩
        · exact .inl hc
    · split at hc
      · split at hc
        · exact .inl (List.mem_cons_of_mem _ hc)
        · rename_i hv
          rcases List.mem_cons.mp hc with rfl | hc
          · exact .inr ⟨rfl, hv⟩
          · exact .inl (List.mem_cons_of_mem _ hc)
      · rcases List.mem_cons.mp hc with rfl | hc
        · exact .inl (List.mem_cons_self ..)
        · exact (ih hc).imp_left (List.mem_cons_of_mem _)

theorem Memory.store_wf (m : Memory) (a : Nat) (v : Byte) (ha : a < 256) (h : Memory.wf m) :
    Memory.wf (Memory.store m a v) := by
  refine ⟨?_, fun c hc => ?_⟩
  · induction m with
    | nil => by_cases hv : v = Memory.unlisted <;> simp [Memory.store, hv]
    | cons d rest ih =>
      obtain ⟨k, w⟩ := d
      obtain ⟨hp, hcells⟩ := h
      have hp' := List.pairwise_cons.mp hp
      have hrest : Memory.wf rest := ⟨hp'.2, fun c hc' => hcells c (List.mem_cons_of_mem _ hc')⟩
      simp only [Memory.store]
      split
      · rename_i hak
        split
        · exact hp
        · refine List.pairwise_cons.mpr ⟨fun c hc => ?_, hp⟩
          rcases List.mem_cons.mp hc with rfl | hc
          · exact hak
          · have := hp'.1 c hc
            simp only at this ⊢
            omega
      · rename_i hak
        split
        · rename_i heq
          split
          · exact hp'.2
          · exact List.pairwise_cons.mpr ⟨fun c hc => by have := hp'.1 c hc; simp only at this ⊢; omega, hp'.2⟩
        · rename_i hne
          refine List.pairwise_cons.mpr ⟨fun c hc => ?_, ih hrest⟩
          rcases Memory.mem_store hc with hc | ⟨rfl, -⟩
          · exact hp'.1 c hc
          · simp only
            omega
  · rcases Memory.mem_store hc with hc | ⟨rfl, hv⟩
    · exact h.2 c hc
    · exact ⟨ha, hv⟩

/-- A read after a write to the same address gives the byte written. -/
theorem Memory.read_write_same (m : Memory) (a v : Byte) (h : Memory.wf m) : Memory.read (Memory.write m a v) a = v :=
  Memory.lookup_store_same m a.toNat v h

/-- A write leaves every other address as it was. -/
theorem Memory.read_write_other (m : Memory) (a b v : Byte) (hab : b ≠ a) (h : Memory.wf m) :
    Memory.read (Memory.write m a v) b = Memory.read m b :=
  Memory.lookup_store_other m a.toNat b.toNat v (fun he => hab (BitVec.eq_of_toNat_eq he)) h

/-- A write keeps the canonical form. -/
theorem Memory.write_wf (m : Memory) (a v : Byte) (h : Memory.wf m) : Memory.wf (Memory.write m a v) :=
  Memory.store_wf m a.toNat v a.isLt h

/-- ENV's own changes keep the canonical form. -/
theorem pokeAll_wf (l : List (Byte × Byte)) (m : Memory) (h : Memory.wf m) : Memory.wf (pokeAll l m) := by
  induction l generalizing m with
  | nil => exact h
  | cons c rest ih => exact ih _ (Memory.write_wf m c.1 c.2 h)

/-- An address ENV does not change reads as before. -/
theorem read_pokeAll_other (l : List (Byte × Byte)) (m : Memory) (x : Byte) (hx : ∀ pk ∈ l, pk.1 ≠ x)
    (h : Memory.wf m) : Memory.read (pokeAll l m) x = Memory.read m x := by
  induction l generalizing m with
  | nil => rfl
  | cons c rest ih =>
    have h1 := ih (Memory.write m c.1 c.2) (fun pk hpk => hx pk (List.mem_cons_of_mem _ hpk)) (Memory.write_wf m c.1 c.2 h)
    rw [show pokeAll (c :: rest) m = pokeAll rest (Memory.write m c.1 c.2) from rfl, h1]
    exact Memory.read_write_other m c.1 x c.2 (Ne.symm (hx c (List.mem_cons_self ..))) h

/-- The register space right after reset has the canonical form. -/
theorem reset_memory_wf : Memory.wf State.reset.memory := ⟨.nil, by simp [State.reset]⟩

end Sys2Proof.Machine
end

