-- ==== Sys2Proof/Laws/Transport.lean ====
section
/-! SUPPORT. The transport: what ENV's turn leaves, and everything one read or one write transaction can do. -/

namespace Sys2Proof.Machine

/-! ### ENV's turn -/

/-- ENV's turn changes the register space and the turns to come, and nothing else. -/
theorem takeTurn_frame (s : State) :
    (takeTurn s).2 = { s with memory := (takeTurn s).2.memory, turns := (takeTurn s).2.turns } := by
  unfold takeTurn
  cases h : s.turns with
  | nil => cases s; simp_all
  | cons t rest => rfl

theorem takeTurn_memory (s : State) : (takeTurn s).2.memory = spaceAt 0 s := by
  unfold takeTurn
  cases h : s.turns <;> simp [spaceAt, pokesAt, h, pokeAll]

theorem takeTurn_hold (ph : Phase) (r : BusRequest) (s : State) :
    takeTurn (hold ph r s) = ((takeTurn s).1, hold ph r (takeTurn s).2) := by
  unfold takeTurn
  cases h : s.turns <;> simp [h, hold]

theorem takeTurn_accept (c : Command) (s : State) :
    takeTurn (accept c s) = ((takeTurn s).1, accept c (takeTurn s).2) := by
  unfold takeTurn
  cases h : s.turns <;> simp [h, accept]

theorem takeTurn_of_nil {s : State} (h : s.turns = []) : takeTurn s = (.ok, s) := by simp [takeTurn, h]

theorem takeTurn_of_cons {s : State} {t : BusTurn} {rest : List BusTurn} (h : s.turns = t :: rest)
    (hc : t.completion ≠ .never) :
    takeTurn s = (t.completion, { s with memory := pokeAll t.pokes s.memory, turns := rest }) := by
  simp [takeTurn, h, hc]

/-- A turn at which the transport hangs stays for every later attempt. -/
theorem takeTurn_of_hung {s : State} {rest : List BusTurn} (h : s.turns = ⟨[], .never⟩ :: rest) :
    takeTurn s = (.never, s) := by
  cases s
  simp only at h
  simp [takeTurn, h, pokeAll]

/-- If ENV completes the next transaction, its turn is `ok` and the later ones come next. -/
theorem takeTurn_completes {n : Nat} {s : State} (h : Completes (n + 1) s) :
    (takeTurn s).1 = .ok ∧ (takeTurn s).2.turns = s.turns.tail ∧ Completes n (takeTurn s).2 := by
  cases ht : s.turns with
  | nil => simp [takeTurn_of_nil ht, ht, Completes]
  | cons t rest =>
    have hok : t.completion = .ok := h t (by simp [ht])
    rw [takeTurn_of_cons ht (by simp [hok])]
    exact ⟨hok, rfl, fun u hu => h u (by rw [ht]; simpa using .inr hu)⟩

/-- The register space at the coming turn, counted from after an earlier turn. -/
theorem spaceAt_succ {n : Nat} {s : State} (h : (takeTurn s).2.turns = s.turns.tail) :
    spaceAt n (takeTurn s).2 = spaceAt (n + 1) s := by
  have hp : ∀ k, pokesAt k (takeTurn s).2 = pokesAt (k + 1) s := by
    intro k
    unfold pokesAt
    rw [h]
    cases s.turns <;> simp
  induction n with
  | zero => simp [spaceAt, hp, takeTurn_memory]
  | succ n ih => rw [spaceAt, ih, hp]; rfl

/-- ENV's turn keeps the canonical form of the register space. -/
theorem takeTurn_memory_wf {s : State} (h : Memory.wf s.memory) : Memory.wf (takeTurn s).2.memory := by
  rw [takeTurn_memory]
  exact pokeAll_wf _ _ h

/-- An address ENV does not change on its own reads as before its turn, and stays untouched. -/
theorem takeTurn_untouched {x : Byte} {s : State} (h : Untouched x s) (hw : Memory.wf s.memory) :
    Memory.read (takeTurn s).2.memory x = Memory.read s.memory x ∧ Untouched x (takeTurn s).2 := by
  cases ht : s.turns with
  | nil => rw [takeTurn_of_nil ht]; exact ⟨rfl, h⟩
  | cons t rest =>
    have hx : ∀ pk ∈ t.pokes, pk.1 ≠ x := fun pk hpk => h t (by simp [ht]) pk hpk
    refine ⟨by simp only [takeTurn, ht]; exact read_pokeAll_other _ _ _ hx hw, ?_⟩
    intro u hu
    simp only [takeTurn, ht] at hu
    split at hu
    · rcases List.mem_cons.mp hu with rfl | hu
      · simp
      · exact h u (by simp [ht, hu])
    · exact h u (by simp [ht, hu])

/-! ### What the environment answers and absorbs -/

theorem answer_frame (a : Byte) (s : State) : (answer a s).2 = { s with draws := (answer a s).2.draws } := by
  unfold answer
  cases h : s.env <;> simp [advance, h.symm]

theorem answer_reference {a : Byte} {s : State} (h : s.env = .reference) :
    (answer a s).1 = Memory.read s.memory a := by simp [answer, h]

theorem absorb_frame (a v : Byte) (s : State) : absorb a v s = { s with memory := (absorb a v s).memory } := by
  unfold absorb
  cases h : s.env <;> simp [h.symm]

theorem absorb_memory_reference {a v : Byte} {s : State} (h : s.env = .reference) :
    (absorb a v s).memory = Memory.write s.memory a v := by simp [absorb, h]

theorem absorb_memory_general {a v : Byte} {s : State} (h : s.env = .general) :
    (absorb a v s).memory = s.memory := by simp [absorb, h]

theorem absorb_memory_cases (a v : Byte) (s : State) :
    (absorb a v s).memory = s.memory ∨ (absorb a v s).memory = Memory.write s.memory a v := by
  cases h : s.env
  · exact .inl (absorb_memory_general h)
  · exact .inr (absorb_memory_reference h)

/-! ### One read -/

/-- A read whose turn is `ok`. -/
theorem readByte_ok {a : Byte} {s : State} (h : (takeTurn s).1 = .ok) :
    readByte a s = .done (answer a (hold .rdPend (.read a) (takeTurn s).2)).1 { s with
        phase := .rdPend
        bus := none
        memory := (takeTurn s).2.memory
        turns := (takeTurn s).2.turns
        history := s.history ++ [.read a (answer a (hold .rdPend (.read a) (takeTurn s).2)).1]
        draws := (answer a (hold .rdPend (.read a) (takeTurn s).2)).2.draws } := by
  have hf := takeTurn_frame s
  unfold readByte
  rw [takeTurn_hold, h]
  simp only
  rw [answer_frame]
  congr 1
  rw [hf]
  rfl

/-- A completed read. -/
theorem readByte_completes {n : Nat} {a : Byte} {s : State} (h : Completes (n + 1) s) :
    ∃ v d, readByte a s = .done v { s with
        phase := .rdPend
        bus := none
        memory := spaceAt 0 s
        turns := s.turns.tail
        history := s.history ++ [.read a v]
        draws := d } ∧
      (s.env = .reference → v = Memory.read (spaceAt 0 s) a) := by
  obtain ⟨h1, h2, -⟩ := takeTurn_completes h
  refine ⟨_, _, by rw [readByte_ok h1, takeTurn_memory, h2], fun he => ?_⟩
  rw [answer_reference (by rw [hold_env, takeTurn_frame]; exact he), hold_memory, takeTurn_memory]

/-- Everything one read can do: it is done, the block has seen it fail, or it is still outstanding. -/
theorem readByte_cases (a : Byte) (s : State) :
    (∃ v d, readByte a s = .done v { s with
        phase := .rdPend
        bus := none
        memory := (takeTurn s).2.memory
        turns := (takeTurn s).2.turns
        history := s.history ++ [.read a v]
        draws := d }) ∨
    (s.config.transportErrors = true ∧ readByte a s = .failed { s with
        phase := .rdPend
        bus := none
        memory := (takeTurn s).2.memory
        turns := (takeTurn s).2.turns
        history := s.history ++ [.readFailed a] }) ∨
    readByte a s = .waiting { s with
        phase := .rdPend
        bus := some (.read a)
        memory := (takeTurn s).2.memory
        turns := (takeTurn s).2.turns } := by
  have hf := takeTurn_frame s
  have hc : (takeTurn s).2.config = s.config := by rw [hf]
  cases h1 : (takeTurn s).1 with
  | ok => exact .inl ⟨_, _, readByte_ok h1⟩
  | busErr took =>
    unfold readByte
    rw [takeTurn_hold, h1]
    by_cases ht : s.config.transportErrors = true
    · refine .inr (.inl ⟨ht, ?_⟩)
      simp only [hold_config, hc, ht, if_true]
      rw [hf]
      rfl
    · refine .inl ⟨freeByte a (hold .rdPend (.read a) (takeTurn s).2), s.draws + 1, ?_⟩
      simp only [hold_config, hc, ht]
      rw [hf]
      rfl
  | late => exact .inr (.inr (by unfold readByte; rw [takeTurn_hold, h1]; simp only; rw [hf]; rfl))
  | never => exact .inr (.inr (by unfold readByte; rw [takeTurn_hold, h1]; simp only; rw [hf]; rfl))

/-! ### One write -/

/-- The register space after a write that reached it: changed in the reference environment only. -/
def spaceAfterWrite (e : Environment) (m : Memory) (a v : Byte) : Memory :=
  match e with
  | .general => m
  | .reference => Memory.write m a v

theorem absorb_eq (a v : Byte) (s : State) :
    absorb a v s = { s with memory := spaceAfterWrite s.env s.memory a v } := by
  unfold absorb spaceAfterWrite
  cases h : s.env <;> simp [h.symm]

theorem spaceAfterWrite_wf (e : Environment) {m : Memory} (a v : Byte) (h : Memory.wf m) :
    Memory.wf (spaceAfterWrite e m a v) := by
  cases e
  · exact h
  · exact Memory.write_wf m a v h

theorem spaceAfterWrite_other (e : Environment) {m : Memory} {a x : Byte} (v : Byte) (hx : x ≠ a) (h : Memory.wf m) :
    Memory.read (spaceAfterWrite e m a v) x = Memory.read m x := by
  cases e
  · rfl
  · exact Memory.read_write_other m a x v hx h

/-- A completed write. -/
theorem writeByte_completes {n : Nat} {ph : Phase} {a v : Byte} {s : State} (h : Completes (n + 1) s) :
    writeByte ph a v s = .done () { s with
        phase := ph
        bus := none
        memory := spaceAfterWrite s.env (spaceAt 0 s) a v
        turns := s.turns.tail
        history := s.history ++ [.write a v] } := by
  obtain ⟨h1, h2, -⟩ := takeTurn_completes h
  have hf := takeTurn_frame s
  rw [takeTurn_memory, h2] at hf
  unfold writeByte
  rw [takeTurn_hold, h1]
  simp only
  rw [absorb_eq, hf]
  rfl

/-- Everything one write can do. A write that is not outstanding has left the register space as ENV's turn left it, or
with the byte stored at its address. -/
theorem writeByte_cases (ph : Phase) (a v : Byte) (s : State) :
    (∃ m, (m = (takeTurn s).2.memory ∨ m = spaceAfterWrite s.env (takeTurn s).2.memory a v) ∧
      writeByte ph a v s = .done () { s with
        phase := ph
        bus := none
        memory := m
        turns := (takeTurn s).2.turns
        history := s.history ++ [.write a v] }) ∨
    (s.config.transportErrors = true ∧
      ∃ m, (m = (takeTurn s).2.memory ∨ m = spaceAfterWrite s.env (takeTurn s).2.memory a v) ∧
      writeByte ph a v s = .failed { s with
        phase := ph
        bus := none
        memory := m
        turns := (takeTurn s).2.turns
        history := s.history ++ [.writeFailed a v] }) ∨
    writeByte ph a v s = .waiting { s with
        phase := ph
        bus := some (.write a v)
        memory := (takeTurn s).2.memory
        turns := (takeTurn s).2.turns } := by
  have hf := takeTurn_frame s
  have hc : (takeTurn s).2.config = s.config := by rw [hf]
  have he : (takeTurn s).2.env = s.env := by rw [hf]
  unfold writeByte
  rw [takeTurn_hold]
  cases h1 : (takeTurn s).1 with
  | ok =>
    refine .inl ⟨_, .inr rfl, ?_⟩
    simp only
    rw [absorb_eq]
    simp only [hold_env, he]
    congr 1
    rw [hf]
    rfl
  | busErr took =>
    by_cases ht : s.config.transportErrors = true
    · refine .inr (.inl ⟨ht, ?_⟩)
      cases took
      · refine ⟨_, .inl rfl, ?_⟩
        simp only [hold_config, hc, ht, if_true, Bool.false_eq_true, if_false]
        rw [hf]
        rfl
      · refine ⟨_, .inr rfl, ?_⟩
        simp only [absorb_eq, hold_config, hold_env, he, hc, ht, if_true]
        rw [hf]
        rfl
    · cases took
      · refine .inl ⟨_, .inl rfl, ?_⟩
        simp only [hold_config, hc, ht, Bool.false_eq_true, if_false]
        rw [hf]
        rfl
      · refine .inl ⟨_, .inr rfl, ?_⟩
        simp only [absorb_eq, hold_config, hold_env, he, hc, ht, if_true]
        rw [hf]
        rfl
  | late => exact .inr (.inr (by simp only; rw [hf]; rfl))
  | never => exact .inr (.inr (by simp only; rw [hf]; rfl))

end Sys2Proof.Machine
end

