-- ==== Sys2Proof/Laws/Exec.lean ====
section
/-! SUPPORT. Admission and the scripts: what a command does, said once for the 27 commands that are neither CONSTRUCT nor
DESTRUCT, and once for the construction push. -/

namespace Sys2Proof.Machine

/-! ### Admission -/

/-- In IDLE, no response left to deliver: the lifecycle decides (R86). -/
theorem admission_idle {i : Instr} {s : State} (hp : s.phase = .idle) (hd : s.due = none) :
    admission i s = if s.initialized then none else some .notInitialized := by simp [admission, hp, hd]

/-- In IDLE with a response still to deliver nothing is admitted (R40). -/
theorem admission_due {i : Instr} {s : State} {r : Response} (hp : s.phase = .idle) (hd : s.due = some r) :
    admission i s = some .commandInProgress := by simp [admission, hp, hd]

/-- In any other phase only the command in progress goes on (R86). -/
theorem admission_pending {i : Instr} {s : State} (hp : s.phase ≠ .idle) :
    admission i s = if s.cmd = some (encode i) then none else some .commandInProgress := by
  cases h : s.phase <;> simp_all [admission]

theorem present_idle {i : Instr} {s : State} (hp : s.phase = .idle) : present i s = accept (encode i) s := by
  simp [present, hp]

theorem present_pending {i : Instr} {s : State} (hp : s.phase ≠ .idle) : present i s = s := by
  cases h : s.phase <;> simp_all [present]

theorem operate_ready {m : BankMode} {s : State} (h : ReadyIn m s) (i : Instr)
    (k : BankMode → State → Host.Outcome State Fault Refusal) : operate i k s = k m (accept (encode i) s) := by
  obtain ⟨hp, hd, hi, hm⟩ := h
  have hm' : (accept (encode i) s).bankMode = some m := hm
  simp [operate, admission_idle hp hd, hi, present_idle hp, withMode, modeOf_some hm', noteMode_some hm']

theorem operate_inProgress {m : BankMode} {s : State} {i : Instr} (hp : s.phase ≠ .idle)
    (hc : s.cmd = some (encode i)) (hm : s.bankMode = some m)
    (k : BankMode → State → Host.Outcome State Fault Refusal) : operate i k s = k m s := by
  simp [operate, admission_pending hp, hc, present_pending hp, withMode, modeOf_some hm, noteMode_some hm]

/-- A command is admitted and its script begins or goes on from `u`: in IDLE it is accepted first (R86), and reading a bank mode
that holds no value records a fault (U9). -/
structure Took (i : Instr) (s u : State) : Prop where
  eq : u = { s with cmd := some (encode i), rsp := u.rsp, faults := u.faults }
  accepted : s.phase = .idle → s.due = none ∧ s.initialized = true ∧ u.rsp = none
  goesOn : s.phase ≠ .idle → s.cmd = some (encode i) ∧ u.rsp = s.rsp
  faults : s.faults <+: u.faults
  clean : s.bankMode ≠ none → u.faults = s.faults

theorem Took.noteMode {i : Instr} {s u : State} (h : Took i s u) (hf : u.faults = s.faults) : Took i s (noteMode u) := by
  have hb : u.bankMode = s.bankMode := by rw [h.eq]
  rw [noteMode_eq]
  refine ⟨by rw [h.eq], h.accepted, h.goesOn, hf ▸ (note_faults u).1, fun hm => ?_⟩
  obtain ⟨m, hm⟩ := Option.ne_none_iff_exists'.mp hm
  simpa [noteMode_some (hb.trans hm)] using hf

/-- Everything a command without an operand check can do before its script: it is refused, or its script runs, from its acceptance
or from where it stands, in the mode `bank_mode` reads as. -/
theorem operate_cases (i : Instr) (k : BankMode → State → Host.Outcome State Fault Refusal) (s : State) :
    (s.phase = .idle ∧ s.due = none ∧ s.initialized = false ∧ operate i k s = .refused .notInitialized) ∨
    (((s.phase = .idle ∧ s.due ≠ none) ∨ (s.phase ≠ .idle ∧ s.cmd ≠ some (encode i))) ∧
      operate i k s = .refused .commandInProgress) ∨
    ∃ u, Took i s u ∧ operate i k s = k (modeOf s) u := by
  by_cases hp : s.phase = .idle
  · cases hd : s.due with
    | some r => exact .inr (.inl ⟨.inl ⟨hp, by simp⟩, by simp [operate, admission_due hp hd]⟩)
    | none =>
      cases hi : s.initialized with
      | false => exact .inl ⟨hp, rfl, rfl, by simp [operate, admission_idle hp hd, hi]⟩
      | true =>
        have ht : Took i s (accept (encode i) s) :=
          ⟨rfl, fun _ => ⟨hd, hi, rfl⟩, fun h => absurd hp h, List.prefix_refl _, fun _ => rfl⟩
        exact .inr (.inr ⟨_, ht.noteMode rfl, by
          simp only [operate, admission_idle hp hd, hi, present_idle hp, withMode]; rfl⟩)
  · by_cases hc : s.cmd = some (encode i)
    · have ht : Took i s s := ⟨by rw [← hc], fun h => absurd h hp, fun _ => ⟨hc, rfl⟩, List.prefix_refl _, fun _ => rfl⟩
      exact .inr (.inr ⟨_, ht.noteMode rfl, by
        simp [operate, admission_pending hp, hc, present_pending hp, withMode]⟩)
    · exact .inr (.inl ⟨.inr ⟨hp, hc⟩, by simp [operate, admission_pending hp, hc]⟩)

theorem pinMask_inRange {pin : Byte} (h : pinInRange pin = true) : pinMask pin = some (1#8 <<< pin.toNat) := by
  simp only [pinInRange, decide_eq_true_eq] at h
  simp only [pinMask, if_pos h]

theorem pinMask_outOfRange {pin : Byte} (h : pinInRange pin = false) : pinMask pin = none := by
  simp only [pinInRange, decide_eq_false_iff_not] at h
  simp only [pinMask, if_neg h]

theorem operatePin_inRange {pin : Byte} (h : pinInRange pin = true) (i : Instr)
    (k : Byte → BankMode → State → Host.Outcome State Fault Refusal) (s : State) :
    operatePin i pin k s = operate i (k (1#8 <<< pin.toNat)) s := by
  simp only [operatePin, operate, pinMask_inRange h]

/-- A pin command with an index above 7: refused by the lifecycle, or the end R131 gives it. -/
def illFormedEnd (i : Instr) (s : State) : Host.Outcome State Fault Refusal :=
  match admission i s with
  | some r => .refused r
  | none => badPinIndex (present i s)

theorem operatePin_outOfRange {pin : Byte} (h : pinInRange pin = false) (i : Instr)
    (k : Byte → BankMode → State → Host.Outcome State Fault Refusal) (s : State) :
    operatePin i pin k s = illFormedEnd i s := by
  cases ha : admission i s <;> simp [operatePin, illFormedEnd, ha, pinMask_outOfRange h]

/-! ### The script of a command -/

/-- The response byte of a command that reads and does not write, from the byte read (R90, R121). -/
def responseByte (v : Byte) : Instr → Byte
  | .getPinState _ pin => pinStateByte (pinState v (1#8 <<< pin.toNat))
  | .getDirection _ | .getPolarity _ | .getInterruptEnable _ | .getDefaultCompare _ | .getInterruptControl _
  | .getPeripheralConfig _ | .getPullUp _ | .getInterruptFlag _ | .getInterruptCapture _ | .getCurrentValue _
  | .getOutputLatch _ | .setDirection _ _ | .setPolarity _ _ | .setInterruptEnable _ _ | .setDefaultCompare _ _
  | .setInterruptControl _ _ | .setPeripheralConfig _ _ | .setPullUp _ _ | .setOutputLatch _ _ | .setPinState _ _ _
  | .setPin _ _ | .resetPin _ _ | .togglePin _ _ | .setPins _ | .resetPins _ | .togglePins _ | .construct _ _
  | .destruct => v

/-- The script of a command that is neither CONSTRUCT nor DESTRUCT, by which addresses its rule reads and writes. -/
def scriptOf (i : Instr) (m : BankMode) (s : State) : Host.Outcome State Fault Refusal :=
  match readAddress s.config m i, writeAddress s.config m i with
  | some a, none => readScript a (fun v => responseByte v i) s
  | some a, some _ => rmwScript a (fun x => writtenByte x i) s
  | none, some a => writeScript a (writtenByte 0 i) s
  | none, none => .refused .commandInProgress

/-- A well-formed command that is neither CONSTRUCT nor DESTRUCT is its script behind its admission. -/
theorem exec_eq_operate {i : Instr} (hc : ∀ a b, i ≠ .construct a b) (hd : i ≠ .destruct) (hw : i.wellFormed = true)
    (s : State) : exec i s = operate i (scriptOf i) s := by
  cases i with
  | construct a b => exact absurd rfl (hc a b)
  | destruct => exact absurd rfl hd
  | getPinState p pin =>
    have hw' : pinInRange pin = true := hw
    simp only [exec, execGetPinState, operatePin_inRange hw']
    unfold scriptOf
    simp [readAddress, writeAddress, hw', responseByte]
  | setPin p pin =>
    have hw' : pinInRange pin = true := hw
    simp only [exec, execSetPin, pinRmw, operatePin_inRange hw']
    unfold scriptOf
    simp [readAddress, writeAddress, hw', writtenByte, setBits]
  | resetPin p pin =>
    have hw' : pinInRange pin = true := hw
    simp only [exec, execResetPin, pinRmw, operatePin_inRange hw']
    unfold scriptOf
    simp [readAddress, writeAddress, hw', writtenByte, resetBits]
  | togglePin p pin =>
    have hw' : pinInRange pin = true := hw
    simp only [exec, execTogglePin, pinRmw, operatePin_inRange hw']
    unfold scriptOf
    simp [readAddress, writeAddress, hw', writtenByte, toggleBits]
  | setPinState p pin st =>
    have hw' : pinInRange pin = true := hw
    cases st <;>
    · simp only [exec, execSetPinState, pinRmw, operatePin_inRange hw']
      unfold scriptOf
      simp [readAddress, writeAddress, hw', writtenByte, setBits, resetBits]
  | setPins p =>
    have hor : ∀ x : Byte, x ||| 0xFF = 0xFF := by decide
    simp only [exec, execSetPins, portRmw, setBits, hor]
    rfl
  | togglePins p => rfl
  | resetPins p =>
    simp only [exec, execResetPins]
    congr 1
    funext m s1
    unfold scriptOf
    cases h : s1.config.resetPinsReads <;> simp [readAddress, writeAddress, h, writtenByte]
  | _ => rfl

/-- A command that is not well formed ends as R131 says. -/
theorem exec_illFormed {i : Instr} (hw : i.wellFormed = false) (s : State) : exec i s = illFormedEnd i s := by
  cases i with
  | getPinState p pin => exact operatePin_outOfRange hw _ _ s
  | setPin p pin => exact operatePin_outOfRange hw _ _ s
  | resetPin p pin => exact operatePin_outOfRange hw _ _ s
  | togglePin p pin => exact operatePin_outOfRange hw _ _ s
  | setPinState p pin st => cases st <;> exact operatePin_outOfRange hw _ _ s
  | _ => cases hw

/-- A read-modify-write writes where it reads. -/
theorem writeAddress_of_read {c : Config} {m : BankMode} {i : Instr} {a b : Byte} (hr : readAddress c m i = some a)
    (hw : writeAddress c m i = some b) : a = b := by
  cases i <;> simp only [readAddress, writeAddress, reduceCtorEq] at hr hw
  all_goals first | (split at hr <;> simp_all) | simp_all

/-- Only a well-formed command has transactions. -/
theorem wellFormed_of_transaction {c : Config} {m : BankMode} {i : Instr}
    (h : (readAddress c m i).isSome = true ∨ (writeAddress c m i).isSome = true) :
    i.wellFormed = true ∧ (∀ a b, i ≠ .construct a b) ∧ i ≠ .destruct := by
  cases i <;> simp_all [readAddress, writeAddress, Instr.wellFormed]

/-- A well-formed command that is neither CONSTRUCT nor DESTRUCT has a transaction. -/
theorem transaction_of_wellFormed {i : Instr} (hc : ∀ a b, i ≠ .construct a b) (hd : i ≠ .destruct)
    (hw : i.wellFormed = true) (c : Config) (m : BankMode) :
    (readAddress c m i).isSome = true ∨ (writeAddress c m i).isSome = true := by
  cases i <;> simp_all [readAddress, writeAddress, Instr.wellFormed]

/-! ### Where a step ends (R8) -/

/-- A command's first transaction: only issued, or gone through. -/
theorem opening_cases (ph : Phase) (r : BusRequest) (k : State → Host.Outcome State Fault Refusal) (s : State) :
    (s.phase = .idle ∧ s.grain = .event ∧ opening ph r k s = .next (hold ph r s)) ∨ opening ph r k s = k s := by
  unfold opening
  split
  · rename_i h
    exact .inl ⟨h.1, h.2, rfl⟩
  · exact .inr rfl

theorem opening_event {ph : Phase} {r : BusRequest} {k : State → Host.Outcome State Fault Refusal} {s : State}
    (hp : s.phase = .idle) (hg : s.grain = .event) : opening ph r k s = .next (hold ph r s) := by simp [opening, hp, hg]

theorem opening_command {ph : Phase} {r : BusRequest} {k : State → Host.Outcome State Fault Refusal} {s : State}
    (hg : s.grain = .command) : opening ph r k s = k s := by simp [opening, hg]

theorem opening_pending {ph : Phase} {r : BusRequest} {k : State → Host.Outcome State Fault Refusal} {s : State}
    (hp : s.phase ≠ .idle) : opening ph r k s = k s := by simp [opening, hp]

/-- A later transaction: only issued, or gone through. -/
theorem following_cases (ph : Phase) (r : BusRequest) (k : State → Host.Outcome State Fault Refusal) (s : State) :
    (s.grain = .event ∧ following ph r k s = .next (hold ph r s)) ∨ (s.grain = .command ∧ following ph r k s = k s) := by
  unfold following
  cases h : s.grain <;> simp

theorem following_command {ph : Phase} {r : BusRequest} {k : State → Host.Outcome State Fault Refusal} {s : State}
    (hg : s.grain = .command) : following ph r k s = k s := by simp [following, hg]

theorem pushPause_command {ws : List PushWrite} {n : Nat} {s : State} (hg : s.grain = .command) :
    pushPause ws n s = none := by cases ws <;> simp [pushPause, hg]

theorem pushPause_nil {n : Nat} {s : State} : pushPause [] n s = none := rfl

/-- The next construction write: only issued, or none is left to issue alone. -/
theorem pushPause_cases (ws : List PushWrite) (n : Nat) (s : State) :
    (∃ w rest, ws = w :: rest ∧ s.grain = .event ∧
      pushPause ws n s = some (hold .cfgPend (.write w.addr w.data) (countPush n s))) ∨
    ((ws = [] ∨ s.grain = .command) ∧ pushPause ws n s = none) := by
  cases ws with
  | nil => exact .inr ⟨.inl rfl, rfl⟩
  | cons w rest =>
    cases hg : s.grain
    · exact .inl ⟨w, rest, rfl, rfl, by simp [pushPause, hg]⟩
    · exact .inr ⟨.inr rfl, by simp [pushPause, hg]⟩

/-! ### Everything a script can do -/

/-- A last read: done and answered, failed and answered, or waiting. -/
theorem lastRead_cases (a : Byte) (post : Byte → Byte) (s : State) :
    (∃ v d, lastRead a post s = .next (respond (post v) .ok { s with
        phase := .rdPend, bus := none, memory := (takeTurn s).2.memory,
        turns := (takeTurn s).2.turns, history := s.history ++ [.read a v], draws := d })) ∨
    (s.config.transportErrors = true ∧ lastRead a post s = .next (respond 0x00 .transportFailure { s with
        phase := .rdPend, bus := none, memory := (takeTurn s).2.memory,
        turns := (takeTurn s).2.turns, history := s.history ++ [.readFailed a] })) ∨
    lastRead a post s = .next { s with
        phase := .rdPend, bus := some (.read a), memory := (takeTurn s).2.memory, turns := (takeTurn s).2.turns } := by
  unfold lastRead
  rcases readByte_cases a s with ⟨v, d, h⟩ | ⟨ht, h⟩ | h
  · exact .inl ⟨v, d, by rw [h]⟩
  · exact .inr (.inl ⟨ht, by rw [h]; rfl⟩)
  · exact .inr (.inr (by rw [h]))

/-- A last write: done and answered, failed and answered, or waiting. -/
theorem lastWrite_cases (a v : Byte) (s : State) :
    (∃ m, (m = (takeTurn s).2.memory ∨ m = spaceAfterWrite s.env (takeTurn s).2.memory a v) ∧
      lastWrite a v s = .next (respond 0x00 .ok { s with
        phase := .wrPend, bus := none, memory := m,
        turns := (takeTurn s).2.turns, history := s.history ++ [.write a v] })) ∨
    (s.config.transportErrors = true ∧
      ∃ m, (m = (takeTurn s).2.memory ∨ m = spaceAfterWrite s.env (takeTurn s).2.memory a v) ∧
      lastWrite a v s = .next (respond 0x00 .transportFailure { s with
        phase := .wrPend, bus := none, memory := m,
        turns := (takeTurn s).2.turns, history := s.history ++ [.writeFailed a v] })) ∨
    lastWrite a v s = .next { s with
        phase := .wrPend, bus := some (.write a v), memory := (takeTurn s).2.memory,
        turns := (takeTurn s).2.turns } := by
  unfold lastWrite
  rcases writeByte_cases .wrPend a v s with ⟨m, hm, h⟩ | ⟨ht, m, hm, h⟩ | h
  · exact .inl ⟨m, hm, by rw [h]⟩
  · exact .inr (.inl ⟨ht, m, hm, by rw [h]; rfl⟩)
  · exact .inr (.inr (by rw [h]))

/-- The read half of a read-modify-write: done, and the write half issued or gone through with the byte in `tmp`; failed and
answered; or waiting. -/
theorem rmwReadHalf_cases (a : Byte) (f : Byte → Byte) (s : State) :
    (∃ v d, rmwReadHalf a f s = following .wrPend (.write a (f v)) (lastWrite a (f v)) { s with
        phase := .rdPend, bus := none, tmp := some v, memory := (takeTurn s).2.memory,
        turns := (takeTurn s).2.turns, history := s.history ++ [.read a v], draws := d }) ∨
    (s.config.transportErrors = true ∧ rmwReadHalf a f s = .next (respond 0x00 .transportFailure { s with
        phase := .rdPend, bus := none, memory := (takeTurn s).2.memory,
        turns := (takeTurn s).2.turns, history := s.history ++ [.readFailed a] })) ∨
    rmwReadHalf a f s = .next { s with
        phase := .rdPend, bus := some (.read a), memory := (takeTurn s).2.memory, turns := (takeTurn s).2.turns } := by
  unfold rmwReadHalf
  rcases readByte_cases a s with ⟨v, d, h⟩ | ⟨ht, h⟩ | h
  · exact .inl ⟨v, d, by rw [h]; rfl⟩
  · exact .inr (.inl ⟨ht, by rw [h]; rfl⟩)
  · exact .inr (.inr (by rw [h]))

/-- A read-modify-write stands at its write half in WR_PEND only. -/
theorem rmwScript_eq (a : Byte) (f : Byte → Byte) (s : State) :
    rmwScript a f s = if s.phase = .wrPend then rmwWriteHalf a f s else opening .rdPend (.read a) (rmwReadHalf a f) s := by
  unfold rmwScript
  cases s.phase <;> simp

/-! ### Scripts over a transport that completes -/

theorem lastRead_completes {n : Nat} {a : Byte} {post : Byte → Byte} {s : State} (h : Completes (n + 1) s) :
    ∃ v d, lastRead a post s = .next (respond (post v) .ok { s with
        phase := .rdPend, bus := none, memory := spaceAt 0 s, turns := s.turns.tail,
        history := s.history ++ [.read a v], draws := d }) ∧
      (s.env = .reference → v = Memory.read (spaceAt 0 s) a) := by
  obtain ⟨v, d, hr, he⟩ := readByte_completes (a := a) h
  exact ⟨v, d, by unfold lastRead; rw [hr], he⟩

theorem lastWrite_completes {n : Nat} {a v : Byte} {s : State} (h : Completes (n + 1) s) :
    lastWrite a v s = .next (respond 0x00 .ok { s with
        phase := .wrPend, bus := none,
        memory := spaceAfterWrite s.env (spaceAt 0 s) a v, turns := s.turns.tail,
        history := s.history ++ [.write a v] }) := by
  unfold lastWrite
  rw [writeByte_completes h]

/-- The register space and completion are read off the turns and the memory alone. -/
theorem spaceAt_congr {s t : State} (hm : t.memory = s.memory) (ht : t.turns = s.turns) (n : Nat) :
    spaceAt n t = spaceAt n s := by
  induction n with
  | zero => simp [spaceAt, pokesAt, hm, ht]
  | succ n ih => simp [spaceAt, pokesAt, ih, ht]

theorem spaceAt_next {s t : State} (hm : t.memory = spaceAt 0 s) (ht : t.turns = s.turns.tail) (n : Nat) :
    spaceAt n t = spaceAt (n + 1) s := by
  have hp : ∀ k, pokesAt k t = pokesAt (k + 1) s := fun k => by
    unfold pokesAt
    rw [ht]
    cases s.turns <;> simp
  induction n with
  | zero => simp [spaceAt, hp, hm]
  | succ n ih => rw [spaceAt, ih, hp]; rfl

theorem completes_next {n : Nat} {s t : State} (h : Completes (n + 1) s) (ht : t.turns = s.turns.tail) :
    Completes n t := by
  intro u hu
  rw [ht] at hu
  refine h u ?_
  cases hs : s.turns with
  | nil => simp [hs] at hu
  | cons c rest => simpa [hs] using .inr (by simpa [hs] using hu)

/-- A read-modify-write over a transport that completes both its transactions, at the grain of commands. -/
theorem rmwReadHalf_completes {n : Nat} {a : Byte} {f : Byte → Byte} {s : State} (hg : s.grain = .command)
    (h : Completes (n + 2) s) :
    ∃ x d, rmwReadHalf a f s = .next (respond 0x00 .ok { s with
        phase := .wrPend, bus := none, tmp := some x,
        memory := spaceAfterWrite s.env (spaceAt 1 s) a (f x), turns := s.turns.tail.tail,
        history := s.history ++ [.read a x, .write a (f x)], draws := d }) ∧
      (s.env = .reference → x = Memory.read (spaceAt 0 s) a) := by
  obtain ⟨x, d, hr, he⟩ := readByte_completes (a := a) h
  refine ⟨x, d, ?_, he⟩
  unfold rmwReadHalf
  rw [hr]
  have hc : Completes (n + 1) (latchTmp x { s with
      phase := .rdPend, bus := none, memory := spaceAt 0 s, turns := s.turns.tail,
      history := s.history ++ [.read a x], draws := d }) := completes_next h rfl
  have hs : spaceAt 0 (latchTmp x { s with
      phase := .rdPend, bus := none, memory := spaceAt 0 s, turns := s.turns.tail,
      history := s.history ++ [.read a x], draws := d }) = spaceAt 1 s := spaceAt_next rfl rfl 0
  simp only
  rw [following_command (by exact hg)]
  simp only [rmwWriteHalf]
  rw [tmpOf_some (latchTmp_tmp _ _), noteTmp_some (latchTmp_tmp _ _)]
  rw [lastWrite_completes hc, hs]
  simp [latchTmp]

/-! ### The construction push -/

theorem pushWrites_length (c : Config) (m : BankMode) (cfgA cfgB : PortConfig) :
    (pushWrites c m cfgA cfgB).length = 14 := by
  have h : (orderedSeven c).length = 7 := by
    have := c.ioconPos.isLt
    simp [orderedSeven, orderedSix]
    omega
  unfold pushWrites
  cases c.cfgPortOrder <;> simp [portPushes, h]

/-- One construction write and what follows it: the next write issued, the push gone on with, the end in an error, or
waiting. -/
theorem pushScript_cons_cases (w : PushWrite) (rest : List PushWrite) (n : Nat) (s : State) :
    (∃ m, (m = (takeTurn (countPush n s)).2.memory ∨
        m = spaceAfterWrite s.env (takeTurn (countPush n s)).2.memory w.addr w.data) ∧
      ((∃ w' rest', rest = w' :: rest' ∧ s.grain = .event ∧
          pushScript (w :: rest) n s = .next { s with
            phase := .cfgPend, idx := some (Fin.ofNat 14 (n + 1)), bus := some (.write w'.addr w'.data), memory := m,
            turns := (takeTurn (countPush n s)).2.turns, history := s.history ++ [.write w.addr w.data] }) ∨
        ((rest = [] ∨ s.grain = .command) ∧ pushScript (w :: rest) n s = pushScript rest (n + 1) { s with
          phase := .cfgPend, idx := some (Fin.ofNat 14 n), bus := none, memory := m,
          turns := (takeTurn (countPush n s)).2.turns, history := s.history ++ [.write w.addr w.data] }))) ∨
    (s.config.transportErrors = true ∧ ∃ m, (m = (takeTurn (countPush n s)).2.memory ∨
        m = spaceAfterWrite s.env (takeTurn (countPush n s)).2.memory w.addr w.data) ∧
      pushScript (w :: rest) n s = .next (respond 0x00 .transportFailure { s with
        phase := .cfgPend, idx := some (Fin.ofNat 14 n), bus := none, memory := m,
        turns := (takeTurn (countPush n s)).2.turns, history := s.history ++ [.writeFailed w.addr w.data] })) ∨
    pushScript (w :: rest) n s = .next { s with
        phase := .cfgPend, idx := some (Fin.ofNat 14 n), bus := some (.write w.addr w.data),
        memory := (takeTurn (countPush n s)).2.memory, turns := (takeTurn (countPush n s)).2.turns } := by
  have hu : pushScript (w :: rest) n s = (match writeByte .cfgPend w.addr w.data (countPush n s) with
      | .done _ s1 =>
        match pushPause rest (n + 1) s1 with
        | some s2 => .next s2
        | none => pushScript rest (n + 1) s1
      | .failed s1 => .next (endInError .transportFailure s1)
      | .waiting s1 => .next s1) := rfl
  rw [hu]
  rcases writeByte_cases .cfgPend w.addr w.data (countPush n s) with ⟨m, hm, h⟩ | ⟨ht, m, hm, h⟩ | h
  · refine .inl ⟨m, hm, ?_⟩
    rw [h]
    rcases pushPause_cases rest (n + 1) { countPush n s with
        phase := .cfgPend, bus := none, memory := m, turns := (takeTurn (countPush n s)).2.turns,
        history := (countPush n s).history ++ [.write w.addr w.data] } with ⟨w', rest', hr, hg, hp⟩ | ⟨hg, hp⟩
    · exact .inl ⟨w', rest', hr, hg, by simp only [hp]; rfl⟩
    · exact .inr ⟨hg, by simp only [hp]; rfl⟩
  · exact .inr (.inl ⟨ht, m, hm, by rw [h]; rfl⟩)
  · exact .inr (.inr (by rw [h]; rfl))

/-- What the construction push leaves from any write on, however the transactions end. -/
theorem pushScript_frame (ws : List PushWrite) (n : Nat) (s : State) :
    ∃ t, pushScript ws n s = .next t ∧ t.config = s.config ∧ t.bankMode = s.bankMode ∧
      (t.phase = .idle ∧ t.cmd = none ∧ t.tmp = none ∨ t.phase = .cfgPend ∧ t.cmd = s.cmd ∧ t.tmp = s.tmp) ∧
      t.env = s.env ∧ t.presented = s.presented ∧ t.inputs = s.inputs ∧ t.draws = s.draws ∧ t.grain = s.grain ∧
      s.history <+: t.history := by
  induction ws generalizing n s with
  | nil => exact ⟨_, rfl, rfl, rfl, .inl ⟨rfl, rfl, rfl⟩, rfl, rfl, rfl, rfl, rfl, List.prefix_refl _⟩
  | cons w rest ih =>
    rcases pushScript_cons_cases w rest n s with ⟨m, -, ⟨w', rest', -, -, h⟩ | ⟨-, h⟩⟩ | ⟨-, m, -, h⟩ | h <;> rw [h]
    · exact ⟨_, rfl, rfl, rfl, .inr ⟨rfl, rfl, rfl⟩, rfl, rfl, rfl, rfl, rfl, List.prefix_append _ _⟩
    · obtain ⟨t, ht, h1, h2, h3, h4, h5, h6, h7, h8, h9⟩ := ih (n + 1) { s with
        phase := .cfgPend, idx := some (Fin.ofNat 14 n), bus := none, memory := m,
        turns := (takeTurn (countPush n s)).2.turns, history := s.history ++ [.write w.addr w.data] }
      exact ⟨t, ht, h1, h2, h3, h4, h5, h6, h7, h8, (List.prefix_append _ _).trans h9⟩
    · exact ⟨_, rfl, rfl, rfl, .inl ⟨rfl, rfl, rfl⟩, rfl, rfl, rfl, rfl, rfl, List.prefix_append _ _⟩
    · exact ⟨_, rfl, rfl, rfl, .inr ⟨rfl, rfl, rfl⟩, rfl, rfl, rfl, rfl, rfl, List.prefix_refl _⟩

/-- A completed construction write at the grain of commands. -/
theorem pushScript_cons_completes {n k : Nat} {w : PushWrite} {rest : List PushWrite} {s : State} (hg : s.grain = .command)
    (h : Completes (k + 1) s) : pushScript (w :: rest) n s = pushScript rest (n + 1) { s with
      phase := .cfgPend, idx := some (Fin.ofNat 14 n), bus := none,
      memory := spaceAfterWrite s.env (spaceAt 0 s) w.addr w.data, turns := s.turns.tail,
      history := s.history ++ [.write w.addr w.data] } := by
  have hc : Completes (k + 1) (countPush n s) := h
  have hs : spaceAt 0 (countPush n s) = spaceAt 0 s := spaceAt_congr (s := s) (t := countPush n s) rfl rfl 0
  rw [pushScript, writeByte_completes hc]
  simp only [hs]
  rw [pushPause_command (by exact hg)]
  rfl

/-- The construction push at the grain of commands, over a transport that completes every write. -/
theorem pushScript_completes (ws : List PushWrite) (n : Nat) (s : State) (hg : s.grain = .command)
    (h : Completes ws.length s) (hb : ws ≠ [] ∨ s.bus = none) :
    ∃ t, pushScript ws n s = .next t ∧ t.initialized = true ∧ t.bankMode = s.bankMode ∧ Answers 0x00 .ok t ∧
      t.history = s.history ++ ws.map (fun w => .write w.addr w.data) ∧
      (Undisturbed s → t.memory = ws.foldl (fun mem w => Memory.write mem w.addr w.data) s.memory) := by
  induction ws generalizing n s with
  | nil =>
    have hb : s.bus = none := hb.resolve_left (by simp)
    refine ⟨_, rfl, ?_⟩
    rw [respond_command (by exact hg)]
    exact ⟨rfl, rfl, ⟨rfl, rfl, rfl, rfl, hb, rfl, rfl, rfl⟩, by simp, fun _ => rfl⟩
  | cons w rest ih =>
    rw [pushScript_cons_completes (k := rest.length) hg h]
    obtain ⟨t, ht, h1, h2, h3, h4, h5⟩ := ih (n + 1) { s with
      phase := .cfgPend, idx := some (Fin.ofNat 14 n), bus := none,
      memory := spaceAfterWrite s.env (spaceAt 0 s) w.addr w.data, turns := s.turns.tail,
      history := s.history ++ [.write w.addr w.data] } hg (completes_next h rfl) (.inr rfl)
    refine ⟨t, ht, h1, h2, h3, by simpa using h4, fun hu => ?_⟩
    have hs0 : spaceAt 0 s = s.memory := by simp [spaceAt, pokesAt, hu.2, pokeAll]
    rw [h5 ⟨hu.1, by simp [hu.2]⟩]
    simp [hs0, hu.1, spaceAfterWrite]

/-- The push from its first write: the first write issued, or the push gone through. -/
theorem pushFromStart_cases (ws : List PushWrite) (s : State) :
    (∃ w rest, ws = w :: rest ∧ s.grain = .event ∧
      pushFromStart ws s = .next (hold .cfgPend (.write w.addr w.data) (countPush 0 s))) ∨
    ((ws = [] ∨ s.grain = .command) ∧ pushFromStart ws s = pushScript ws 0 s) := by
  unfold pushFromStart
  rcases pushPause_cases ws 0 s with ⟨w, rest, h1, h2, h3⟩ | ⟨h1, h2⟩
  · exact .inl ⟨w, rest, h1, h2, by rw [h3]⟩
  · exact .inr ⟨h1, by rw [h2]⟩

theorem pushFromStart_command {ws : List PushWrite} {s : State} (hg : s.grain = .command) :
    pushFromStart ws s = pushScript ws 0 s := by simp [pushFromStart, pushPause_command hg]

end Sys2Proof.Machine
end

