-- ==== Sys2Proof/Laws/Frame.lean ====
section
/-! SUPPORT. What each shape of command leaves unchanged, from any state and however its transactions end, and what a ready
block does with it. -/

namespace Sys2Proof.Machine

theorem spaceAt_accept (c : Command) (n : Nat) (s : State) : spaceAt n (accept c s) = spaceAt n s :=
  spaceAt_congr (s := s) (t := accept c s) rfl rfl n

/-- A ready block runs the script of a well-formed command from its acceptance. -/
theorem exec_ready {i : Instr} {m : BankMode} {s : State} (h : ReadyIn m s) (hc : ∀ a b, i ≠ .construct a b)
    (hd : i ≠ .destruct) (hw : i.wellFormed = true) :
    exec i s = scriptOf i m (accept (encode i) s) := by rw [exec_eq_operate hc hd hw, operate_ready h]

/-- A ready block at the grain of commands, over a transport that completes: everything a read-modify-write leaves. -/
theorem exec_rmw_completes {i : Instr} {a : Byte} {m : BankMode} {s : State} (h : ReadyIn m s) (hg : s.grain = .command)
    (hcp : Completes 2 s) (hr : readAddress s.config m i = some a) (hw : writeAddress s.config m i = some a) :
    ∃ x d, exec i s = .next { s with
        phase := .idle, bus := none, cmd := none, tmp := none, idx := none, rsp := some ⟨0x00, .ok⟩, due := none,
        awaited := false, memory := spaceAfterWrite s.env (spaceAt 1 s) a (writtenByte x i), turns := s.turns.tail.tail,
        history := s.history ++ [.read a x, .write a (writtenByte x i)], draws := d } ∧
      (s.env = .reference → x = Memory.read (spaceAt 0 s) a) := by
  obtain ⟨hwf, hc, hd⟩ := wellFormed_of_transaction (m := m) (c := s.config) (i := i) (.inl (by simp [hr]))
  rw [exec_ready h hc hd hwf]
  simp only [scriptOf, accept_config, hr, hw]
  have hp : ¬ (accept (encode i) s).phase = .wrPend := by simp [h.1]
  rw [rmwScript_eq, if_neg hp, opening_command (by exact hg)]
  obtain ⟨x, d, hx, he⟩ := rmwReadHalf_completes (n := 0) (a := a) (f := fun x => writtenByte x i)
    (s := accept (encode i) s) hg hcp
  refine ⟨x, d, ?_, ?_⟩
  · rw [hx, spaceAt_accept, respond_command (by exact hg)]; rfl
  · rw [spaceAt_accept] at he; exact he

/-- CONSTRUCT on a fresh block, the check off or passed, is the push of its fourteen writes. -/
theorem exec_construct_fresh {a b : PortConfig} {s : State} (h : Fresh s)
    (hb : s.config.bankMismatchCheck = true → bankBitsDiffer s.config a b = false) :
    exec (.construct a b) s = pushFromStart (pushWrites s.config (derivedMode s.config a b) a b)
      (cacheMode (derivedMode s.config a b) (accept (encode (.construct a b)) s)) := by
  have : (s.config.bankMismatchCheck && bankBitsDiffer s.config a b) = false := by
    cases h1 : s.config.bankMismatchCheck <;> simp_all
  simp [exec, execConstruct, constructAdmission, h.1, h.2.1, h.2.2, constructFromStart, this]

/-- What a script that goes on or ends leaves: its frame, and `tmp` where the command does not read and write. -/
structure ScriptFrame (keepsTmp : Bool) (s t : State) : Prop where
  framed : Framed s t
  history : s.history <+: t.history
  idx : t.idx = s.idx ∨ (t.phase = .idle ∧ t.idx = none)
  tmp : keepsTmp = true → t.tmp = s.tmp ∨ (t.phase = .idle ∧ t.tmp = none)

theorem lastWrite_frame {a v : Byte} {u t : State} {b : Bool} (h : lastWrite a v u = .next t) {s : State}
    (hs : ScriptFrame b s u) (hp : u.phase ≠ .idle ∨ (u.idx = s.idx ∧ (b = true → u.tmp = s.tmp))) :
    ScriptFrame b s t := by
  obtain ⟨⟨f1, f2, f3, f4, f5, f6, f7⟩, hh, hi, ht⟩ := hs
  rcases lastWrite_cases a v u with ⟨mm, -, hr⟩ | ⟨-, mm, -, hr⟩ | hr <;> rw [hr] at h <;> cases h
  · exact ⟨⟨f1, f2, f3, f4, f5, f6, f7⟩, hh.trans (List.prefix_append _ _), .inr ⟨rfl, rfl⟩, fun _ => .inr ⟨rfl, rfl⟩⟩
  · exact ⟨⟨f1, f2, f3, f4, f5, f6, f7⟩, hh.trans (List.prefix_append _ _), .inr ⟨rfl, rfl⟩, fun _ => .inr ⟨rfl, rfl⟩⟩
  · refine ⟨⟨f1, f2, f3, f4, f5, f6, f7⟩, hh, ?_, fun hb => ?_⟩
    · rcases hp with hp | hp
      · exact .inl (hi.resolve_right fun h => hp h.1)
      · exact .inl hp.1
    · rcases hp with hp | hp
      · exact .inl ((ht hb).resolve_right fun h => hp h.1)
      · exact .inl (hp.2 hb)

theorem ScriptFrame.refl (b : Bool) (s : State) : ScriptFrame b s s :=
  ⟨⟨rfl, rfl, rfl, rfl, rfl, rfl, rfl⟩, List.prefix_refl _, .inl rfl, fun _ => .inl rfl⟩

/-- What every script leaves unchanged. `tmp` is written only by a command that reads and writes. -/
theorem scriptOf_frame {i : Instr} {m : BankMode} {s t : State} (h : scriptOf i m s = .next t) :
    ScriptFrame ((readAddress s.config m i).isNone || (writeAddress s.config m i).isNone) s t := by
  unfold scriptOf at h
  split at h
  · rename_i a hra hwa
    rw [hra, hwa]
    rcases opening_cases .rdPend (.read a) (lastRead a fun v => responseByte v i) s with ⟨-, -, ho⟩ | ho <;>
      rw [readScript, ho] at h
    · cases h; exact ⟨⟨rfl, rfl, rfl, rfl, rfl, rfl, rfl⟩, List.prefix_refl _, .inl rfl, fun _ => .inl rfl⟩
    · rcases lastRead_cases a (fun v => responseByte v i) s with ⟨v, d, hr⟩ | ⟨-, hr⟩ | hr <;> rw [hr] at h <;> cases h
      · exact ⟨⟨rfl, rfl, rfl, rfl, rfl, rfl, rfl⟩, List.prefix_append _ _, .inr ⟨rfl, rfl⟩, fun _ => .inr ⟨rfl, rfl⟩⟩
      · exact ⟨⟨rfl, rfl, rfl, rfl, rfl, rfl, rfl⟩, List.prefix_append _ _, .inr ⟨rfl, rfl⟩, fun _ => .inr ⟨rfl, rfl⟩⟩
      · exact ⟨⟨rfl, rfl, rfl, rfl, rfl, rfl, rfl⟩, List.prefix_refl _, .inl rfl, fun _ => .inl rfl⟩
  · rename_i a b hra hwa
    rw [hra, hwa]
    rw [rmwScript_eq] at h
    split at h
    · rename_i hp
      exact lastWrite_frame h
        (by rw [noteTmp_eq]; exact ⟨⟨rfl, rfl, rfl, rfl, rfl, rfl, rfl⟩, List.prefix_refl _, .inl rfl, by simp⟩)
        (.inl (by rw [noteTmp_eq]; simp [hp]))
    · rcases opening_cases .rdPend (.read a) (rmwReadHalf a fun x => writtenByte x i) s with ⟨-, -, ho⟩ | ho <;>
        rw [ho] at h
      · cases h; exact ⟨⟨rfl, rfl, rfl, rfl, rfl, rfl, rfl⟩, List.prefix_refl _, .inl rfl, fun _ => .inl rfl⟩
      · rcases rmwReadHalf_cases a (fun x => writtenByte x i) s with ⟨v, d, hr⟩ | ⟨-, hr⟩ | hr <;> rw [hr] at h
        · rcases following_cases .wrPend (.write a (writtenByte v i)) (lastWrite a (writtenByte v i)) { s with
            phase := .rdPend, bus := none, tmp := some v, memory := (takeTurn s).2.memory,
            turns := (takeTurn s).2.turns, history := s.history ++ [.read a v], draws := d } with ⟨-, hf⟩ | ⟨-, hf⟩ <;>
            simp only [hf] at h
          · cases h
            exact ⟨⟨rfl, rfl, rfl, rfl, rfl, rfl, rfl⟩, List.prefix_append _ _, .inl rfl, by simp⟩
          · exact lastWrite_frame h ⟨⟨rfl, rfl, rfl, rfl, rfl, rfl, rfl⟩, List.prefix_append _ _, .inl rfl, by simp⟩
              (.inl (by simp))
        · cases h
          exact ⟨⟨rfl, rfl, rfl, rfl, rfl, rfl, rfl⟩, List.prefix_append _ _, .inr ⟨rfl, rfl⟩, fun _ => .inr ⟨rfl, rfl⟩⟩
        · cases h
          exact ⟨⟨rfl, rfl, rfl, rfl, rfl, rfl, rfl⟩, List.prefix_refl _, .inl rfl, fun _ => .inl rfl⟩
  · rename_i a hra hwa
    rw [hra, hwa]
    rcases opening_cases .wrPend (.write a (writtenByte 0 i)) (lastWrite a (writtenByte 0 i)) s with ⟨-, -, ho⟩ | ho <;>
      rw [writeScript, ho] at h
    · cases h; exact ⟨⟨rfl, rfl, rfl, rfl, rfl, rfl, rfl⟩, List.prefix_refl _, .inl rfl, fun _ => .inl rfl⟩
    · exact lastWrite_frame h (.refl _ s) (.inr ⟨rfl, fun _ => rfl⟩)
  · cases h

/-- A pin command with an index above 7 goes on only with `PIN_CHECK` on, and then only responds. -/
theorem illFormedEnd_next {i : Instr} {s t : State} (h : illFormedEnd i s = .next t) :
    t = respond 0x00 .invalidPinIndex (present i s) ∧ s.config.pinCheck = true := by
  have hc : (present i s).config = s.config := by unfold present; cases s.phase <;> rfl
  unfold illFormedEnd badPinIndex at h
  split at h
  · cases h
  · split at h
    · rename_i hp
      cases h
      exact ⟨rfl, hc ▸ hp⟩
    · cases h

/-- A byte ENV does not change on its own, and which the block does not store to, reads as before a last write. -/
theorem lastWrite_memory {a v x : Byte} {u t : State} (hxa : x ≠ a) (h : lastWrite a v u = .next t)
    (hw : Memory.wf u.memory) (hu : Untouched x u) : Memory.read t.memory x = Memory.read u.memory x := by
  have hb := (takeTurn_untouched hu hw).1
  have hsp := (spaceAfterWrite_other u.env v hxa (takeTurn_memory_wf hw)).trans hb
  rcases lastWrite_cases a v u with ⟨mm, hm, hr⟩ | ⟨-, mm, hm, hr⟩ | hr <;> rw [hr] at h <;> cases h
  · rcases hm with rfl | rfl
    · exact hb
    · exact hsp
  · rcases hm with rfl | rfl
    · exact hb
    · exact hsp
  · exact hb

/-- A script changes no byte but the one at its write address. -/
theorem scriptOf_memory {i : Instr} {m : BankMode} {s t : State} {x : Byte} (h : scriptOf i m s = .next t)
    (hw : Memory.wf s.memory) (hu : Untouched x s) (hx : ∀ a, writeAddress s.config m i = some a → x ≠ a) :
    Memory.read t.memory x = Memory.read s.memory x := by
  have hb := takeTurn_untouched hu hw
  unfold scriptOf at h
  split at h
  · rename_i a _ _
    rcases opening_cases .rdPend (.read a) (lastRead a fun v => responseByte v i) s with ⟨-, -, ho⟩ | ho <;>
      rw [readScript, ho] at h
    · cases h; rfl
    · rcases lastRead_cases a (fun v => responseByte v i) s with ⟨v, d, hr⟩ | ⟨-, hr⟩ | hr <;> rw [hr] at h <;> cases h <;>
        exact hb.1
  · rename_i a b hra hwa
    obtain rfl := writeAddress_of_read hra hwa
    have hxa := hx _ hwa
    rw [rmwScript_eq] at h
    split at h
    · have he := noteTmp_eq s
      have hm : (noteTmp s).memory = s.memory := by rw [he]
      exact (lastWrite_memory hxa h (hm ▸ hw) (by rw [he]; exact hu)).trans (by rw [hm])
    · rcases opening_cases .rdPend (.read a) (rmwReadHalf a fun x => writtenByte x i) s with ⟨-, -, ho⟩ | ho <;>
        rw [ho] at h
      · cases h; rfl
      · rcases rmwReadHalf_cases a (fun x => writtenByte x i) s with ⟨v, d, hr⟩ | ⟨-, hr⟩ | hr <;> rw [hr] at h
        · rcases following_cases .wrPend (.write a (writtenByte v i)) (lastWrite a (writtenByte v i)) { s with
            phase := .rdPend, bus := none, tmp := some v, memory := (takeTurn s).2.memory,
            turns := (takeTurn s).2.turns, history := s.history ++ [.read a v], draws := d } with ⟨-, hf⟩ | ⟨-, hf⟩ <;>
            simp only [hf] at h
          · cases h; exact hb.1
          · exact (lastWrite_memory hxa h (takeTurn_memory_wf hw) hb.2).trans hb.1
        · cases h; exact hb.1
        · cases h; exact hb.1
  · rename_i a hra hwa
    rcases opening_cases .wrPend (.write a (writtenByte 0 i)) (lastWrite a (writtenByte 0 i)) s with ⟨-, -, ho⟩ | ho <;>
      rw [writeScript, ho] at h
    · cases h; rfl
    · exact lastWrite_memory (hx _ hwa) h hw hu
  · cases h

/-- The construction push changes no byte but those its writes store. -/
theorem pushScript_memory (ws : List PushWrite) (n : Nat) (s t : State) (x : Byte) (h : pushScript ws n s = .next t)
    (hw : Memory.wf s.memory) (hu : Untouched x s) (hx : ∀ w ∈ ws, x ≠ w.addr) :
    Memory.read t.memory x = Memory.read s.memory x := by
  induction ws generalizing n s with
  | nil => cases h; rfl
  | cons w rest ih =>
    have hb := takeTurn_untouched (s := countPush n s) hu hw
    have hwf := takeTurn_memory_wf (s := countPush n s) hw
    have hsp := (spaceAfterWrite_other s.env w.data (hx w (by simp)) hwf).trans hb.1
    have hswf := spaceAfterWrite_wf s.env w.addr w.data hwf
    have hm' : ∀ mm, (mm = (takeTurn (countPush n s)).2.memory ∨
        mm = spaceAfterWrite s.env (takeTurn (countPush n s)).2.memory w.addr w.data) →
        Memory.read mm x = Memory.read s.memory x ∧ Memory.wf mm := by
      rintro mm (rfl | rfl)
      · exact ⟨hb.1, hwf⟩
      · exact ⟨hsp, hswf⟩
    rcases pushScript_cons_cases w rest n s with ⟨m, hm, ⟨w', rest', -, -, hr⟩ | ⟨-, hr⟩⟩ | ⟨-, m, hm, hr⟩ | hr <;>
      rw [hr] at h
    · cases h; exact (hm' m hm).1
    · exact (ih _ _ h (hm' m hm).2 hb.2 (fun w' hw' => hx w' (by simp [hw']))).trans (hm' m hm).1
    · cases h; exact (hm' m hm).1
    · cases h; exact hb.1

/-- CONSTRUCT goes on with its push from write number `n`: reading a bank mode or an index that holds no value records a fault
(U9). -/
structure PushesOn (n : Fin 14) (s u : State) : Prop where
  eq : u = { s with idx := some n, faults := u.faults }
  faults : s.faults <+: u.faults
  clean : s.bankMode ≠ none → s.idx ≠ none → u.faults = s.faults ∧ s.idx = some n

theorem pushesOn (s : State) : PushesOn (idxOf (noteMode s)) s (noteIdx (noteMode s)) := by
  refine ⟨?_, (note_faults s).1.trans (note_faults _).2.2.1, fun hm hi => ?_⟩
  · have h1 := noteMode_eq s
    have h2 := noteIdx_eq (noteMode s)
    generalize noteIdx (noteMode s) = w, idxOf (noteMode s) = n at h2 ⊢
    rw [h1] at h2
    exact h2
  · obtain ⟨m, hm⟩ := Option.ne_none_iff_exists'.mp hm
    obtain ⟨n, hi⟩ := Option.ne_none_iff_exists'.mp hi
    rw [noteMode_some hm, noteIdx_some hi, idxOf_some hi]
    exact ⟨rfl, hi⟩

/-- Everything CONSTRUCT can be: refused, ended by the bank-bit check, the push from its first write, or the push from the write
in progress. -/
theorem exec_construct_cases (a b : PortConfig) (s : State) :
    (∃ r, exec (.construct a b) s = .refused r) ∨
    (Fresh s ∧ exec (.construct a b) s = .next (respond 0x00 .bankMismatch (accept (encode (.construct a b)) s))) ∨
    (Fresh s ∧ exec (.construct a b) s = pushFromStart (pushWrites s.config (derivedMode s.config a b) a b)
      (cacheMode (derivedMode s.config a b) (accept (encode (.construct a b)) s))) ∨
    (∃ n u, s.phase ≠ .idle ∧ s.cmd = some (encode (.construct a b)) ∧ PushesOn n s u ∧
      exec (.construct a b) s = pushScript ((pushWrites s.config (modeOf s) a b).drop n.val) n.val u) := by
  by_cases hp : s.phase = .idle
  · cases hd : s.due with
    | some r => exact .inl ⟨.commandInProgress, by simp [exec, execConstruct, constructAdmission, hp, hd]⟩
    | none =>
      cases hi : s.initialized
      · refine .inr ?_
        by_cases hb : (s.config.bankMismatchCheck && bankBitsDiffer s.config a b) = true
        · exact .inl ⟨⟨hp, hd, hi⟩, by
            simp only [exec, execConstruct, constructAdmission, hp, hd, hi, constructFromStart, accept_config, hb]; rfl⟩
        · exact .inr (.inl ⟨⟨hp, hd, hi⟩, by
            simp only [exec, execConstruct, constructAdmission, hp, hd, hi, constructFromStart, accept_config, hb]; rfl⟩)
      · exact .inl ⟨.alreadyInitialized, by simp [exec, execConstruct, constructAdmission, hp, hd, hi]⟩
  · have hadm : constructAdmission (.construct a b) s = if s.cmd = some (encode (.construct a b)) then none
        else some .commandInProgress := by cases h : s.phase <;> simp_all [constructAdmission]
    by_cases hc : s.cmd = some (encode (.construct a b))
    · have hexec : exec (.construct a b) s = constructFromPush a b s := by
        simp only [exec, execConstruct, hadm, hc, if_true]
        cases h : s.phase <;> simp_all
      have hcf : (noteMode s).config = s.config := by rw [noteMode_eq]
      exact .inr (.inr (.inr ⟨_, _, hp, hc, pushesOn s, by rw [hexec, constructFromPush, withMode, hcf]⟩))
    · exact .inl ⟨.commandInProgress, by simp [exec, execConstruct, hadm, hc]⟩

end Sys2Proof.Machine
end

