-- ==== Sys2Proof/Laws/Step.lean ====
section
/-! SUPPORT. Everything a step can be, what a torn write leaves, the failing transport, and how little a script depends on
the word in `cmd`. -/

namespace Sys2Proof.Machine

/-! ### The block's move (R8) -/

/-- Where the block moves next, the next thing is its move. -/
theorem fetch_blockMoves {s u : State} (h : BlockMoves s u) : fetch s = blockMove u := by
  rcases h with ⟨hi, rfl⟩ | ⟨g, rest, hi, rfl⟩ | ⟨c, rest, hi, hm, rfl⟩
  · simp [fetch, hi]
  · simp [fetch, hi]
  · unfold HostMayPresent at hm
    cases hp : s.phase <;> cases hd : s.due <;> cases hq : s.presented <;> simp_all [fetch]

/-- The move in hand and the inputs are all that differs. -/
theorem BlockMoves.eq {s u : State} (h : BlockMoves s u) : u = { s with inputs := u.inputs, grain := u.grain } := by
  rcases h with ⟨-, rfl⟩ | ⟨g, rest, -, rfl⟩ | ⟨c, rest, -, -, rfl⟩ <;> rfl

/-- What happens next (R8): HOST's step, a reset, an ENV write, or the block's move. -/
theorem next_cases (s : State) :
    (∃ c rest, s.inputs = .command c :: rest ∧ HostMayPresent s ∧ step s = .next (hostPresents c (takeInput rest s))) ∨
    (∃ took rest, s.inputs = .reset took :: rest ∧ step s = .next (resetInput took (takeInput rest s))) ∨
    (∃ a v rest, s.inputs = .envWrite a v :: rest ∧ step s = .next (envWrites a v (takeInput rest s))) ∨
    ∃ u, BlockMoves s u := by
  cases hi : s.inputs with
  | nil => exact .inr (.inr (.inr ⟨_, .inl ⟨hi, rfl⟩⟩))
  | cons e rest =>
    cases e with
    | reset took => exact .inr (.inl ⟨took, rest, rfl, by simp [step, fetch, hi]⟩)
    | envWrite a v => exact .inr (.inr (.inl ⟨a, v, rest, rfl, by simp [step, fetch, hi]⟩))
    | seq g => exact .inr (.inr (.inr ⟨_, .inr (.inl ⟨g, rest, hi, rfl⟩)⟩))
    | command c =>
      by_cases hm : HostMayPresent s
      · obtain ⟨hp, hd, hq⟩ := id hm
        exact .inl ⟨c, rest, rfl, hm, by simp [step, fetch, hi, hp, hd, hq]⟩
      · exact .inr (.inr (.inr ⟨_, .inr (.inr ⟨c, rest, hi, hm, rfl⟩)⟩))

/-- The command in progress, as `cmd` reads, goes on. -/
def GoesOn (s u : State) : Prop :=
  (∃ why, decode (commandOf s) = .error why ∧ step s = .refused (.reservedWord why)) ∨
  ∃ i, decode (commandOf s) = .ok i ∧ step s = exec i (noteCmd u)

/-- While a command is in progress the block's move goes on with it. -/
theorem goesOn_pending {s u : State} (hp : s.phase ≠ .idle) (h : BlockMoves s u) : GoesOn s u := by
  have hu := h.eq
  have hc : commandOf u = commandOf s := by unfold commandOf; rw [hu]
  have hf : fetch s = inProgress u := by
    have hp : u.phase ≠ .idle := by rw [hu]; exact hp
    rw [fetch_blockMoves h, blockMove]
    cases hq : u.phase
    · exact absurd hq hp
    all_goals rfl
  unfold GoesOn step
  rw [hf, ← hc]
  unfold inProgress
  cases hd : decode (commandOf u) with
  | error why => exact .inl ⟨why, rfl, rfl⟩
  | ok i => exact .inr ⟨i, rfl, rfl⟩

/-- A response that is due is delivered by a move of its own. -/
theorem step_delivers {s u : State} {r : Response} (h : BlockMoves s u) (hp : s.phase = .idle) (hd : s.due = some r) :
    step s = .next (deliver u) := by
  have hu := h.eq
  have hp : u.phase = .idle := by rw [hu]; exact hp
  have hd : u.due = some r := by rw [hu]; exact hd
  simp [step, fetch_blockMoves h, blockMove, hp, hd]

/-- In IDLE, no response left to deliver, the block's move is what the command port gives it. -/
theorem step_idle {s u : State} (h : BlockMoves s u) (hp : s.phase = .idle) (hd : s.due = none) :
    (s.presented = none ∧ step s = .next u) ∨
    (∃ c why, s.presented = some c ∧ decode c = .error why ∧ step s = .refused (.reservedWord why)) ∨
    ∃ c i, s.presented = some c ∧ decode c = .ok i ∧ step s = exec i (takePresented u) := by
  have hu := h.eq
  have hp : u.phase = .idle := by rw [hu]; exact hp
  have hd : u.due = none := by rw [hu]; exact hd
  have hq : u.presented = s.presented := by rw [hu]
  have hf : fetch s = acceptPresented u := by simp [fetch_blockMoves h, blockMove, hp, hd]
  unfold step
  rw [hf, ← hq]
  unfold acceptPresented
  cases hq : u.presented with
  | none => exact .inl ⟨rfl, rfl⟩
  | some c =>
    cases hc : decode c with
    | error why => exact .inr (.inl ⟨c, why, rfl, hc, by simp [hc]⟩)
    | ok i => exact .inr (.inr ⟨c, i, rfl, hc, by simp [hc]⟩)

/-- Everything the block's move can be: the delivery of a response, what the command port gives it in IDLE, or the command in
progress. -/
theorem step_blockMoves {s u : State} (h : BlockMoves s u) :
    (s.phase = .idle ∧ (∃ r, s.due = some r) ∧ step s = .next (deliver u)) ∨
    (s.phase = .idle ∧ s.due = none ∧
      ((s.presented = none ∧ step s = .next u) ∨
        (∃ c why, s.presented = some c ∧ decode c = .error why ∧ step s = .refused (.reservedWord why)) ∨
        ∃ c i, s.presented = some c ∧ decode c = .ok i ∧ step s = exec i (takePresented u))) ∨
    (s.phase ≠ .idle ∧ GoesOn s u) := by
  by_cases hp : s.phase = .idle
  · cases hd : s.due with
    | some r => exact .inl ⟨hp, ⟨r, rfl⟩, step_delivers h hp hd⟩
    | none => exact .inr (.inl ⟨hp, rfl, step_idle h hp hd⟩)
  · exact .inr (.inr ⟨hp, goesOn_pending hp h⟩)

/-- Everything a step that answers a next state can be: HOST's, ENV's or the reset input's, a delivery, a wait in IDLE, or the
execution of the command at the command port or in progress. -/
theorem step_next_cases {s t : State} (h : step s = .next t) :
    (∃ c rest, s.inputs = .command c :: rest ∧ HostMayPresent s ∧ t = hostPresents c (takeInput rest s)) ∨
    (∃ took rest, s.inputs = .reset took :: rest ∧ t = resetInput took (takeInput rest s)) ∨
    (∃ a v rest, s.inputs = .envWrite a v :: rest ∧ t = envWrites a v (takeInput rest s)) ∨
    ∃ u, BlockMoves s u ∧
      ((s.phase = .idle ∧ (∃ r, s.due = some r) ∧ t = deliver u) ∨
        (s.phase = .idle ∧ s.due = none ∧ s.presented = none ∧ t = u) ∨
        (∃ c i, s.phase = .idle ∧ s.due = none ∧ s.presented = some c ∧ decode c = .ok i ∧
          exec i (takePresented u) = .next t) ∨
        ∃ i, s.phase ≠ .idle ∧ decode (commandOf s) = .ok i ∧ exec i (noteCmd u) = .next t) := by
  rcases next_cases s with ⟨c, rest, hi, hm, hs⟩ | ⟨took, rest, hi, hs⟩ | ⟨a, v, rest, hi, hs⟩ | ⟨u, hu⟩
  · rw [hs] at h; cases h; exact .inl ⟨c, rest, hi, hm, rfl⟩
  · rw [hs] at h; cases h; exact .inr (.inl ⟨took, rest, hi, rfl⟩)
  · rw [hs] at h; cases h; exact .inr (.inr (.inl ⟨a, v, rest, hi, rfl⟩))
  · refine .inr (.inr (.inr ⟨u, hu, ?_⟩))
    rcases step_blockMoves hu with ⟨hp, hr, hs⟩ | ⟨hp, hd, ⟨hq, hs⟩ | ⟨c, why, hq, hc, hs⟩ | ⟨c, i, hq, hc, hs⟩⟩ |
        ⟨hp, ⟨why, -, hs⟩ | ⟨i, hc, hs⟩⟩ <;> rw [hs] at h <;> try cases h
    · exact .inl ⟨hp, hr, rfl⟩
    · exact .inr (.inl ⟨hp, hd, hq, rfl⟩)
    · exact .inr (.inr (.inl ⟨c, i, hp, hd, hq, hc, h⟩))
    · exact .inr (.inr (.inr ⟨i, hp, hc, h⟩))

/-- DESTRUCT is refused, or clears the flag and responds. -/
theorem exec_destruct_cases (s : State) :
    (∃ r, exec .destruct s = .refused r) ∨ (s.phase = .idle ∧ s.due = none ∧ s.initialized = true ∧
      exec .destruct s = .next (respond 0x00 .ok (setLifecycle false (accept (encode .destruct) s)))) := by
  cases hp : s.phase <;> cases hd : s.due <;> cases hi : s.initialized <;> simp [exec, execDestruct, hp, hd, hi]

theorem ScriptFrame.took {b : Bool} {i : Instr} {s u t : State} (hu : Took i s u) (h : ScriptFrame b u t) :
    ScriptFrame b s t := by
  rw [hu.eq] at h
  obtain ⟨⟨f1, f2, f3, f4, f5, f6, f7⟩, h2, h3, h4⟩ := h
  exact ⟨⟨f1, f2, f3, f4, f5, f6, f7⟩, h2, h3, h4⟩

/-- A command that goes on is CONSTRUCT, is DESTRUCT, or keeps the frame of its script. -/
theorem exec_next_cases (i : Instr) (s t : State) (h : exec i s = .next t) :
    (∃ a b, i = .construct a b) ∨ i = .destruct ∨
      ∃ m, ScriptFrame ((readAddress s.config m i).isNone || (writeAddress s.config m i).isNone) s t := by
  by_cases hc : ∃ a b, i = .construct a b
  · exact .inl hc
  by_cases hd : i = .destruct
  · exact .inr (.inl hd)
  have hc : ∀ a b, i ≠ .construct a b := fun a b h => hc ⟨a, b, h⟩
  refine .inr (.inr ?_)
  cases hw : i.wellFormed with
  | false =>
    rw [exec_illFormed hw] at h
    obtain ⟨rfl, -⟩ := illFormedEnd_next h
    refine ⟨.common, ?_⟩
    unfold Machine.present
    cases s.phase <;>
      exact ⟨⟨rfl, rfl, rfl, rfl, rfl, rfl, rfl⟩, List.prefix_refl _, .inr ⟨rfl, rfl⟩, fun _ => .inr ⟨rfl, rfl⟩⟩
  | true =>
    rw [exec_eq_operate hc hd hw] at h
    rcases operate_cases i (scriptOf i) s with ⟨-, -, -, ho⟩ | ⟨-, ho⟩ | ⟨u, hu, ho⟩ <;> rw [ho] at h <;> try cases h
    have hc : u.config = s.config := by rw [hu.eq]
    exact ⟨modeOf s, by simpa only [hc] using (scriptOf_frame h).took hu⟩

/-- What reset leaves of an outstanding write (R172). -/
theorem tornWrite_cases (took : Bool) (s : State) :
    ∃ m, tornWrite took s = { s with memory := m } ∧
      (m = s.memory ∨ ∃ a v, s.bus = some (.write a v) ∧ took = true ∧ m = Memory.write s.memory a v) := by
  unfold tornWrite
  split
  · rename_i a v hb
    rw [absorb_eq]
    refine ⟨_, rfl, ?_⟩
    cases he : s.env
    · exact .inl rfl
    · exact .inr ⟨a, v, hb, rfl, rfl⟩
  · exact ⟨_, rfl, .inl rfl⟩

/-! ### The word in `cmd` -/

/-- A write does not depend on the word in `cmd`. -/
theorem writeByte_cmd (ph : Phase) (a v : Byte) (s : State) :
    (∃ t : State, t.phase = ph ∧ ∀ c, writeByte ph a v (accept c s) = .done () (accept c t)) ∨
    (∃ t : State, t.phase = ph ∧ ∀ c, writeByte ph a v (accept c s) = .failed (accept c t)) ∨
    ∃ t : State, t.phase = ph ∧ ∀ c, writeByte ph a v (accept c s) = .waiting (accept c t) := by
  have hf := takeTurn_frame s
  have hc : (takeTurn s).2.config = s.config := by rw [hf]
  unfold writeByte
  simp only [takeTurn_hold, takeTurn_accept]
  cases (takeTurn s).1 with
  | ok =>
    exact .inl ⟨settle (.write a v) (absorb a v (hold ph (.write a v) (takeTurn s).2)), by simp [absorb_eq],
      fun c => by simp only [absorb_eq]; rfl⟩
  | busErr took =>
    cases ht : s.config.transportErrors <;> cases took
    · exact .inl ⟨settle (.write a v) (hold ph (.write a v) (takeTurn s).2), rfl, fun c => by simp [hc, ht]; rfl⟩
    · exact .inl ⟨settle (.write a v) (absorb a v (hold ph (.write a v) (takeTurn s).2)), by simp [absorb_eq],
        fun c => by simp [absorb_eq, hc, ht]; rfl⟩
    · exact .inr (.inl ⟨settle (.writeFailed a v) (hold ph (.write a v) (takeTurn s).2), rfl,
        fun c => by simp [hc, ht]; rfl⟩)
    · exact .inr (.inl ⟨settle (.writeFailed a v) (absorb a v (hold ph (.write a v) (takeTurn s).2)),
        by simp [absorb_eq], fun c => by simp [absorb_eq, hc, ht]; rfl⟩)
  | late => exact .inr (.inr ⟨hold ph (.write a v) (takeTurn s).2, rfl, fun c => rfl⟩)
  | never => exact .inr (.inr ⟨hold ph (.write a v) (takeTurn s).2, rfl, fun c => rfl⟩)

/-- A read does not depend on the word in `cmd`. -/
theorem readByte_cmd (a : Byte) (s : State) :
    (∃ (v : Byte) (t : State), t.phase = .rdPend ∧ t.grain = s.grain ∧
      ∀ c, readByte a (accept c s) = .done v (accept c t)) ∨
    (∃ t : State, ∀ c, readByte a (accept c s) = .failed (accept c t)) ∨
    ∃ t : State, t.phase = .rdPend ∧ ∀ c, readByte a (accept c s) = .waiting (accept c t) := by
  have hf := takeTurn_frame s
  have hc : (takeTurn s).2.config = s.config := by rw [hf]
  have hg : (takeTurn s).2.grain = s.grain := by rw [hf]
  unfold readByte
  simp only [takeTurn_hold, takeTurn_accept]
  cases (takeTurn s).1 with
  | ok =>
    refine .inl ⟨(answer a (hold .rdPend (.read a) (takeTurn s).2)).1,
      settle (.read a (answer a (hold .rdPend (.read a) (takeTurn s).2)).1)
        (answer a (hold .rdPend (.read a) (takeTurn s).2)).2, by rw [answer_frame]; rfl, by rw [answer_frame]; exact hg,
      fun c => ?_⟩
    unfold answer
    cases he : (takeTurn s).2.env <;> simp [he] <;> first | rfl | exact ⟨rfl, rfl⟩
  | busErr took =>
    cases ht : s.config.transportErrors
    · exact .inl ⟨freeByte a (hold .rdPend (.read a) (takeTurn s).2),
        settle (.read a (freeByte a (hold .rdPend (.read a) (takeTurn s).2)))
          (advance (hold .rdPend (.read a) (takeTurn s).2)), rfl, hg, fun c => by simp [hc, ht]; exact ⟨rfl, rfl⟩⟩
    · exact .inr (.inl ⟨settle (.readFailed a) (hold .rdPend (.read a) (takeTurn s).2), fun c => by simp [hc, ht]; rfl⟩)
  | late => exact .inr (.inr ⟨hold .rdPend (.read a) (takeTurn s).2, rfl, fun c => rfl⟩)
  | never => exact .inr (.inr ⟨hold .rdPend (.read a) (takeTurn s).2, rfl, fun c => rfl⟩)

/-- The response at the port and the one due do not depend on the word in `cmd`. -/
theorem respond_accept (v : Byte) (st : Status) (c c' : Command) (s : State) :
    respond v st (accept c s) = respond v st (accept c' s) := rfl

/-- A script gives the same next state whatever word is in `cmd`, but for that word while the command is in progress. -/
def CmdFree (k : State → Host.Outcome State Fault Refusal) (s : State) : Prop :=
  ∃ t : State, (t.phase = .idle ∧ ∀ c, k (accept c s) = .next t) ∨
    (t.phase ≠ .idle ∧ ∀ c, k (accept c s) = .next { t with cmd := some c })

theorem cmdFree_hold {ph : Phase} (hp : ph ≠ .idle) (r : BusRequest) (s : State) :
    CmdFree (fun u => .next (hold ph r u)) s :=
  ⟨hold ph r (accept ⟨0, 0⟩ s), .inr ⟨by simpa using hp, fun _ => rfl⟩⟩

theorem lastWrite_cmdFree (a v : Byte) (s : State) : CmdFree (lastWrite a v) s := by
  unfold CmdFree lastWrite
  rcases writeByte_cmd .wrPend a v s with ⟨t, hp, h⟩ | ⟨t, hp, h⟩ | ⟨t, hp, h⟩ <;> simp only [h]
  · exact ⟨respond 0x00 .ok (accept ⟨0, 0⟩ t), .inl ⟨rfl, fun _ => rfl⟩⟩
  · exact ⟨respond 0x00 .transportFailure (accept ⟨0, 0⟩ t), .inl ⟨rfl, fun _ => rfl⟩⟩
  · exact ⟨accept ⟨0, 0⟩ t, .inr ⟨by simp [hp], fun _ => rfl⟩⟩

theorem opening_cmdFree {ph : Phase} {r : BusRequest} {k : State → Host.Outcome State Fault Refusal} {s : State}
    (hp : ph ≠ .idle) (h : CmdFree k s) : CmdFree (opening ph r k) s := by
  by_cases hs : s.phase = .idle ∧ s.grain = .event
  · obtain ⟨t, ht⟩ := cmdFree_hold hp r s
    exact ⟨t, by simpa [opening, hs.1, hs.2] using ht⟩
  · obtain ⟨t, ht⟩ := h
    exact ⟨t, by simpa [opening, hs] using ht⟩

theorem following_cmdFree {ph : Phase} {r : BusRequest} {k : State → Host.Outcome State Fault Refusal} {s : State}
    (hp : ph ≠ .idle) (h : CmdFree k s) : CmdFree (following ph r k) s := by
  cases hg : s.grain
  · obtain ⟨t, ht⟩ := cmdFree_hold hp r s
    exact ⟨t, by simpa [following, hg] using ht⟩
  · obtain ⟨t, ht⟩ := h
    exact ⟨t, by simpa [following, hg] using ht⟩

theorem readScript_cmdFree (a : Byte) (post : Byte → Byte) (s : State) : CmdFree (readScript a post) s := by
  refine opening_cmdFree (by simp) ?_
  unfold CmdFree lastRead
  rcases readByte_cmd a s with ⟨v, t, hp, -, h⟩ | ⟨t, h⟩ | ⟨t, hp, h⟩ <;> simp only [h]
  · exact ⟨respond (post v) .ok (accept ⟨0, 0⟩ t), .inl ⟨rfl, fun _ => rfl⟩⟩
  · exact ⟨respond 0x00 .transportFailure (accept ⟨0, 0⟩ t), .inl ⟨rfl, fun _ => rfl⟩⟩
  · exact ⟨accept ⟨0, 0⟩ t, .inr ⟨by simp [hp], fun _ => rfl⟩⟩

theorem writeScript_cmdFree (a v : Byte) (s : State) : CmdFree (writeScript a v) s :=
  opening_cmdFree (by simp) (lastWrite_cmdFree a v s)

/-- A read-modify-write from its acceptance. -/
theorem rmwScript_cmdFree (a : Byte) (f : Byte → Byte) {s : State} (hs : s.phase = .idle) : CmdFree (rmwScript a f) s := by
  have hr : CmdFree (opening .rdPend (.read a) (rmwReadHalf a f)) s := by
    refine opening_cmdFree (by simp) ?_
    unfold CmdFree rmwReadHalf
    rcases readByte_cmd a s with ⟨v, t, hp, hg, h⟩ | ⟨t, h⟩ | ⟨t, hp, h⟩ <;> simp only [h]
    · obtain ⟨u, hu⟩ := following_cmdFree (ph := .wrPend) (r := .write a (f v)) (by simp)
        (lastWrite_cmdFree a (f v) (latchTmp v t))
      exact ⟨u, hu⟩
    · exact ⟨respond 0x00 .transportFailure (accept ⟨0, 0⟩ t), .inl ⟨rfl, fun _ => rfl⟩⟩
    · exact ⟨accept ⟨0, 0⟩ t, .inr ⟨by simp [hp], fun _ => rfl⟩⟩
  obtain ⟨t, ht⟩ := hr
  refine ⟨t, ?_⟩
  have he : ∀ c, rmwScript a f (accept c s) = opening .rdPend (.read a) (rmwReadHalf a f) (accept c s) := fun c => by
    rw [rmwScript_eq, if_neg (by simp [hs])]
  simpa only [he] using ht

/-! ### A transport that fails, or has not completed, at a given transaction -/

/-- The turn at which the next transaction fails. -/
theorem failsAt_turn {took : Bool} {s : State} (h : FailsAt 0 took s) :
    ∃ t rest, s.turns = t :: rest ∧ t.completion = .busErr took := by
  obtain ⟨-, t, ht, htc⟩ := h
  cases hs : s.turns with
  | nil => simp [hs] at ht
  | cons u rest =>
    simp only [hs, List.getElem?_cons_zero, Option.some.injEq] at ht
    exact ⟨u, rest, rfl, ht ▸ htc⟩

/-- A read whose turn is `bus_err`, seen by the block. -/
theorem readByte_fails {a : Byte} {took : Bool} {s : State} (hte : s.config.transportErrors = true)
    (hf : FailsAt 0 took s) : readByte a s = .failed { s with
      phase := .rdPend
      bus := none
      memory := spaceAt 0 s
      turns := s.turns.tail
      history := s.history ++ [.readFailed a] } := by
  obtain ⟨t, rest, hts, htc⟩ := failsAt_turn hf
  unfold readByte
  simp only [takeTurn_hold]
  rw [takeTurn_of_cons hts (by simp [htc])]
  simp [htc, hte, settle, hold, hts, spaceAt, pokesAt]

/-- A write whose turn is `bus_err`, seen by the block. -/
theorem writeByte_fails {ph : Phase} {a v : Byte} {took : Bool} {s : State} (hte : s.config.transportErrors = true)
    (hf : FailsAt 0 took s) : ∃ mm, writeByte ph a v s = .failed { s with
      phase := ph
      bus := none
      memory := mm
      turns := s.turns.tail
      history := s.history ++ [.writeFailed a v] } := by
  obtain ⟨t, rest, hts, htc⟩ := failsAt_turn hf
  unfold writeByte
  simp only [takeTurn_hold]
  rw [takeTurn_of_cons hts (by simp [htc])]
  simp only [htc]
  cases took
  · exact ⟨_, by simp [hte, settle, hold, hts]; rfl⟩
  · simp only [absorb_eq]
    exact ⟨_, by simp [hte, settle, hold, hts]; rfl⟩

theorem failsAt_next {n : Nat} {took : Bool} {s t : State} (h : FailsAt (n + 1) took s) (ht : t.turns = s.turns.tail) :
    FailsAt n took t := by
  obtain ⟨h1, u, h2, h3⟩ := h
  refine ⟨completes_next h1 ht, u, ?_, h3⟩
  rw [ht]
  cases hs : s.turns <;> simp_all

theorem waitsAt_next {n : Nat} {s t : State} (h : WaitsAt (n + 1) s) (ht : t.turns = s.turns.tail) : WaitsAt n t := by
  obtain ⟨h1, u, h2, h3⟩ := h
  refine ⟨completes_next h1 ht, u, ?_, h3⟩
  rw [ht]
  cases hs : s.turns <;> simp_all

/-- The construction push at the grain of commands, up to a write that fails. -/
theorem pushScript_fails (ws : List PushWrite) (k n : Nat) (took : Bool) (s : State) (hg : s.grain = .command)
    (hf : FailsAt n took s) (hte : s.config.transportErrors = true) (hn : n < ws.length) :
    ∃ t w, pushScript ws k s = .next t ∧ t.initialized = s.initialized ∧ t.bankMode = s.bankMode ∧
      Answers 0x00 .transportFailure t ∧ ws[n]? = some w ∧
      t.history = s.history ++ ((ws.take n).map
          (fun w => Transaction.write w.addr w.data)) ++ [.writeFailed w.addr w.data] := by
  induction ws generalizing n k s with
  | nil => simp at hn
  | cons w rest ih =>
    cases n with
    | zero =>
      obtain ⟨mm, hmm⟩ := writeByte_fails (ph := .cfgPend) (a := w.addr) (v := w.data) (s := countPush k s) hte hf
      rw [pushScript, hmm]
      refine ⟨_, w, rfl, ?_⟩
      rw [endInError_eq, respond_command (by exact hg)]
      exact ⟨rfl, rfl, ⟨rfl, rfl, rfl, rfl, rfl, rfl, rfl, rfl⟩, rfl, by simp⟩
    | succ n =>
      rw [pushScript_cons_completes (k := n) hg hf.1]
      obtain ⟨t, w', h1, h2, h3, h4, h5, h6⟩ := ih (k + 1) n { s with
        phase := .cfgPend, idx := some (Fin.ofNat 14 k), bus := none,
        memory := spaceAfterWrite s.env (spaceAt 0 s) w.addr w.data, turns := s.turns.tail,
        history := s.history ++ [.write w.addr w.data] } hg (failsAt_next hf rfl) hte (by simpa using hn)
      exact ⟨t, w', h1, h2, h3, h4, by simpa using h5, by rw [h6]; simp⟩

/-- The construction push at the grain of commands, up to a write that has not completed. -/
theorem pushScript_waits (ws : List PushWrite) (k n : Nat) (s : State) (hg : s.grain = .command) (hw : WaitsAt n s)
    (hn : n < ws.length) :
    ∃ w mm tu, ws[n]? = some w ∧ pushScript ws k s = .next { s with
      phase := .cfgPend, idx := some (Fin.ofNat 14 (k + n)), bus := some (.write w.addr w.data), memory := mm,
      turns := tu, history := s.history ++ (ws.take n).map (fun w => Transaction.write w.addr w.data) } := by
  induction ws generalizing n k s with
  | nil => simp at hn
  | cons w rest ih =>
    cases n with
    | zero =>
      obtain ⟨-, t, ht, htc⟩ := hw
      have hl : (takeTurn (countPush k s)).1 = .late := by
        cases hs : s.turns with
        | nil => simp [hs] at ht
        | cons u rest => simp only [hs] at ht; simp at ht; simp [takeTurn, hs, ht, htc]
      refine ⟨w, (takeTurn (countPush k s)).2.memory, (takeTurn (countPush k s)).2.turns, rfl, ?_⟩
      have hf := takeTurn_frame (countPush k s)
      simp only [pushScript, writeByte, takeTurn_hold, hl]
      rw [hf]
      simp [hold, countPush]
    | succ n =>
      rw [pushScript_cons_completes (k := n) hg hw.1]
      obtain ⟨w', mm, tu, h1, h2⟩ := ih (k + 1) n { s with
        phase := .cfgPend, idx := some (Fin.ofNat 14 k), bus := none,
        memory := spaceAfterWrite s.env (spaceAt 0 s) w.addr w.data, turns := s.turns.tail,
        history := s.history ++ [.write w.addr w.data] } hg (waitsAt_next hw rfl) (by simpa using hn)
      refine ⟨w', mm, tu, by simpa using h1, ?_⟩
      rw [h2]
      simp [Nat.add_assoc, Nat.add_comm 1 n]

end Sys2Proof.Machine
end

