-- ==== Sys2Proof/Laws/Outcome.lean ====
section
/-! SUPPORT. Where a command stands after a step: everything a script, the construction push and a command can leave, said
once. -/

namespace Sys2Proof.Machine

/-- What a step of a command leaves before its response: the block and its ports but for the transaction in hand, a register
space still in canonical form, and a longer history; at the grain of events by one transaction at most. `A` holds of the
addresses of the transactions added. -/
structure Went (A : Byte → Prop) (s u : State) : Prop where
  config : u.config = s.config
  initialized : u.initialized = s.initialized
  bankMode : u.bankMode = s.bankMode
  cmd : u.cmd = s.cmd
  rsp : u.rsp = s.rsp
  due : u.due = s.due
  awaited : u.awaited = s.awaited
  env : u.env = s.env
  presented : u.presented = s.presented
  inputs : u.inputs = s.inputs
  grain : u.grain = s.grain
  faults : u.faults = s.faults
  memory_wf : Memory.wf s.memory → Memory.wf u.memory
  history : ∃ l, u.history = s.history ++ l ∧ (∀ tr ∈ l, A (transactionAddr tr)) ∧ (s.grain = .event → l.length ≤ 1)

/-- The end of a command that is not CONSTRUCT: its response, OK or TransportFailure with `rsp_data` 0x00. -/
def Ends (A : Byte → Prop) (s t : State) : Prop :=
  ∃ u v st, t = respond v st u ∧ Went A s u ∧ u.bus = none ∧
    (st = .ok ∨ (st = .transportFailure ∧ v = 0x00 ∧ s.config.transportErrors = true))

/-- A command that is not CONSTRUCT stands at a transaction, its request outstanding. -/
def Stands (i : Instr) (m : BankMode) (s t : State) : Prop :=
  (t.phase = .rdPend ∧ ∃ a, readAddress s.config m i = some a ∧ t.bus = some (.read a)) ∨
  (t.phase = .wrPend ∧ ∃ a x, writeAddress s.config m i = some a ∧
    ((readAddress s.config m i).isSome = true → t.tmp = some x) ∧ t.bus = some (.write a (writtenByte x i)))

/-- The addresses a command other than CONSTRUCT has. -/
def OwnAddress (i : Instr) (m : BankMode) (c : Config) (x : Byte) : Prop :=
  readAddress c m i = some x ∨ writeAddress c m i = some x

theorem Went.refl (A : Byte → Prop) (s : State) : Went A s s :=
  ⟨rfl, rfl, rfl, rfl, rfl, rfl, rfl, rfl, rfl, rfl, rfl, rfl, id, [], by simp⟩

/-- A step that adds no transaction. -/
theorem Went.still {A : Byte → Prop} {s u : State} {mm : Memory} (hm : Memory.wf s.memory → Memory.wf mm)
    (hu : u = { s with
      phase := u.phase, tmp := u.tmp, idx := u.idx, bus := u.bus, turns := u.turns, draws := u.draws, memory := mm }) :
    Went A s u := by
  rw [hu]
  exact ⟨rfl, rfl, rfl, rfl, rfl, rfl, rfl, rfl, rfl, rfl, rfl, rfl, hm, [], by simp⟩

/-- A step that adds one transaction. -/
theorem Went.one {A : Byte → Prop} {s u : State} {mm : Memory} {tr : Transaction} (hA : A (transactionAddr tr))
    (hm : Memory.wf s.memory → Memory.wf mm)
    (hu : u = { s with
      phase := u.phase, tmp := u.tmp, idx := u.idx, bus := u.bus, turns := u.turns, draws := u.draws, memory := mm,
      history := s.history ++ [tr] }) :
    Went A s u := by
  rw [hu]
  exact ⟨rfl, rfl, rfl, rfl, rfl, rfl, rfl, rfl, rfl, rfl, rfl, rfl, hm, [tr], rfl, by simpa using hA, by simp⟩

/-- Two parts of one step, at the grain of commands or with no transaction in the first. -/
theorem Went.trans {A : Byte → Prop} {s u t : State} (h : Went A s u) (g : Went A u t)
    (hg : s.grain = .command ∨ u.history = s.history) : Went A s t := by
  obtain ⟨l, hl, hA, hn⟩ := h.history
  obtain ⟨l', hl', hA', hn'⟩ := g.history
  refine ⟨g.config.trans h.config, g.initialized.trans h.initialized, g.bankMode.trans h.bankMode, g.cmd.trans h.cmd,
    g.rsp.trans h.rsp, g.due.trans h.due, g.awaited.trans h.awaited, g.env.trans h.env, g.presented.trans h.presented,
    g.inputs.trans h.inputs, g.grain.trans h.grain, g.faults.trans h.faults,
    fun hw => g.memory_wf (h.memory_wf hw), l ++ l', by rw [hl', hl, List.append_assoc], ?_, fun he => ?_⟩
  · intro tr htr
    exact (List.mem_append.mp htr).elim (hA tr) (hA' tr)
  · rcases hg with hg | hg
    · simp [he] at hg
    · have : l = [] := by simpa [hg] using hl
      simpa [this] using hn' (h.grain.trans he)

theorem lastWrite_outcome {i : Instr} {m : BankMode} {a x : Byte} {s u t : State}
    (h : lastWrite a (writtenByte x i) u = .next t) (hw : writeAddress s.config m i = some a)
    (hx : (readAddress s.config m i).isSome = true → u.tmp = some x) (hu : Went (OwnAddress i m s.config) s u)
    (hg : s.grain = .command ∨ u.history = s.history) :
    Ends (OwnAddress i m s.config) s t ∨ (Went (OwnAddress i m s.config) s t ∧ Stands i m s t) := by
  have hA : OwnAddress i m s.config a := .inr hw
  have hc : u.config = s.config := hu.config
  have hm : ∀ mm, (mm = (takeTurn u).2.memory ∨
      mm = spaceAfterWrite u.env (takeTurn u).2.memory a (writtenByte x i)) → Memory.wf u.memory → Memory.wf mm := by
    rintro mm (rfl | rfl) hwf
    · exact takeTurn_memory_wf hwf
    · exact spaceAfterWrite_wf _ _ _ (takeTurn_memory_wf hwf)
  rcases lastWrite_cases a (writtenByte x i) u with ⟨mm, hmm, hr⟩ | ⟨hte, mm, hmm, hr⟩ | hr <;> rw [hr] at h <;> cases h
  · exact .inl ⟨_, _, _, rfl, hu.trans (.one (tr := .write a (writtenByte x i)) hA (hm mm hmm) rfl) hg, rfl, .inl rfl⟩
  · exact .inl ⟨_, _, _, rfl, hu.trans (.one (tr := .writeFailed a (writtenByte x i)) hA (hm mm hmm) rfl) hg, rfl,
      .inr ⟨rfl, rfl, hc ▸ hte⟩⟩
  · exact .inr ⟨hu.trans (.still takeTurn_memory_wf rfl) hg, .inr ⟨rfl, a, x, hw, hx, rfl⟩⟩

/-- The script of a command, from `s` or, at a write half, from where `tmp` has been read: everything it can leave is the end of
its command, or the command at one of its transactions. -/
theorem scriptOf_outcome {i : Instr} {m : BankMode} {s t : State} (h : scriptOf i m s = .next t) :
    ∃ v, (v = s ∨ (s.phase = .wrPend ∧ (readAddress s.config m i).isSome = true ∧ v = noteTmp s)) ∧
      (Ends (OwnAddress i m s.config) v t ∨ (Went (OwnAddress i m s.config) v t ∧ Stands i m v t)) := by
  by_cases hn : s.phase = .wrPend ∧ (∃ a, readAddress s.config m i = some a) ∧ ∃ b, writeAddress s.config m i = some b
  · obtain ⟨hp, ⟨a, hra⟩, b, hwa⟩ := hn
    obtain rfl := writeAddress_of_read hra hwa
    have hc : (noteTmp s).config = s.config := by rw [noteTmp_eq]
    have ht : (noteTmp s).tmp = some (tmpOf s) := by rw [noteTmp_eq]
    refine ⟨_, .inr ⟨hp, by simp [hra], rfl⟩, ?_⟩
    simp only [scriptOf, hra, hwa, rmwScript_eq, if_pos hp, rmwWriteHalf] at h
    rw [← hc]
    exact lastWrite_outcome h (hc ▸ hwa) (fun _ => ht) (.refl _ _) (.inr rfl)
  refine ⟨s, .inl rfl, ?_⟩
  unfold scriptOf at h
  split at h
  · rename_i a hra hwa
    have hA : OwnAddress i m s.config a := .inl hra
    rcases opening_cases .rdPend (.read a) (lastRead a fun v => responseByte v i) s with ⟨-, -, ho⟩ | ho <;>
      rw [readScript, ho] at h
    · cases h
      exact .inr ⟨.still id rfl, .inl ⟨rfl, a, hra, rfl⟩⟩
    · rcases lastRead_cases a (fun v => responseByte v i) s with ⟨v, d, hr⟩ | ⟨hte, hr⟩ | hr <;> rw [hr] at h <;> cases h
      · exact .inl ⟨_, _, _, rfl, .one (tr := .read a v) hA takeTurn_memory_wf rfl, rfl, .inl rfl⟩
      · exact .inl ⟨_, _, _, rfl, .one (tr := .readFailed a) hA takeTurn_memory_wf rfl, rfl, .inr ⟨rfl, rfl, hte⟩⟩
      · exact .inr ⟨.still takeTurn_memory_wf rfl, .inl ⟨rfl, a, hra, rfl⟩⟩
  · rename_i a b hra hwa
    obtain rfl := writeAddress_of_read hra hwa
    have hA : OwnAddress i m s.config a := .inl hra
    rw [rmwScript_eq] at h
    split at h
    · exact absurd ⟨‹_›, ⟨_, hra⟩, _, hwa⟩ hn
    · rcases opening_cases .rdPend (.read a) (rmwReadHalf a fun x => writtenByte x i) s with ⟨-, -, ho⟩ | ho <;>
        rw [ho] at h
      · cases h
        exact .inr ⟨.still id rfl, .inl ⟨rfl, a, hra, rfl⟩⟩
      · rcases rmwReadHalf_cases a (fun x => writtenByte x i) s with ⟨v, d, hr⟩ | ⟨hte, hr⟩ | hr <;> rw [hr] at h
        · have hu : Went (OwnAddress i m s.config) s { s with
              phase := .rdPend, bus := none, tmp := some v, memory := (takeTurn s).2.memory,
              turns := (takeTurn s).2.turns, history := s.history ++ [.read a v], draws := d } :=
            .one (tr := .read a v) hA takeTurn_memory_wf rfl
          rcases following_cases .wrPend (.write a (writtenByte v i)) (lastWrite a (writtenByte v i)) { s with
              phase := .rdPend, bus := none, tmp := some v, memory := (takeTurn s).2.memory,
              turns := (takeTurn s).2.turns, history := s.history ++ [.read a v], draws := d } with ⟨-, hf⟩ | ⟨hg, hf⟩ <;>
            simp only [hf] at h
          · cases h
            exact .inr ⟨.one (tr := .read a v) hA takeTurn_memory_wf rfl, .inr ⟨rfl, a, v, hwa, fun _ => rfl, rfl⟩⟩
          · exact lastWrite_outcome h hwa (fun _ => rfl) hu (.inl hg)
        · cases h
          exact .inl ⟨_, _, _, rfl, .one (tr := .readFailed a) hA takeTurn_memory_wf rfl, rfl, .inr ⟨rfl, rfl, hte⟩⟩
        · cases h
          exact .inr ⟨.still takeTurn_memory_wf rfl, .inl ⟨rfl, a, hra, rfl⟩⟩
  · rename_i a hra hwa
    rcases opening_cases .wrPend (.write a (writtenByte 0 i)) (lastWrite a (writtenByte 0 i)) s with ⟨-, -, ho⟩ | ho <;>
      rw [writeScript, ho] at h
    · cases h
      exact .inr ⟨.still id rfl, .inr ⟨rfl, a, 0, hwa, by simp [hra], rfl⟩⟩
    · exact lastWrite_outcome h hwa (by simp [hra]) (.refl _ s) (.inr rfl)
  · cases h

/-! ### The construction push -/

/-- The addresses of the fourteen construction writes. -/
def PushAddress (ws : List PushWrite) (x : Byte) : Prop := ∃ w ∈ ws, x = w.addr

/-- Where the push stands or has ended: all fourteen writes done, a write failed, or a write outstanding. -/
def Pushed (ws : List PushWrite) (s t : State) : Prop :=
  (∃ u, t = respond 0x00 .ok (setLifecycle true u) ∧ Went (PushAddress ws) s u ∧ u.bus = none) ∨
  (∃ u, t = respond 0x00 .transportFailure u ∧ Went (PushAddress ws) s u ∧ u.bus = none ∧
    s.config.transportErrors = true) ∨
  (Went (PushAddress ws) s t ∧ t.phase = .cfgPend ∧ ∃ (n : Fin 14) (w : PushWrite), t.idx = some n ∧
    ws[n.val]? = some w ∧ t.bus = some (.write w.addr w.data))

theorem Pushed.after {ws : List PushWrite} {s u t : State} (h : Went (PushAddress ws) s u)
    (hg : s.grain = .command ∨ u.history = s.history) (hp : Pushed ws u t) : Pushed ws s t := by
  rcases hp with ⟨v, ht, hw, hb⟩ | ⟨v, ht, hw, hb, hte⟩ | ⟨hw, hr⟩
  · exact .inl ⟨v, ht, h.trans hw hg, hb⟩
  · exact .inr (.inl ⟨v, ht, h.trans hw hg, hb, h.config ▸ hte⟩)
  · exact .inr (.inr ⟨h.trans hw hg, hr⟩)

/-- Everything the push can leave, from write number `k` on. -/
theorem pushScript_outcome {ws : List PushWrite} (hl : ws.length = 14) {k : Nat} (hk : k < 14) {s t : State}
    (h : pushScript (ws.drop k) k s = .next t) : Pushed ws s t := by
  generalize hn : 13 - k = n
  induction n generalizing k s with
  | zero =>
    obtain rfl : k = 13 := by omega
    have hlt : 13 < ws.length := by omega
    have hd : ws.drop 14 = [] := List.drop_of_length_le (by omega)
    rw [List.drop_eq_getElem_cons hlt, hd] at h
    have hA : PushAddress ws ws[13].addr := ⟨ws[13], List.getElem_mem hlt, rfl⟩
    have hm : ∀ mm, (mm = (takeTurn (countPush 13 s)).2.memory ∨
        mm = spaceAfterWrite s.env (takeTurn (countPush 13 s)).2.memory ws[13].addr ws[13].data) →
        Memory.wf s.memory → Memory.wf mm := by
      rintro mm (rfl | rfl) hwf
      · exact takeTurn_memory_wf (s := countPush 13 s) hwf
      · exact spaceAfterWrite_wf _ _ _ (takeTurn_memory_wf (s := countPush 13 s) hwf)
    rcases pushScript_cons_cases ws[13] [] 13 s with ⟨mm, hmm, ⟨w', rest', hr, -⟩ | ⟨-, hr⟩⟩ | ⟨hte, mm, hmm, hr⟩ | hr
    · cases hr
    · rw [hr] at h
      cases h
      exact .inl ⟨_, rfl, .one (tr := .write ws[13].addr ws[13].data) hA (hm mm hmm) rfl, rfl⟩
    · rw [hr] at h
      cases h
      exact .inr (.inl ⟨_, rfl, .one (tr := .writeFailed ws[13].addr ws[13].data) hA (hm mm hmm) rfl, rfl, hte⟩)
    · rw [hr] at h
      cases h
      exact .inr (.inr ⟨.still (takeTurn_memory_wf (s := countPush 13 s)) rfl, rfl, 13, ws[13], rfl,
        List.getElem?_eq_getElem hlt, rfl⟩)
  | succ n ih =>
    have hlt : k < ws.length := by omega
    have hlt' : k + 1 < ws.length := by omega
    rw [List.drop_eq_getElem_cons hlt] at h
    have hA : PushAddress ws ws[k].addr := ⟨ws[k], List.getElem_mem hlt, rfl⟩
    have hm : ∀ mm, (mm = (takeTurn (countPush k s)).2.memory ∨
        mm = spaceAfterWrite s.env (takeTurn (countPush k s)).2.memory ws[k].addr ws[k].data) →
        Memory.wf s.memory → Memory.wf mm := by
      rintro mm (rfl | rfl) hwf
      · exact takeTurn_memory_wf (s := countPush k s) hwf
      · exact spaceAfterWrite_wf _ _ _ (takeTurn_memory_wf (s := countPush k s) hwf)
    have hfin : ∀ j, j < 14 → (Fin.ofNat 14 j).val = j := fun j hj => by simp [Fin.ofNat, Nat.mod_eq_of_lt hj]
    rcases pushScript_cons_cases ws[k] (ws.drop (k + 1)) k s with
      ⟨mm, hmm, ⟨w', rest', hr', -, hr⟩ | ⟨hg, hr⟩⟩ | ⟨hte, mm, hmm, hr⟩ | hr <;> rw [hr] at h
    · cases h
      rw [List.drop_eq_getElem_cons hlt'] at hr'
      obtain ⟨rfl, -⟩ := List.cons.inj hr'
      refine .inr (.inr ⟨.one (tr := .write ws[k].addr ws[k].data) hA (hm mm hmm) rfl, rfl, Fin.ofNat 14 (k + 1), ws[k + 1],
        rfl, ?_, rfl⟩)
      rw [hfin _ (by omega)]
      exact List.getElem?_eq_getElem hlt'
    · have hne : ws.drop (k + 1) ≠ [] := fun he => by
        rw [List.drop_eq_nil_iff] at he
        omega
      have hg := hg.resolve_left hne
      exact (ih (by omega) h (by omega)).after (.one (tr := .write ws[k].addr ws[k].data) hA (hm mm hmm) rfl) (.inl hg)
    · cases h
      exact .inr (.inl ⟨_, rfl, .one (tr := .writeFailed ws[k].addr ws[k].data) hA (hm mm hmm) rfl, rfl, hte⟩)
    · cases h
      refine .inr (.inr ⟨.still (takeTurn_memory_wf (s := countPush k s)) rfl, rfl, Fin.ofNat 14 k, ws[k], rfl, ?_, rfl⟩)
      rw [hfin _ (by omega)]
      exact List.getElem?_eq_getElem hlt

/-- Everything the push can leave, from its first write. -/
theorem pushFromStart_outcome {ws : List PushWrite} (hl : ws.length = 14) {s t : State}
    (h : pushFromStart ws s = .next t) : Pushed ws s t := by
  rcases pushFromStart_cases ws s with ⟨w, rest, rfl, -, ho⟩ | ⟨-, ho⟩ <;> rw [ho] at h
  · cases h
    exact .inr (.inr ⟨.still id rfl, rfl, 0, w, rfl, rfl, rfl⟩)
  · exact pushScript_outcome hl (k := 0) (by omega) h

/-! ### A command -/

/-- A command that is neither CONSTRUCT nor DESTRUCT, from its acceptance or from where it stands, before the transaction in hand:
a bank mode, or at a write half a `tmp`, that holds no value has been read, which records a fault (U9). -/
structure Began (i : Instr) (m : BankMode) (s v : State) : Prop where
  eq : v = { s with cmd := some (encode i), rsp := v.rsp, tmp := v.tmp, faults := v.faults }
  accepted : s.phase = .idle → s.due = none ∧ s.initialized = true ∧ v.rsp = none
  goesOn : s.phase ≠ .idle → s.cmd = some (encode i) ∧ v.rsp = s.rsp
  faults : s.faults <+: v.faults
  clean : s.bankMode ≠ none → (s.phase = .wrPend → (readAddress s.config m i).isSome = true → s.tmp ≠ none) →
    v.faults = s.faults ∧ v.tmp = s.tmp

theorem Took.began {i : Instr} {m : BankMode} {s u v : State} (h : Took i s u)
    (hv : v = u ∨ (u.phase = .wrPend ∧ (readAddress u.config m i).isSome = true ∧ v = noteTmp u)) : Began i m s v := by
  have ht : u.tmp = s.tmp := by rw [h.eq]
  rcases hv with rfl | ⟨hp, hr, rfl⟩
  · exact ⟨by rw [h.eq], h.accepted, h.goesOn, h.faults, fun hm _ => ⟨h.clean hm, ht⟩⟩
  · have hr' : (noteTmp u).rsp = u.rsp := by rw [noteTmp_eq]
    have hp' : s.phase = .wrPend := by rw [h.eq] at hp; exact hp
    have hr : (readAddress s.config m i).isSome = true := by rw [h.eq] at hr; exact hr
    refine ⟨?_, fun hs => by rw [hr']; exact h.accepted hs, fun hs => by rw [hr']; exact h.goesOn hs,
      h.faults.trans (note_faults u).2.1, fun hm hx => ?_⟩
    · have h1 := h.eq
      have h2 := noteTmp_eq u
      generalize noteTmp u = w, tmpOf u = x at h2 ⊢
      rw [h1] at h2
      rw [h2]
    · obtain ⟨x, hx⟩ := Option.ne_none_iff_exists'.mp (hx hp' hr)
      rw [noteTmp_some (ht.trans hx)]
      exact ⟨h.clean hm, ht⟩

/-- Everything a command can leave: an error of its operands, the end of DESTRUCT, the end or a transaction of CONSTRUCT in a
mode, or the end or a transaction of another command in a mode, from its acceptance or from where it stood. -/
theorem exec_outcome {i : Instr} {s t : State} (h : exec i s = .next t) :
    (i.wellFormed = false ∧ s.config.pinCheck = true ∧ t = respond 0x00 .invalidPinIndex (present i s)) ∨
    (i = .destruct ∧ s.phase = .idle ∧ s.due = none ∧ s.initialized = true ∧
      t = respond 0x00 .ok (setLifecycle false (accept (encode .destruct) s))) ∨
    (∃ a b, i = .construct a b ∧
      ((Fresh s ∧ s.config.bankMismatchCheck = true ∧ bankBitsDiffer s.config a b = true ∧
          t = respond 0x00 .bankMismatch (accept (encode i) s)) ∨
        (Fresh s ∧ Pushed (pushWrites s.config (derivedMode s.config a b) a b)
          (cacheMode (derivedMode s.config a b) (accept (encode i) s)) t) ∨
        ∃ n u, s.phase ≠ .idle ∧ s.cmd = some (encode i) ∧ PushesOn n s u ∧
          Pushed (pushWrites s.config (modeOf s) a b) u t)) ∨
    (i.wellFormed = true ∧ (∀ a b, i ≠ .construct a b) ∧ i ≠ .destruct ∧ ∃ v, Began i (modeOf s) s v ∧
      (Ends (OwnAddress i (modeOf s) s.config) v t ∨
        (Went (OwnAddress i (modeOf s) s.config) v t ∧ Stands i (modeOf s) v t))) := by
  by_cases hc : ∃ a b, i = .construct a b
  · obtain ⟨a, b, rfl⟩ := hc
    refine .inr (.inr (.inl ⟨a, b, rfl, ?_⟩))
    rcases exec_construct_cases a b s with ⟨r, ho⟩ | ⟨hf, ho⟩ | ⟨hf, ho⟩ | ⟨n, u, hp, hcm, hu, ho⟩ <;>
      rw [ho] at h <;> try cases h
    · by_cases hb : s.config.bankMismatchCheck = true → bankBitsDiffer s.config a b = false
      · rw [exec_construct_fresh hf hb] at ho
        exact .inr (.inl ⟨hf, pushFromStart_outcome (pushWrites_length _ _ _ _) ho⟩)
      · obtain ⟨h1, h2⟩ := Classical.not_imp.mp hb
        exact .inl ⟨hf, h1, by simpa using h2, rfl⟩
    · exact .inr (.inl ⟨hf, pushFromStart_outcome (pushWrites_length _ _ _ _) h⟩)
    · exact .inr (.inr ⟨n, u, hp, hcm, hu, pushScript_outcome (pushWrites_length _ _ _ _) n.isLt h⟩)
  by_cases hd : i = .destruct
  · subst hd
    rcases exec_destruct_cases s with ⟨r, ho⟩ | ⟨hp, hdu, hi, ho⟩ <;> rw [ho] at h <;> cases h
    exact .inr (.inl ⟨rfl, hp, hdu, hi, rfl⟩)
  have hc : ∀ a b, i ≠ .construct a b := fun a b h => hc ⟨a, b, h⟩
  cases hw : i.wellFormed with
  | false =>
    rw [exec_illFormed hw] at h
    obtain ⟨rfl, hpc⟩ := illFormedEnd_next h
    exact .inl ⟨rfl, hpc, rfl⟩
  | true =>
    refine .inr (.inr (.inr ⟨rfl, hc, hd, ?_⟩))
    rw [exec_eq_operate hc hd hw] at h
    rcases operate_cases i (scriptOf i) s with ⟨-, -, -, ho⟩ | ⟨-, ho⟩ | ⟨u, hu, ho⟩ <;> rw [ho] at h <;> try cases h
    obtain ⟨v, hv, he⟩ := scriptOf_outcome h
    have hcf : u.config = s.config := by rw [hu.eq]
    exact ⟨v, hu.began hv, by rw [hcf] at he; exact he⟩

/-- What a command leaves of the state whatever it is: it writes no parameter, no grain, no command port and no input, HOST waits
as it did or the response is delivered (R9), and a recorded fault stays recorded (U9). -/
structure Kept (s t : State) : Prop where
  config : t.config = s.config
  grain : t.grain = s.grain
  presented : t.presented = s.presented
  inputs : t.inputs = s.inputs
  awaited : t.awaited = s.awaited ∨ (t.phase = .idle ∧ t.due = none ∧ t.awaited = false)
  faults : s.faults <+: t.faults

theorem Went.kept {A : Byte → Prop} {s t : State} (h : Went A s t) : Kept s t :=
  ⟨h.config, h.grain, h.presented, h.inputs, .inl h.awaited, h.faults ▸ List.prefix_refl _⟩

theorem Kept.respond {s t : State} (h : Kept s t) (ha : t.awaited = s.awaited) (v : Byte) (st : Status) :
    Kept s (respond v st t) :=
  ⟨h.config, h.grain, h.presented, h.inputs, ha ▸ respond_awaits v st t, h.faults⟩

theorem Went.respond {A : Byte → Prop} {s t : State} (h : Went A s t) (v : Byte) (st : Status) :
    Kept s (Machine.respond v st t) := h.kept.respond h.awaited v st

theorem Pushed.kept {ws : List PushWrite} {s t : State} (h : Pushed ws s t) : Kept s t := by
  rcases h with ⟨u, rfl, hw, -⟩ | ⟨u, rfl, hw, -⟩ | ⟨hw, -⟩
  · exact Kept.respond (t := setLifecycle true u)
      ⟨hw.config, hw.grain, hw.presented, hw.inputs, .inl hw.awaited, hw.faults ▸ List.prefix_refl _⟩ hw.awaited _ _
  · exact hw.respond _ _
  · exact hw.kept

/-- A state that differs from `s` in what a command's acceptance, or the reading of its registers, writes. -/
theorem Kept.from {s u t : State} (h : Kept u t)
    (he : u = { s with cmd := u.cmd, rsp := u.rsp, tmp := u.tmp, idx := u.idx, bankMode := u.bankMode, faults := u.faults })
    (hf : s.faults <+: u.faults) : Kept s t := by
  obtain ⟨h1, h2, h3, h4, h5, h6⟩ := h
  rw [he] at h1 h2 h3 h4 h5
  exact ⟨h1, h2, h3, h4, h5, hf.trans h6⟩

theorem exec_kept {i : Instr} {s t : State} (h : exec i s = .next t) : Kept s t := by
  have hs : Kept s s := ⟨rfl, rfl, rfl, rfl, .inl rfl, List.prefix_refl _⟩
  have ha : ∀ c, Kept s (accept c s) := fun c => ⟨rfl, rfl, rfl, rfl, .inl rfl, List.prefix_refl _⟩
  rcases exec_outcome h with ⟨-, -, rfl⟩ | ⟨-, -, -, -, rfl⟩ |
      ⟨a, b, -, ⟨-, -, -, rfl⟩ | ⟨-, hp⟩ | ⟨n, u, -, -, hu, hp⟩⟩ |
      ⟨-, -, -, v, hv, ⟨w, x, st, rfl, hw, -⟩ | ⟨hw, -⟩⟩
  · unfold present
    cases s.phase
    · exact (ha _).respond rfl _ _
    all_goals exact hs.respond rfl _ _
  · exact Kept.respond (s := s) (t := setLifecycle false (accept _ s)) ⟨rfl, rfl, rfl, rfl, .inl rfl, List.prefix_refl _⟩ rfl _ _
  · exact (ha _).respond rfl _ _
  · exact hp.kept.from rfl (List.prefix_refl _)
  · exact hp.kept.from (by rw [hu.eq]) hu.faults
  · exact (hw.respond x st).from (by rw [hv.eq]) hv.faults
  · exact hw.kept.from (by rw [hv.eq]) hv.faults

end Sys2Proof.Machine
end

