-- ==== Sys2Proof/Laws/PerInstr.lean ====
section
/-! SUPPORT. The per-instruction family OpcodeRow: the word the encoder gives a command selects the command's own row of the
opcode map, whatever its operands (R53, R62). -/

namespace Sys2Proof.Laws.OpcodeRow

open Sys2Proof

/-- The encoded word of `i`, masked with its row's mask, is its row's pattern. -/
def Statement (i : Instr) : Prop := i.pattern.selects (encode i).word

/-- A word of fields under a mask, bit by bit. -/
theorem of_bits {w m b : CommandWord} (h : ∀ k < 24, (w.getLsbD k && m.getLsbD k) = b.getLsbD k) : w &&& m = b :=
  BitVec.eq_of_getLsbD_eq fun k hk => by rw [BitVec.getLsbD_and]; exact h k hk

theorem getDirection (p : Port) : Statement (.getDirection p) := by
  cases p <;> rfl

theorem getPolarity (p : Port) : Statement (.getPolarity p) := by
  cases p <;> rfl

theorem getInterruptEnable (p : Port) : Statement (.getInterruptEnable p) := by
  cases p <;> rfl

theorem getDefaultCompare (p : Port) : Statement (.getDefaultCompare p) := by
  cases p <;> rfl

theorem getInterruptControl (p : Port) : Statement (.getInterruptControl p) := by
  cases p <;> rfl

theorem getPeripheralConfig (p : Port) : Statement (.getPeripheralConfig p) := by
  cases p <;> rfl

theorem getPullUp (p : Port) : Statement (.getPullUp p) := by
  cases p <;> rfl

theorem getInterruptFlag (p : Port) : Statement (.getInterruptFlag p) := by
  cases p <;> rfl

theorem getInterruptCapture (p : Port) : Statement (.getInterruptCapture p) := by
  cases p <;> rfl

theorem getCurrentValue (p : Port) : Statement (.getCurrentValue p) := by
  cases p <;> rfl

theorem getOutputLatch (p : Port) : Statement (.getOutputLatch p) := by
  cases p <;> rfl

theorem setDirection (p : Port) (v : Byte) : Statement (.setDirection p v) := by
  cases p <;> (refine of_bits fun k hk => ?_; interval_cases k <;> simp [encode, Command.plain, CommandWord.ofFields, Instr.pattern, Port.code])

theorem setPolarity (p : Port) (v : Byte) : Statement (.setPolarity p v) := by
  cases p <;> (refine of_bits fun k hk => ?_; interval_cases k <;> simp [encode, Command.plain, CommandWord.ofFields, Instr.pattern, Port.code])

theorem setInterruptEnable (p : Port) (v : Byte) : Statement (.setInterruptEnable p v) := by
  cases p <;> (refine of_bits fun k hk => ?_; interval_cases k <;> simp [encode, Command.plain, CommandWord.ofFields, Instr.pattern, Port.code])

theorem setDefaultCompare (p : Port) (v : Byte) : Statement (.setDefaultCompare p v) := by
  cases p <;> (refine of_bits fun k hk => ?_; interval_cases k <;> simp [encode, Command.plain, CommandWord.ofFields, Instr.pattern, Port.code])

theorem setInterruptControl (p : Port) (v : Byte) : Statement (.setInterruptControl p v) := by
  cases p <;> (refine of_bits fun k hk => ?_; interval_cases k <;> simp [encode, Command.plain, CommandWord.ofFields, Instr.pattern, Port.code])

theorem setPeripheralConfig (p : Port) (v : Byte) : Statement (.setPeripheralConfig p v) := by
  cases p <;> (refine of_bits fun k hk => ?_; interval_cases k <;> simp [encode, Command.plain, CommandWord.ofFields, Instr.pattern, Port.code])

theorem setPullUp (p : Port) (v : Byte) : Statement (.setPullUp p v) := by
  cases p <;> (refine of_bits fun k hk => ?_; interval_cases k <;> simp [encode, Command.plain, CommandWord.ofFields, Instr.pattern, Port.code])

theorem setOutputLatch (p : Port) (v : Byte) : Statement (.setOutputLatch p v) := by
  cases p <;> (refine of_bits fun k hk => ?_; interval_cases k <;> simp [encode, Command.plain, CommandWord.ofFields, Instr.pattern, Port.code])

theorem getPinState (p : Port) (pin : Byte) : Statement (.getPinState p pin) := by
  cases p <;> (refine of_bits fun k hk => ?_; interval_cases k <;> simp [encode, Command.plain, CommandWord.ofFields, Instr.pattern, Port.code])

theorem setPinState (p : Port) (pin : Byte) (st : PinState) : Statement (.setPinState p pin st) := by
  cases p <;> cases st <;> (refine of_bits fun k hk => ?_; interval_cases k <;> simp [encode, Command.plain, CommandWord.ofFields, Instr.pattern, Port.code, PinState.code])

theorem setPin (p : Port) (pin : Byte) : Statement (.setPin p pin) := by
  cases p <;> (refine of_bits fun k hk => ?_; interval_cases k <;> simp [encode, Command.plain, CommandWord.ofFields, Instr.pattern, Port.code])

theorem resetPin (p : Port) (pin : Byte) : Statement (.resetPin p pin) := by
  cases p <;> (refine of_bits fun k hk => ?_; interval_cases k <;> simp [encode, Command.plain, CommandWord.ofFields, Instr.pattern, Port.code])

theorem togglePin (p : Port) (pin : Byte) : Statement (.togglePin p pin) := by
  cases p <;> (refine of_bits fun k hk => ?_; interval_cases k <;> simp [encode, Command.plain, CommandWord.ofFields, Instr.pattern, Port.code])

theorem setPins (p : Port) : Statement (.setPins p) := by
  cases p <;> rfl

theorem resetPins (p : Port) : Statement (.resetPins p) := by
  cases p <;> rfl

theorem togglePins (p : Port) : Statement (.togglePins p) := by
  cases p <;> rfl

theorem construct (cfgA cfgB : PortConfig) : Statement (.construct cfgA cfgB) := by
  change CommandWord.ofFields 0xB 0 0x00 0x00 &&& 0xFFFFFF#24 = 0xB00000#24
  decide

theorem destruct : Statement .destruct := by rfl

end Sys2Proof.Laws.OpcodeRow
end

