-- ==== Sys2Proof/Tests/Slice0.lean ====
section
/-! SUPPORT. Own tests. Expected values are those of the spec's 95_test_vectors.md (V-..., P1 to P6, S3 to S8); the encoded words
are V-ENC's. The second half shows, for each statement with hypotheses, states and operands that meet them. -/

namespace Sys2Proof.Tests

open Sys2Proof Sys2Proof.Machine

/-! ### WellFormed refuses a pin index above 7 (R18) -/

theorem test_wellFormed_getPinState :
    Instr.wellFormed (.getPinState .a 8) = false ∧ Instr.wellFormed (.getPinState .a 7) = true := by
  decide
theorem test_wellFormed_setPinState : Instr.wellFormed (.setPinState .b 255 .low) = false := by decide
theorem test_wellFormed_setPin : Instr.wellFormed (.setPin .b 255) = false := by decide
theorem test_wellFormed_resetPin : Instr.wellFormed (.resetPin .a 8) = false := by decide
theorem test_wellFormed_togglePin : Instr.wellFormed (.togglePin .a 128) = false := by decide

/-! ### Decoding: V-ENC, every constructor by a word written out -/

theorem test_decode_gets :
    [0x180000, 0x180100, 0x180200, 0x180300, 0x180400, 0x180500, 0x180600, 0x180700, 0x180800, 0x180900,
      0x180A00].map (decodeTableWord 24)
    = [some (.getDirection .b), some (.getPolarity .b), some (.getInterruptEnable .b), some (.getDefaultCompare .b),
      some (.getInterruptControl .b), some (.getPeripheralConfig .b), some (.getPullUp .b), some (.getInterruptFlag .b),
      some (.getInterruptCapture .b), some (.getCurrentValue .b), some (.getOutputLatch .b)] := by decide

theorem test_decode_sets :
    [0x200033, 0x200144, 0x200255, 0x200366, 0x200477, 0x200588, 0x200699, 0x200AAA].map (decodeTableWord 24)
    = [some (.setDirection .a 0x33), some (.setPolarity .a 0x44), some (.setInterruptEnable .a 0x55),
      some (.setDefaultCompare .a 0x66), some (.setInterruptControl .a 0x77), some (.setPeripheralConfig .a 0x88),
      some (.setPullUp .a 0x99), some (.setOutputLatch .a 0xAA)] := by decide

theorem test_decode_pins :
    [0x380500, 0x400001, 0x480700, 0x500700, 0x680000, 0x700300, 0x300800, 0x58FF00].map (decodeTableWord 24)
    = [some (.getPinState .b 5), some (.setPinState .a 0 .high), some (.setPinState .b 7 .low), some (.setPin .a 7),
      some (.resetPin .b 0), some (.togglePin .a 3), some (.getPinState .a 8), some (.setPin .b 255)] := by decide

theorem test_decode_ports :
    [0x880000, 0x900000, 0xA80000, 0xC00000].map (decodeTableWord 24)
    = [some (.setPins .b), some (.resetPins .a), some (.togglePins .b), some .destruct] := by decide

/-- The two snapshots of program P2 and its configuration block (V-ENC). -/
def cfgA : PortConfig := ⟨0x0F, 0x11, 0x22, 0x33, 0x44, 0x00, 0x66⟩
def cfgB : PortConfig := ⟨0xF0, 0x1B, 0x2B, 0x3B, 0x4B, 0x00, 0x6B⟩
def blockP2 : ConfigBlock := 0x6B004B3B2B1BF06600443322110F

theorem test_decode_construct : decode ⟨0xB00000, blockP2⟩ = .ok (.construct cfgA cfgB) := by decide
theorem test_encode_construct : encode (.construct cfgA cfgB) = ⟨0xB00000, blockP2⟩ := by decide

theorem test_reserved_words :
    [0x000000, 0xD00000, 0xE00000, 0xFFFFFF, 0x110000, 0x540000, 0x100B00, 0x10FF00, 0x100001, 0x200700, 0x200800,
      0x2809FF, 0x200B00, 0x300001, 0x400002, 0x4000FF, 0x800100, 0x900001, 0xB80000, 0xC00001,
      0xC80000].map (decodeTableWord 24)
    = List.replicate 21 none := by decide

/-! ### One step of each command -/

/-- The next state of an outcome, if it is one. -/
def nextOf : Host.Outcome State Fault Refusal → Option State
  | .next t => some t
  | .fault _ => none
  | .refused _ => none

/-- The refusal of an outcome, if it is one. -/
def refusalOf : Host.Outcome State Fault Refusal → Option Refusal
  | .refused r => some r
  | .next _ => none
  | .fault _ => none

/-- The state after reset, with the block given a move of the grain of commands. -/
def fresh : State := giveMove .command [] State.reset

/-- An initialized block in the reference environment. -/
def block (m : BankMode) (mem : Memory) : State :=
  { fresh with initialized := true, bankMode := some m, env := .reference, memory := mem }

/-- What one command leaves: the transactions it issued and its response. -/
def trace (i : Instr) (s : State) : Option (List Transaction × Option Response) :=
  (nextOf (exec i s)).map fun t => (t.history, t.rsp)

/-- The eleven registers of port B in separate mode, each holding its own address plus 0x80. -/
def portB : Memory :=
  [(10, 0x8A), (11, 0x8B), (12, 0x8C), (13, 0x8D), (14, 0x8E), (15, 0x8F), (16, 0x90), (17, 0x91), (18, 0x92), (19, 0x93),
    (20, 0x94)]

theorem test_gets_read_their_own_register :
    [Instr.getDirection .b, .getPolarity .b, .getInterruptEnable .b, .getDefaultCompare .b, .getInterruptControl .b,
      .getPeripheralConfig .b, .getPullUp .b, .getInterruptFlag .b, .getInterruptCapture .b, .getCurrentValue .b,
      .getOutputLatch .b].map (fun i => trace i (block .separate portB))
    = ([(10, 0x8A), (11, 0x8B), (12, 0x8C), (13, 0x8D), (14, 0x8E), (15, 0x8F), (16, 0x90), (17, 0x91), (18, 0x92),
      (19, 0x93), (20, 0x94)] : List (Byte × Byte)).map (fun r => some ([.read r.1 r.2], some ⟨r.2, .ok⟩)) := by decide

theorem test_sets_write_their_own_register :
    [Instr.setDirection .b 0x33, .setPolarity .b 0x44, .setInterruptEnable .b 0x55, .setDefaultCompare .b 0x66,
      .setInterruptControl .b 0x77, .setPeripheralConfig .b 0x88, .setPullUp .b 0x99,
      .setOutputLatch .b 0xAA].map (fun i => trace i (block .common []))
    = ([(1, 0x33), (2, 0x44), (3, 0x55), (4, 0x66), (5, 0x77), (6, 0x88), (7, 0x99), (11, 0xAA)]
      : List (Byte × Byte)).map (fun r => some ([.write r.1 r.2], some ⟨0x00, .ok⟩)) := by decide

/-- S4, pins 5 and 1 of port B, and P5 command 8. -/
theorem test_getPinState :
    trace (.getPinState .b 5) (block .separate [(19, 0xA5)]) = some ([.read 19 0xA5], some ⟨0x01, .ok⟩) ∧
    trace (.getPinState .b 1) (block .separate [(19, 0xA5)]) = some ([.read 19 0xA5], some ⟨0x00, .ok⟩) := by decide

/-- S4, pin 4 HIGH and pin 7 LOW. -/
theorem test_setPinState :
    trace (.setPinState .b 4 .high) (block .separate [(19, 0xA5)])
      = some ([.read 19 0xA5, .write 19 0xB5], some ⟨0x00, .ok⟩) ∧
    trace (.setPinState .b 7 .low) (block .separate [(19, 0xA5)])
      = some ([.read 19 0xA5, .write 19 0x25], some ⟨0x00, .ok⟩) := by decide

/-- S3: the write is issued even where it changes no bit. -/
theorem test_setPin :
    trace (.setPin .a 3) (block .separate [(9, 0x58)]) = some ([.read 9 0x58, .write 9 0x58], some ⟨0x00, .ok⟩) := by decide

theorem test_resetPin :
    trace (.resetPin .a 7) (block .common [(9, 0xA5)]) = some ([.read 9 0xA5, .write 9 0x25], some ⟨0x00, .ok⟩) := by decide

/-- S5. -/
theorem test_togglePin :
    trace (.togglePin .b 2) (block .common [(10, 0x3C)]) = some ([.read 10 0x3C, .write 10 0x38], some ⟨0x00, .ok⟩) := by
  decide

/-- S6. -/
theorem test_setPins :
    trace (.setPins .a) (block .separate [(9, 0x6B)]) = some ([.read 9 0x6B, .write 9 0xFF], some ⟨0x00, .ok⟩) := by decide

/-- S6: one write, no read; the byte 0x00 is no longer listed. -/
theorem test_resetPins :
    trace (.resetPins .a) (block .separate [(9, 0x6B)]) = some ([.write 9 0x00], some ⟨0x00, .ok⟩) ∧
    (nextOf (exec (.resetPins .a) (block .separate [(9, 0x6B)]))).map (·.memory) = some [] := by decide

theorem test_togglePins :
    trace (.togglePins .a) (block .separate [(9, 0x6B)]) = some ([.read 9 0x6B, .write 9 0x94], some ⟨0x00, .ok⟩) := by
  decide

/-- P2, command 1: the fourteen writes and what they leave. -/
theorem test_construct :
    (nextOf (exec (.construct cfgA cfgB) { fresh with env := .reference })).map
      (fun t => (t.history.map fun tr => (transactionAddr tr).toNat, t.memory, t.bankMode, t.initialized))
    = some ([0, 1, 2, 3, 4, 6, 5, 1, 2, 3, 4, 5, 7, 6],
      [(0, 0x0F), (1, 0xF0), (2, 0x1B), (3, 0x2B), (4, 0x3B), (5, 0x4B), (7, 0x6B)], some .common, true) := by decide

/-- P5, command 4. -/
theorem test_destruct :
    (nextOf (exec .destruct (block .separate []))).map (fun t => (t.history, t.bankMode, t.initialized))
    = some ([], some .separate, false) := by decide

/-- R13: once CONSTRUCT has ended the block holds no copy of its snapshots. -/
theorem test_construct_keeps_nothing :
    (nextOf (exec (.construct cfgA cfgB) fresh)).map (fun t => (t.cmd, t.tmp, t.idx))
    = some (none, none, none) := by decide

/-! ### The events of R8: HOST presents, the block accepts, performs one transaction, responds; resets in between -/

/-- The block of `test_setPin`, and what its inputs hold. -/
def eventBlock (l : List Input) : State := { block .separate [(9, 0x42)] with inputs := l }

/-- The state after each of five steps. -/
def fiveSteps (s : State) : List (Option State) :=
  [1, 2, 3, 4, 5].map fun n => nextOf (Sys2Proof.core.run n s)

/-- `set_pin A, 0`: HOST presents it, the request of the read is issued, the read is done, the write is, the response is
delivered. -/
theorem test_events_of_setPin :
    (fiveSteps (eventBlock [.command ⟨0x500000, 0⟩])).map (fun o => o.map fun t => (t.phase, t.bus, t.rsp))
    = [some (.idle, none, none), some (.rdPend, some (.read 9), none), some (.wrPend, some (.write 9 0x43), none),
      some (.idle, none, none), some (.idle, none, some ⟨0x00, .ok⟩)] ∧
    (fiveSteps (eventBlock [.command ⟨0x500000, 0⟩])).map (fun o => o.map fun t => (t.presented.isSome, t.history))
    = [some (true, []), some (false, []), some (false, [.read 9 0x42]), some (false, [.read 9 0x42, .write 9 0x43]),
      some (false, [.read 9 0x42, .write 9 0x43])] := by decide

/-- R172: a reset between the two transactions of `set_pin`; the read stays done, the write is never issued. -/
theorem test_reset_between_transactions :
    (fiveSteps (eventBlock [.command ⟨0x500000, 0⟩, .seq .event, .seq .event, .reset false])).map
      (fun o => o.map fun t => (t.phase, t.initialized, t.history))
    = [some (.idle, true, []), some (.rdPend, true, []), some (.wrPend, true, [.read 9 0x42]),
      some (.idle, false, [.read 9 0x42]), some (.idle, false, [.read 9 0x42])] := by decide

/-- R172: from reset, a reset after two of the fourteen writes of CONSTRUCT. -/
theorem test_reset_during_construct :
    (nextOf (Sys2Proof.core.run 5 { State.reset with inputs := [.command ⟨0xB00000, blockP2⟩, .seq .event, .seq .event,
        .seq .event, .reset false] })).map (fun t => (t.initialized, t.rsp, t.history))
    = some (false, none, [.write 0 0x0F, .write 1 0x11]) := by decide

/-- R172: a reset between the last transaction and the response; no response is delivered. -/
theorem test_reset_before_the_response :
    (fiveSteps (eventBlock [.command ⟨0x900000, 0⟩, .seq .event, .seq .event, .reset false])).map
      (fun o => o.map fun t => (t.history, t.due, t.rsp))
    = [some ([], none, none), some ([], none, none), some ([.write 9 0x00], some ⟨0x00, .ok⟩, none),
      some ([.write 9 0x00], none, none), some ([.write 9 0x00], none, none)] := by decide

/-- R50: HOST waits with a command until the response to the one before it is delivered. -/
theorem test_host_waits :
    (fiveSteps (eventBlock [.command ⟨0x900000, 0⟩, .command ⟨0xC00000, 0⟩])).map
      (fun o => o.map fun t => (t.inputs.length, t.presented.isSome, t.rsp))
    = [some (1, true, none), some (1, false, none), some (1, false, none), some (1, false, some ⟨0x00, .ok⟩),
      some (0, true, some ⟨0x00, .ok⟩)] := by decide

/-- R9: HOST waits from presenting a command to the delivery of its response, and no reset, ENV write or move behind it makes it
wait again; a command that a reset tears (R172) gets no response. -/
theorem test_awaited :
    (fiveSteps (eventBlock [.command ⟨0x900000, 0⟩, .seq .event, .seq .event, .seq .event, .reset false])).map
      (fun o => o.map (·.awaited)) = [some true, some true, some true, some false, some false] ∧
    (fiveSteps (eventBlock [.command ⟨0x900000, 0⟩, .seq .event, .reset true])).map
      (fun o => o.map (·.awaited)) = [some true, some true, some true, some true, some true] := by decide

/-! ### Errors, refusals, hazards (V-ERR, V-HAZ, P6) -/

theorem test_refusals :
    refusalOf (exec (.getCurrentValue .a) State.reset) = some .notInitialized ∧
    refusalOf (exec (.setPin .a 8) (block .separate [])) = some .pinIndexOutOfRange ∧
    refusalOf (exec (.construct cfgA cfgB) (block .separate [])) = some .alreadyInitialized := by decide

/-- A block with an optional check switched on. -/
def checked (c : Config) (m : BankMode) (turns : List BusTurn) : State := { block m [] with config := c, turns := turns }
def withPinCheck : Config := { Config.documented with pinCheck := true }
def withErrors : Config := { Config.documented with transportErrors := true }
def withBankCheck : Config := { Config.documented with bankMismatchCheck := true }

theorem test_pinCheck :
    trace (.getPinState .b 200) (checked withPinCheck .separate []) = some ([], some ⟨0x00, .invalidPinIndex⟩) ∧
    trace (.setPin .a 7) (checked withPinCheck .separate []) = some ([.read 9 0x00, .write 9 0x80], some ⟨0x00, .ok⟩) := by
  decide

theorem test_transportErrors :
    trace (.togglePin .a 0) (checked withErrors .separate [⟨[], .busErr false⟩])
      = some ([.readFailed 9], some ⟨0x00, .transportFailure⟩) ∧
    trace (.togglePin .a 0) (checked withErrors .separate [⟨[], .ok⟩, ⟨[], .busErr false⟩])
      = some ([.read 9 0x00, .writeFailed 9 0x01], some ⟨0x00, .transportFailure⟩) := by decide

/-- V-ERR: a transport that never completes leaves the block in RD_PEND, or in WR_PEND. -/
theorem test_stuck :
    (nextOf (exec (.togglePin .a 0) (checked Config.documented .separate [⟨[], .never⟩]))).map
      (fun t => (t.phase, t.rsp, t.history)) = some (.rdPend, none, []) ∧
    (nextOf (exec (.togglePin .a 0) (checked Config.documented .separate [⟨[], .ok⟩, ⟨[], .never⟩]))).map
      (fun t => (t.phase, t.rsp, t.bus)) = some (.wrPend, none, some (.write 9 0x01)) := by decide

/-- P3, command 4: ENV sets the location to 0xC3 between the halves, and its change is lost. -/
theorem test_lost_update :
    (nextOf (exec (.togglePin .a 0)
      { block .separate [(9, 0x42)] with turns := [⟨[], .ok⟩, ⟨[(9, 0xC3)], .ok⟩] })).map (·.memory)
    = some [(9, 0x43)] := by decide

/-! ### Memory -/

theorem test_memory_canonical :
    Memory.write [(3, 0x11), (9, 0x22)] 5 0x33 = [(3, 0x11), (5, 0x33), (9, 0x22)] ∧
    Memory.write [(3, 0x11), (9, 0x22)] 9 0x00 = [(3, 0x11)] ∧
    Memory.write [(3, 0x11)] 0xFF 0x44 = [(3, 0x11), (255, 0x44)] := by decide

/-! ### The step and the fetched word -/

theorem test_withFetchWord :
    (nextOf (step (State.withFetchWord (block .separate [(9, 0x42)]) 24 0x100900))).map (·.rsp)
    = some (some ⟨0x42, .ok⟩) := by decide

theorem test_fetchWord_after_reset :
    refusalOf (step (State.withFetchWord State.reset 24 0x100900)) = some .notInitialized ∧
    (nextOf (step (State.withFetchWord State.reset 24 0xB00000))).map (·.initialized) = some true := by decide

/-! ### Witnesses: every statement's hypotheses are met -/

/-- An initialized block in the general environment. -/
def general (m : BankMode) : State := { fresh with initialized := true, bankMode := some m }

theorem completes_nil {s : State} (h : s.turns = []) (n : Nat) : Completes n s := by simp [Completes, h]

theorem test_witness_BaseTableOfElevenKinds :
    baseAddress BaseTable.documented .outputLatch = baseAddress BaseTable.documented .outputLatch := rfl

theorem test_witness_AddressLawsThatHold :
    address Config.documented .b .outputLatch .common = address Config.documented .b .outputLatch .common := rfl

theorem test_witness_SharedAddressesAreExactlyTheListedPairs :
    Aliased Config.documented .separate .a .b .outputLatch .direction ∧
    Aliased Config.documented .common .a .b .polarity .direction ∧
    Aliased Config.documented .common .b .a .currentValue .outputLatch ∧ RegKind.outputLatch ≠ .direction :=
  ⟨⟨by decide, rfl⟩, ⟨by decide, rfl⟩, ⟨by decide, rfl⟩, by decide⟩

/-- A block with a command at its command port, HOST waiting for its response, and a move of the grain of commands. -/
def presented (c : Command) (s : State) : State :=
  { s with presented := some c, awaited := true, inputs := [.seq .command] }

/-- The state in which that move has been taken. -/
def moved (s : State) : State := giveMove .command [] s

theorem moves_presented (c : Command) (s : State) : BlockMoves (presented c s) (moved (presented c s)) :=
  .inr (.inl ⟨_, _, rfl, rfl⟩)

theorem test_witness_OnlyAddressesInTheImageAreEmitted :
    ∃ t, step (presented ⟨0x180A00, 0⟩ (block .separate portB)) = .next t ∧ Transaction.read 20 0x94 ∈ t.history ∧
      (presented ⟨0x180A00, 0⟩ (block .separate portB)).config = Config.documented :=
  ⟨_, rfl, by decide, rfl⟩

/-- A block at the grain of events. -/
def byEvents (s : State) : State := { s with grain := .event }

/-- The invariant holds of an initialized block in IDLE. -/
theorem inv_general (m : BankMode) (q : Option Command) (l : List Input) (g : Grain) :
    Inv { general m with presented := q, awaited := true, inputs := l, grain := g } :=
  ⟨⟨.nil, by simp [general, fresh, State.reset]⟩, fun _ => rfl, fun _ => ⟨rfl, rfl, rfl, rfl, rfl⟩, fun _ => rfl,
    fun _ => ⟨rfl, rfl⟩, fun _ => rfl, fun h => absurd rfl h⟩

/-- The bus clause: a read issued and outstanding after the step. -/
theorem test_witness_OnlyAddressesInTheImageAreEmitted_bus :
    ∃ t, step { general .separate with presented := some ⟨0x180A00, 0⟩, awaited := true } = .next t ∧ t.bus = some (.read 20) ∧
      Inv { general .separate with presented := some ⟨0x180A00, 0⟩, awaited := true } :=
  ⟨_, rfl, rfl, inv_general .separate (some ⟨0x180A00, 0⟩) [] .command⟩

theorem test_witness_AStepIsOneEventAtTheGrainOfEvents :
    (ReadyIn .common (byEvents (general .common)) ∧ (byEvents (general .common)).grain = .event ∧
      readAddress Config.documented .common (.setPin .b 7) = some 10 ∧
      readAddress Config.documented .common (.setPullUp .b 1) = none ∧
      writeAddress Config.documented .common (.setPullUp .b 1) = some 7) ∧
    (Fresh (byEvents State.reset) ∧ (byEvents State.reset).config.bankMismatchCheck = false ∧
      (pushWrites Config.documented .common cfgA cfgB)[0]? = some ⟨0, 0x0F⟩) ∧
    (BlockMoves { State.reset with due := some ⟨0x00, .ok⟩ } { State.reset with due := some ⟨0x00, .ok⟩ } ∧
      { State.reset with due := some ⟨0x00, .ok⟩ }.due = some ⟨0x00, .ok⟩) ∧
    ∃ t, step (eventBlock [.seq .event]) = .next t ∧ t.grain = .event :=
  ⟨⟨⟨rfl, rfl, rfl, rfl⟩, rfl, rfl, rfl, rfl⟩, ⟨⟨rfl, rfl, rfl⟩, rfl, by decide⟩, ⟨.inl ⟨rfl, rfl⟩, rfl⟩, _, rfl, rfl⟩

theorem test_witness_PinMasksAreTheEightSingleBits :
    pinMask 0 = some 0x01 ∧ pinMask 7 = some 0x80 ∧ (0 : Byte) ≠ 7 ∧ 7 < (8 : Byte).toNat := by decide

theorem test_witness_EncodeOfDecodeIsTheWord :
    decode ⟨0x2809AA ||| 0x000300, 0⟩ = .error .setKind ∧ decode ⟨0x280AAA, 0⟩ = .ok (.setOutputLatch .b 0xAA) ∧
    decode ⟨0xB00000, blockP2⟩ = .ok (.construct cfgA cfgB) := by decide

theorem test_witness_ReservedWordsAreExactlyTheListedOnes :
    BlockMoves (presented ⟨0x2809FF, 0⟩ State.reset) (moved (presented ⟨0x2809FF, 0⟩ State.reset)) ∧
    (presented ⟨0x2809FF, 0⟩ State.reset).phase = .idle ∧ (presented ⟨0x2809FF, 0⟩ State.reset).due = none ∧
    (presented ⟨0x2809FF, 0⟩ State.reset).presented = some ⟨0x2809FF, 0⟩ ∧ decode ⟨0x2809FF, 0⟩ = .error .setKind :=
  ⟨moves_presented _ _, by decide⟩

theorem test_witness_StepRunsThePresentedCommand :
    BlockMoves (presented ⟨0x500700, 0⟩ (general .separate)) (moved (presented ⟨0x500700, 0⟩ (general .separate))) ∧
    (presented ⟨0x500700, 0⟩ (general .separate)).phase = .idle ∧
    (presented ⟨0x500700, 0⟩ (general .separate)).due = none ∧
    (presented ⟨0x500700, 0⟩ (general .separate)).presented = some ⟨0x500700, 0⟩ ∧
    decode ⟨0x500700, 0⟩ = .ok (.setPin .a 7) := ⟨moves_presented _ _, by decide⟩

/-- `get_direction A` waiting for its read, over a transport that never completes it. -/
def readPending : State :=
  { general .separate with
    phase := .rdPend, awaited := true, cmd := some ⟨0x100000, 0⟩, bus := some (.read 0), turns := [⟨[], .never⟩] }

/-- `set_pin A, 7` waiting for its write. -/
def writePending : State :=
  { general .separate with
    phase := .wrPend, awaited := true, cmd := some ⟨0x500700, 0⟩, tmp := some 0x01,
    bus := some (.write 9 0x81), turns := [⟨[], .never⟩] }

/-- `construct` waiting for its last write. -/
def pushPending : State :=
  { State.reset with
    bankMode := some .common, phase := .cfgPend, awaited := true, cmd := some ⟨0xB00000, blockP2⟩, idx := some 13,
    bus := some (.write 6 0x00), turns := [⟨[], .never⟩] }

theorem test_witness_readPending : Inv readPending ∧ Stuck readPending ∧
    BlockMoves readPending (giveMove .event [] readPending) :=
  ⟨⟨⟨.nil, by simp [readPending, general, fresh, State.reset]⟩, fun _ => rfl, fun h => absurd h (by decide), fun _ => rfl,
    fun h => absurd rfl h, fun _ => rfl,
    fun _ => ⟨rfl, rfl, .getDirection .a, .separate, rfl, rfl, rfl, 0, rfl, rfl⟩⟩, ⟨by decide, [], rfl⟩, .inl ⟨rfl, rfl⟩⟩

theorem test_witness_writePending : Inv writePending ∧ Stuck writePending ∧
    BlockMoves writePending (giveMove .event [] writePending) :=
  ⟨⟨⟨.nil, by simp [writePending, general, fresh, State.reset]⟩, fun _ => rfl, fun h => absurd h (by decide), fun _ => rfl,
    fun h => absurd rfl h, fun _ => rfl,
    fun _ => ⟨rfl, rfl, .setPin .a 7, .separate, rfl, rfl, rfl, 9, 0x01, rfl, fun _ => rfl, rfl⟩⟩,
    ⟨by decide, [], rfl⟩, .inl ⟨rfl, rfl⟩⟩

theorem test_witness_pushPending : Inv pushPending ∧ Stuck pushPending ∧
    BlockMoves pushPending (giveMove .event [] pushPending) :=
  ⟨⟨⟨.nil, by simp [pushPending, State.reset]⟩, by decide, fun h => absurd h (by decide), fun _ => rfl,
    fun h => absurd rfl h, fun _ => rfl,
    fun _ => ⟨rfl, rfl, .construct cfgA cfgB, .common, by decide, rfl, rfl, cfgA, cfgB, 13, ⟨6, 0x00⟩, rfl, rfl, rfl, rfl⟩⟩,
    ⟨by decide, [], rfl⟩, .inl ⟨rfl, rfl⟩⟩

theorem test_witness_StepGoesOnWithTheCommandInProgress :
    writePending.phase ≠ .idle ∧ writePending.cmd = some ⟨0x500700, 0⟩ ∧ decode ⟨0x500700, 0⟩ = .ok (.setPin .a 7) ∧
    BlockMoves writePending (giveMove .event [] writePending) ∧
    BlockMoves { writePending with inputs := [.command ⟨0xC00000, 0⟩] }
      (giveMove .event [.command ⟨0xC00000, 0⟩] writePending) :=
  ⟨by decide, rfl, by decide, .inl ⟨rfl, rfl⟩, .inr (.inr ⟨_, _, rfl, fun h => absurd h.1 (by decide), rfl⟩)⟩

theorem test_witness_StepWithoutACommand :
    (BlockMoves State.reset State.reset ∧ State.reset.phase = .idle ∧ State.reset.due = none ∧
      State.reset.presented = none) ∧
    HostMayPresent { State.reset with inputs := [.command ⟨0xB00000, blockP2⟩] } ∧
    { readPending with inputs := [.envWrite 255 0x01] }.inputs = .envWrite 255 0x01 :: [] :=
  ⟨⟨.inl ⟨rfl, rfl⟩, rfl, rfl, rfl⟩, ⟨rfl, rfl, rfl⟩, rfl⟩

theorem test_witness_AdmissionFollowsTheLifecycle :
    (State.reset.phase = .idle ∧ State.reset.due = none ∧ State.reset.initialized = false ∧
      ∀ a b, Instr.destruct ≠ .construct a b) ∧
    ((general .common).phase = .idle ∧ (general .common).due = none ∧ (general .common).initialized = true) ∧
    (readPending.phase ≠ .idle ∧ readPending.cmd ≠ some (encode .destruct)) ∧
    { byEvents State.reset with due := some ⟨0x00, .ok⟩ }.due ≠ none :=
  ⟨⟨rfl, rfl, rfl, by simp⟩, ⟨rfl, rfl, rfl⟩, ⟨by decide, by decide⟩, by simp⟩

theorem test_witness_GetsRespondWithTheByteRead :
    ReadyIn .common (block .common portB) ∧ (block .common portB).grain = .command ∧ Completes 1 (block .common portB) ∧
    (block .common portB).env = .reference := ⟨⟨rfl, rfl, rfl, rfl⟩, rfl, completes_nil rfl 1, rfl⟩

theorem test_witness_SetsWriteTheByteUnchanged :
    (ReadyIn .separate (general .separate) ∧ (general .separate).grain = .command ∧ Completes 1 (general .separate) ∧
      (general .separate).env = .general) ∧ (block .separate portB).env = .reference :=
  ⟨⟨⟨rfl, rfl, rfl, rfl⟩, rfl, completes_nil rfl 1, rfl⟩, rfl⟩

theorem test_witness_GetPinStateTestsOneBit :
    ReadyIn .separate (block .separate portB) ∧ (block .separate portB).grain = .command ∧
    Completes 1 (block .separate portB) ∧ (7 : Byte).toNat ≤ 7 ∧ (block .separate portB).env = .reference :=
  ⟨⟨rfl, rfl, rfl, rfl⟩, rfl, completes_nil rfl 1, by decide, rfl⟩

theorem test_witness_PinOperationsReadModifyWrite :
    ReadyIn .separate (block .separate portB) ∧ (block .separate portB).grain = .command ∧
    Completes 2 (block .separate portB) ∧ (0 : Byte).toNat ≤ 7 ∧ (7 : Byte).toNat ≤ 7 ∧
    (block .separate portB).env = .reference ∧ (general .separate).env = .general :=
  ⟨⟨rfl, rfl, rfl, rfl⟩, rfl, completes_nil rfl 2, by decide, by decide, rfl, rfl⟩

theorem test_witness_SetPinStateSetsOrClearsTheBit :
    ReadyIn .common (general .common) ∧ (general .common).grain = .command ∧ Completes 2 (general .common) ∧
    (7 : Byte).toNat ≤ 7 := ⟨⟨rfl, rfl, rfl, rfl⟩, rfl, completes_nil rfl 2, by decide⟩

theorem test_witness_SetPinStateDispatches :
    (general .common).phase = .idle ∧ (7 : Byte).toNat ≤ 7 ∧ 7 < (8 : Byte).toNat := by decide

theorem test_witness_PortOperationsReadModifyWrite :
    ReadyIn .common (block .common portB) ∧ (block .common portB).grain = .command ∧ Completes 2 (block .common portB) :=
  ⟨⟨rfl, rfl, rfl, rfl⟩, rfl, completes_nil rfl 2⟩

theorem test_witness_DestructClearsTheFlagOnly :
    ((general .common).phase = .idle ∧ (general .common).due = none ∧ (general .common).initialized = true ∧
      (general .common).grain = .command) ∧ (byEvents (general .common)).grain = .event :=
  ⟨⟨rfl, rfl, rfl, rfl⟩, rfl⟩

theorem test_witness_HistoryOnlyGrows : ∃ t, step (presented ⟨0x900000, 0⟩ (general .separate)) = .next t ∧
    t.history = [.write 9 0x00] := ⟨_, rfl, rfl⟩

theorem test_witness_ResetPinsWritesZero :
    (ReadyIn .common (general .common) ∧ (general .common).grain = .command ∧
      (general .common).config.resetPinsReads = false ∧ Completes 1 (general .common)) ∧
    ReadyIn .common { general .common with config := { Config.documented with resetPinsReads := true } } ∧
    Completes 2 { general .common with config := { Config.documented with resetPinsReads := true } } :=
  ⟨⟨⟨rfl, rfl, rfl, rfl⟩, rfl, rfl, completes_nil rfl 1⟩, ⟨rfl, rfl, rfl, rfl⟩, completes_nil rfl 2⟩

theorem test_witness_PinIndexAboveSevenHasNoEffect :
    ((general .separate).phase = .idle ∧ (general .separate).due = none ∧ (general .separate).initialized = true ∧
      7 < (8 : Byte).toNat ∧ 7 < (255 : Byte).toNat ∧ (general .separate).config.pinCheck = false) ∧
    (checked withPinCheck .separate []).config.pinCheck = true ∧ (checked withPinCheck .separate []).grain = .command ∧
    (byEvents (checked withPinCheck .separate [])).grain = .event := by decide

theorem test_witness_PushOrderOfTheFourteenWrites :
    Config.documented.cfgPortOrder = .portAFirst ∧
    { Config.documented with cfgPortOrder := .portBFirst }.cfgPortOrder = .portBFirst := ⟨rfl, rfl⟩

/-- Snapshots whose bank bits are equal, and different. -/
def cfgSep : PortConfig := ⟨0, 0, 0, 0, 0, 0x80, 0⟩

theorem test_witness_ConstructPushesAndInitializes :
    (Fresh fresh ∧ fresh.grain = .command ∧ Completes 14 fresh ∧
      fresh.config.bankMismatchCheck = false) ∧
    (Fresh { fresh with config := withBankCheck } ∧ Completes 14 { fresh with config := withBankCheck } ∧
      bankBitsDiffer withBankCheck cfgA cfgB = false) ∧
    Fresh { fresh with env := .reference } ∧ Undisturbed { fresh with env := .reference } :=
  ⟨⟨⟨rfl, rfl, rfl⟩, rfl, completes_nil rfl 14, rfl⟩, ⟨⟨rfl, rfl, rfl⟩, completes_nil rfl 14, by decide⟩,
    ⟨rfl, rfl, rfl⟩, rfl, rfl⟩

theorem test_witness_MismatchedBankBitsAreRejectedWhenChecked :
    Fresh { fresh with config := withBankCheck } ∧ withBankCheck.bankMismatchCheck = true ∧
    cfgSep.peripheralConfig.getLsbD withBankCheck.bankBit.val ≠ cfgA.peripheralConfig.getLsbD withBankCheck.bankBit.val ∧
    { fresh with config := withBankCheck }.grain = .command ∧
    Fresh (byEvents { fresh with config := withBankCheck }) :=
  ⟨⟨rfl, rfl, rfl⟩, rfl, by decide, rfl, ⟨rfl, rfl, rfl⟩⟩

theorem test_witness_ConstructDoesNotDependOnThePeripheral :
    Fresh State.reset ∧
    { State.reset with memory := portB, env := .reference, turns := [] } = { State.reset with
      memory := portB, env := .reference, draws := 0, turns := [] } ∧
    State.reset.turns.map (·.completion) = ([] : List BusTurn).map (·.completion) := ⟨⟨rfl, rfl, rfl⟩, rfl, rfl⟩

theorem test_witness_frames :
    (∃ t, exec (.getDirection .b) (block .separate portB) = .next t) ∧
    (∃ t, exec (.setPin .b 7) (block .separate portB) = .next t) ∧
    Memory.wf (block .separate portB).memory ∧ Untouched 0 (block .separate portB) ∧ Untouched 255 (block .separate portB) ∧
    ∀ a, writeAddress Config.documented (modeOf (block .separate portB)) (.setPin .b 7) = some a → (255 : Byte) ≠ a := by
  refine ⟨⟨_, rfl⟩, ⟨_, rfl⟩, by decide, ?_, ?_, ?_⟩
  · simp [Untouched, block, fresh, State.reset]
  · simp [Untouched, block, fresh, State.reset]
  · intro a ha
    revert a
    decide

theorem test_witness_ConstructFrame :
    (∃ t, exec (.construct cfgA cfgB) fresh = .next t) ∧ Memory.wf State.reset.memory ∧ Untouched 8 State.reset ∧
    ∀ w ∈ pushWrites Config.documented (derivedMode Config.documented cfgA cfgB) cfgA cfgB, (8 : Byte) ≠ w.addr :=
  ⟨⟨_, rfl⟩, reset_memory_wf, by simp [Untouched, State.reset], by decide⟩

theorem test_witness_PropertiesOfPinAndPortOperations :
    ReadyIn .separate (block .separate portB) ∧ (block .separate portB).grain = .command ∧
    Undisturbed (block .separate portB) ∧ Memory.wf (block .separate portB).memory :=
  ⟨⟨rfl, rfl, rfl, rfl⟩, rfl, ⟨rfl, rfl⟩, by decide⟩

theorem test_witness_NoErrorsByDefault :
    (∃ t, exec (.setPin .b 7) (block .separate portB) = .next t ∧ t.phase = .idle) ∧
    ∃ t, exec .destruct (byEvents (block .separate portB)) = .next t ∧ t.phase = .idle := ⟨⟨_, rfl, rfl⟩, _, rfl, rfl⟩

theorem test_witness_DutifulCommandsMeetNoOperandError :
    KeepsDuties (block .separate portB) (.setPeripheralConfig .b 0x80) ∧
    ∃ t, exec (.setPeripheralConfig .b 0x80) (block .separate portB) = .next t ∧ t.phase = .idle := by
  refine ⟨⟨rfl, by simp, ?_⟩, _, rfl, rfl⟩
  intro p v m hi hm
  cases hi
  cases hm
  decide

theorem test_witness_FailedReadEndsTheCommand :
    ReadyIn .separate (checked withErrors .separate [⟨[], .busErr false⟩]) ∧
    (checked withErrors .separate [⟨[], .busErr false⟩]).grain = .command ∧ withErrors.transportErrors = true ∧
    FailsAt 0 false (checked withErrors .separate [⟨[], .busErr false⟩]) ∧
    readAddress withErrors .separate (.getOutputLatch .b) = some 20 ∧
    readAddress withErrors .separate (.setPin .a 7) = some 9 :=
  ⟨⟨rfl, rfl, rfl, rfl⟩, rfl, rfl, ⟨by simp [Completes], _, rfl, rfl⟩, rfl, rfl⟩

theorem test_witness_FailedWriteEndsTheCommand :
    (ReadyIn .separate (checked withErrors .separate [⟨[], .busErr true⟩]) ∧
      (checked withErrors .separate [⟨[], .busErr true⟩]).grain = .command ∧
      FailsAt 0 true (checked withErrors .separate [⟨[], .busErr true⟩]) ∧
      readAddress withErrors .separate (.resetPins .a) = none ∧
      writeAddress withErrors .separate (.resetPins .a) = some 9) ∧
    ReadyIn .separate (checked withErrors .separate [⟨[], .ok⟩, ⟨[], .busErr true⟩]) ∧
    FailsAt 1 true (checked withErrors .separate [⟨[], .ok⟩, ⟨[], .busErr true⟩]) ∧
    readAddress withErrors .separate (.setPin .a 7) = some 9 ∧
    writeAddress withErrors .separate (.setPin .a 7) = some 9 :=
  ⟨⟨⟨rfl, rfl, rfl, rfl⟩, rfl, ⟨by simp [Completes], _, rfl, rfl⟩, rfl, rfl⟩, ⟨rfl, rfl, rfl, rfl⟩,
    ⟨by simp [Completes, checked], _, rfl, rfl⟩, rfl, rfl⟩

/-- A fresh block whose transport fails construction write number `n`. -/
def failing (n : Nat) : State :=
  { fresh with config := withErrors, turns := List.replicate n ⟨[], .ok⟩ ++ [⟨[], .busErr false⟩] }

theorem test_witness_FailedConstructionWriteStopsThePush :
    (Fresh (failing 0) ∧ (failing 0).grain = .command ∧ FailsAt 0 false (failing 0)) ∧ Fresh (failing 13) ∧
    FailsAt 13 false (failing 13) ∧ (failing 13).config.bankMismatchCheck = false :=
  ⟨⟨⟨rfl, rfl, rfl⟩, rfl, by simp [Completes], _, rfl, rfl⟩, ⟨rfl, rfl, rfl⟩,
    ⟨by unfold Completes; decide, _, rfl, rfl⟩, rfl⟩

theorem test_witness_ResetInputClearsTheBlock :
    { writePending with inputs := [.reset true] }.inputs = .reset true :: [] ∧ writePending.bus = some (.write 9 0x81) := by
  decide

theorem test_witness_ReadModifyWriteWaitsInWrPend :
    ReadyIn .separate (checked Config.documented .separate [⟨[], .ok⟩, ⟨[], .late⟩]) ∧
    (checked Config.documented .separate [⟨[], .ok⟩, ⟨[], .late⟩]).grain = .command ∧
    WaitsAt 1 (checked Config.documented .separate [⟨[], .ok⟩, ⟨[], .late⟩]) ∧
    readAddress Config.documented .separate (.togglePins .b) = some 19 ∧
    writeAddress Config.documented .separate (.togglePins .b) = some 19 :=
  ⟨⟨rfl, rfl, rfl, rfl⟩, rfl, ⟨by simp [Completes, checked], _, rfl, rfl⟩, rfl, rfl⟩

/-- A fresh block whose construction write number `n` completes late. -/
def delaying (n : Nat) : State :=
  { fresh with turns := List.replicate n ⟨[], .ok⟩ ++ [⟨[(9, 0x10)], .late⟩] }

theorem test_witness_ConstructWaitsInCfgPend :
    (Fresh (delaying 0) ∧ WaitsAt 0 (delaying 0) ∧ (delaying 0).grain = .command) ∧ Fresh (delaying 13) ∧
    WaitsAt 13 (delaying 13) ∧ (delaying 13).config.bankMismatchCheck = false :=
  ⟨⟨⟨rfl, rfl, rfl⟩, ⟨by simp [Completes], _, rfl, rfl⟩, rfl⟩, ⟨rfl, rfl, rfl⟩,
    ⟨by unfold Completes; decide, _, rfl, rfl⟩, rfl⟩

/-- An initialized block whose next transaction completes late, given two moves of the grain of commands. -/
def lateBlock : State :=
  { general .separate with turns := [⟨[(9, 0x10)], .late⟩], inputs := [.seq .command, .seq .command] }

theorem test_witness_LateCompletionOnlyDelays :
    (lateBlock.turns = ⟨[(9, 0x10)], .late⟩ :: [] ∧ lateBlock.inputs = .seq .command :: [.seq .command] ∧
      lateBlock.grain = .command ∧ ReadyIn .separate lateBlock ∧
      (readAddress Config.documented .separate (.setPin .a 7)).isSome = true ∧
      (writeAddress Config.documented .separate (.resetPins .a)).isSome = true) ∧
    Fresh { fresh with turns := [⟨[], .late⟩], inputs := [.seq .command] } ∧ fresh.grain = .command :=
  ⟨⟨rfl, rfl, rfl, ⟨rfl, rfl, rfl, rfl⟩, rfl, rfl⟩, ⟨rfl, rfl, rfl⟩, rfl⟩

/-- The first clause: the last construction write, at an attempt that is late. -/
theorem test_witness_LateCompletionOnlyDelays_inProgress :
    Inv { pushPending with turns := [⟨[(9, 0x10)], .late⟩] } ∧
    { pushPending with turns := [⟨[(9, 0x10)], .late⟩] }.phase ≠ .idle ∧
    BlockMoves { pushPending with turns := [⟨[(9, 0x10)], .late⟩] }
      (giveMove .event [] { pushPending with turns := [⟨[(9, 0x10)], .late⟩] }) :=
  ⟨⟨⟨.nil, by simp [pushPending, State.reset]⟩, by decide, fun h => absurd h (by decide), fun _ => rfl,
    fun h => absurd rfl h, fun _ => rfl,
    fun _ => ⟨rfl, rfl, .construct cfgA cfgB, .common, by decide, rfl, rfl, cfgA, cfgB, 13, ⟨6, 0x00⟩, rfl, rfl, rfl, rfl⟩⟩,
    by decide, .inl ⟨rfl, rfl⟩⟩

theorem test_witness_EventStepsAmountToTheCommandStep :
    Inv (presented ⟨0x500700, 0⟩ (general .separate)) ∧
    (presented ⟨0x500700, 0⟩ (general .separate)).inputs = .seq .command :: [] ∧
    ∃ t, step (presented ⟨0x500700, 0⟩ (general .separate)) = .next t :=
  ⟨inv_general .separate (some ⟨0x500700, 0⟩) [.seq .command] .command, rfl, _, rfl⟩

theorem test_witness_UpdateBetweenTheHalvesIsLost :
    ReadyIn .separate { block .separate portB with turns := [⟨[], .ok⟩, ⟨[(9, 0x10)], .ok⟩] } ∧
    { block .separate portB with turns := [⟨[], .ok⟩, ⟨[(9, 0x10)], .ok⟩] }.grain = .command ∧
    (block .separate portB).env = .reference ∧
    address Config.documented .a .currentValue .separate = 9 ∧ Memory.wf (block .separate portB).memory :=
  ⟨⟨rfl, rfl, rfl, rfl⟩, rfl, rfl, rfl, by decide⟩

theorem test_witness_AliasedCommandsIssueTheSameTransaction :
    ReadyIn .separate (general .separate) ∧ (general .separate).config = Config.documented := ⟨⟨rfl, rfl, rfl, rfl⟩, rfl⟩

theorem test_witness_LifecycleFlagChangesOnlyByConstructDestructReset :
    (∃ t, exec (.construct cfgA cfgB) fresh = .next t ∧ t.initialized ≠ fresh.initialized) ∧
    (∃ t, step (presented ⟨0xC00000, 0⟩ (general .common)) = .next t ∧ t.initialized ≠ (general .common).initialized) ∧
    ∃ t, step { general .common with inputs := [.reset false] } = .next t ∧
      t.initialized ≠ (general .common).initialized :=
  ⟨⟨_, rfl, by decide⟩, ⟨_, rfl, by decide⟩, _, rfl, by decide⟩

theorem test_witness_BankModeFixedWhileInitialized :
    ∃ t, step (presented ⟨0x200500, 0⟩ (block .separate portB)) = .next t ∧
      (presented ⟨0x200500, 0⟩ (block .separate portB)).initialized = true ∧ t.initialized = true := ⟨_, rfl, rfl, rfl⟩

theorem test_witness_EveryStepKeepsTheInvariant :
    ∃ t, step readPending = .next t ∧ Inv readPending := ⟨_, rfl, test_witness_readPending.1⟩

/-- The faults recorded in the next state. -/
def faultsOf (o : Host.Outcome State Fault Refusal) : Option (List UnwrittenRead) := (nextOf o).map (·.faults)

/-- The clauses about a register read while it holds no value (U9), each with a state no run reaches: the fault is recorded, and
the step answers a next state. -/
theorem test_witness_NoStepReadsAnUnwrittenRegister :
    (∃ t, step readPending = .next t ∧ t.faults = []) ∧ Inv readPending ∧
    faultsOf (exec (.getDirection .a) { general .separate with bankMode := none }) = some [.bankMode] ∧
    faultsOf (exec (.getDirection .a) { readPending with bankMode := none }) = some [.bankMode] ∧
    BlockMoves { readPending with cmd := none } (giveMove .event [] { readPending with cmd := none }) ∧
    (readAddress Config.documented .separate (.setPin .a 7) = some 9 ∧
      faultsOf (exec (.setPin .a 7) { writePending with tmp := none, turns := [] }) = some [.tmp]) ∧
    faultsOf (exec (.construct cfgA cfgB) { pushPending with bankMode := none }) = some [.bankMode] ∧
    ∃ n, exec (.construct cfgA cfgB) { pushPending with idx := none } =
      exec (.construct cfgA cfgB) { pushPending with idx := some n, faults := [.idx] } :=
  ⟨⟨_, rfl, rfl⟩, test_witness_readPending.1, rfl, rfl, .inl ⟨rfl, rfl⟩, ⟨rfl, rfl⟩, rfl, _, rfl⟩

theorem test_witness_OnlyAPresentedCommandIsRefused :
    (Inv (presented ⟨0x500800, 0⟩ (general .separate)) ∧
      step (presented ⟨0x500800, 0⟩ (general .separate)) = .refused .pinIndexOutOfRange) ∧
    (Inv (presented ⟨0xB00000, 0⟩ (general .separate)) ∧
      step (presented ⟨0xB00000, 0⟩ (general .separate)) = .refused .alreadyInitialized) ∧
    (Inv (presented ⟨0x200900, 0⟩ (general .separate)) ∧
      step (presented ⟨0x200900, 0⟩ (general .separate)) = .refused (.reservedWord .setKind)) ∧
    Inv (presented ⟨0x100900, 0⟩ State.reset) ∧
      step (presented ⟨0x100900, 0⟩ State.reset) = .refused .notInitialized :=
  ⟨⟨inv_general .separate (some ⟨0x500800, 0⟩) [.seq .command] .command, rfl⟩,
    ⟨inv_general .separate (some ⟨0xB00000, 0⟩) [.seq .command] .command, rfl⟩,
    ⟨inv_general .separate (some ⟨0x200900, 0⟩) [.seq .command] .command, rfl⟩,
    ⟨⟨.nil, by simp [presented, State.reset]⟩, by simp [presented, State.reset], fun _ => ⟨rfl, rfl, rfl, rfl, rfl⟩,
      fun _ => rfl, fun _ => ⟨rfl, rfl⟩, fun _ => rfl, fun h => absurd rfl h⟩, rfl⟩

theorem test_witness_AdmittedCommandEndsTheRun :
    ReadyIn .separate { general .separate with inputs := [.command ⟨0x500700, 0⟩] } ∧
    (general .separate).presented = none ∧ Completes 2 { general .separate with inputs := [.command ⟨0x500700, 0⟩] } ∧
    decode ⟨0x500700, 0⟩ = .ok (.setPin .a 7) ∧ Instr.wellFormed (.setPin .a 7) = true :=
  ⟨⟨rfl, rfl, rfl, rfl⟩, rfl, completes_nil rfl 2, by decide, rfl⟩

/-- The second clause: a run that has ended with an ENV write, a move of the block and a reset still to come. -/
def endedBlock : State :=
  { general .separate with rsp := some ⟨0x00, .ok⟩, inputs := [.envWrite 9 0x10, .seq .event, .reset false] }

theorem test_witness_AdmittedCommandEndsTheRun_stays :
    Inv endedBlock ∧ RunEnded endedBlock ∧ ∃ t, Sys2Proof.core.run 3 endedBlock = .next t ∧ RunEnded t ∧ t.rsp = none :=
  ⟨⟨⟨.nil, by simp [endedBlock, general, fresh, State.reset]⟩, fun _ => rfl, fun _ => ⟨rfl, rfl, rfl, rfl, rfl⟩,
      fun h => absurd rfl h, fun h => absurd rfl h, by decide, fun h => absurd rfl h⟩,
    ⟨by simp [endedBlock], rfl, rfl⟩, _, rfl, ⟨fun _ => List.not_mem_nil, rfl, rfl⟩, rfl⟩

end Sys2Proof.Tests
end

section
/-! PROOF. The decoder gives an encoded command back (R53, R62). -/

namespace Sys2Proof

theorem decode_encode (i : Instr) : decode (encode i) = .ok i := by
  cases i with
  | construct a b => simp [decode, encode, decodePlain, decodePort]
  | setPinState p pin st =>
    cases st <;> simp [decode, encode, Command.plain, decodePinState, PinState.code, PinState.ofBit]
  | _ =>
    simp [decode, encode, Command.plain, decodeGet, decodeSet, decodePin, decodePort, decodePlain, RegKind.ofCode, Instr.get,
      Instr.set]

end Sys2Proof
end

section
/-! PROOF. What the transport, the scripts and a step do whatever the inputs and the grain, and the block's moves of one event
(R8; log 1). -/

namespace Sys2Proof.Machine

/-! ### The transport looks at neither the inputs nor the grain -/

/-- The end of an attempt at a transaction, its state changed by `f`. -/
def Tx.map {α : Type} (f : State → State) : Tx α → Tx α
  | .done x s => .done x (f s)
  | .failed s => .failed (f s)
  | .waiting s => .waiting (f s)

theorem takeTurn_giveMove (g : Grain) (l : List Input) (s : State) :
    takeTurn (giveMove g l s) = ((takeTurn s).1, giveMove g l (takeTurn s).2) := by
  unfold takeTurn
  cases h : s.turns <;> simp [h, giveMove]

theorem answer_giveMove (a : Byte) (g : Grain) (l : List Input) (s : State) :
    answer a (giveMove g l s) = ((answer a s).1, giveMove g l (answer a s).2) := by
  unfold answer
  cases h : s.env with
  | general => simp only [giveMove_env, h]; rfl
  | reference => simp only [giveMove_env, h]; rfl

theorem readByte_giveMove (a : Byte) (g : Grain) (l : List Input) (s : State) :
    readByte a (giveMove g l s) = (readByte a s).map (giveMove g l) := by
  have hh : hold .rdPend (.read a) (giveMove g l s) = giveMove g l (hold .rdPend (.read a) s) := rfl
  unfold readByte
  rw [hh, takeTurn_giveMove]
  obtain ⟨c, u⟩ := takeTurn (hold .rdPend (.read a) s)
  cases c with
  | ok => simp only [answer_giveMove]; rfl
  | busErr took => cases h : u.config.transportErrors <;> simp [h] <;> rfl
  | late => rfl
  | never => rfl

theorem writeByte_giveMove (ph : Phase) (a v : Byte) (g : Grain) (l : List Input) (s : State) :
    writeByte ph a v (giveMove g l s) = (writeByte ph a v s).map (giveMove g l) := by
  have hh : hold ph (.write a v) (giveMove g l s) = giveMove g l (hold ph (.write a v) s) := rfl
  unfold writeByte
  rw [hh, takeTurn_giveMove]
  obtain ⟨c, u⟩ := takeTurn (hold ph (.write a v) s)
  cases c with
  | ok => simp only [absorb_eq]; rfl
  | busErr took => cases took <;> cases h : u.config.transportErrors <;> simp [absorb_eq, h] <;> rfl
  | late => rfl
  | never => rfl

/-! ### Moves of one event -/

/-- A move of one event leads from `s` to `u`, whatever inputs come behind it. The inputs and the grain of `s` and `u` themselves
do not matter. -/
def EventMove (s u : State) : Prop :=
  ∀ l, step (giveMove .event (.seq .event :: l) s) = .next (giveMove .event l u)

/-- `n` moves of one event lead from `s` to `t`. -/
inductive EventMoves : Nat → State → State → Prop
  | refl (s : State) : EventMoves 0 s s
  | cons {n : Nat} {s u t : State} (h : EventMove s u) (r : EventMoves n u t) : EventMoves (n + 1) s t

/-- At most `n` moves of one event, and at least one, lead from `s` to `t`. -/
def WithinMoves (n : Nat) (s t : State) : Prop := ∃ k, 1 ≤ k ∧ k ≤ n ∧ EventMoves k s t

theorem EventMove.within {s t : State} (h : EventMove s t) : WithinMoves 1 s t :=
  ⟨1, le_refl _, le_refl _, .cons h (.refl t)⟩

theorem WithinMoves.cons {n : Nat} {s u t : State} (h : EventMove s u) (r : WithinMoves n u t) : WithinMoves (n + 1) s t := by
  obtain ⟨k, -, hk, hr⟩ := r
  exact ⟨k + 1, by omega, by omega, .cons h hr⟩

theorem WithinMoves.mono {n k : Nat} {s t : State} (h : WithinMoves n s t) (hn : n ≤ k) : WithinMoves k s t := by
  obtain ⟨j, h1, hj, hr⟩ := h
  exact ⟨j, h1, hj.trans hn, hr⟩

theorem run_succ_of_step {s u : State} (h : step s = .next u) (n : Nat) :
    Sys2Proof.core.run (n + 1) s = Sys2Proof.core.run n u := by
  have hs : Sys2Proof.core.step s = .next u := h
  simp only [Host.Core.run, hs]

/-- Where the inputs give the block its moves one by one, the run makes them, and the inputs behind them are left. -/
theorem run_eventMoves {n : Nat} {s t : State} (h : EventMoves n s t) (l : List Input) :
    Sys2Proof.core.run n (giveMove .event (List.replicate n (.seq .event) ++ l) s) = .next (giveMove .event l t) := by
  induction h with
  | refl s => rfl
  | cons h _ ih => exact (run_succ_of_step (h _) _).trans ih

/-- Where no input is left the block has its moves, one event each. -/
theorem run_eventMoves_nil {n : Nat} {s t : State} (h : EventMoves n s t) :
    Sys2Proof.core.run n (giveMove .event [] s) = .next (giveMove .event [] t) := by
  induction h with
  | refl s => rfl
  | cons h _ ih => exact (run_succ_of_step (h []) _).trans ih

/-! ### What the block's move runs -/

theorem blockMoves_seq (g g' : Grain) (l : List Input) (s : State) :
    BlockMoves (giveMove g' (.seq g :: l) s) (giveMove g l s) := .inr (.inl ⟨g, l, rfl, rfl⟩)

/-- A due response is delivered by a move of one event. -/
theorem eventMove_deliver {s : State} {r : Response} (hp : s.phase = .idle) (hd : s.due = some r) : EventMove s (deliver s) :=
  fun _ => step_delivers (blockMoves_seq _ _ _ s) hp hd

/-- A move of the grain of events that begins at `s` runs `k` from `u`. -/
def MoveRuns (k : State → Host.Outcome State Fault Refusal) (s u : State) : Prop :=
  ∀ l, step (giveMove .event (.seq .event :: l) s) = k (giveMove .event l u)

/-- With nothing presented the block waits in IDLE (R160). -/
theorem step_waits {s u : State} (h : BlockMoves s u) (hp : s.phase = .idle) (hd : s.due = none) (hq : s.presented = none) :
    step s = .next u := by
  rcases step_idle h hp hd with ⟨-, hs⟩ | ⟨c, why, hc, -⟩ | ⟨c, i, hc, -⟩
  · exact hs
  · exact absurd (hq.symm.trans hc) (by simp)
  · exact absurd (hq.symm.trans hc) (by simp)

/-- The command presented to an idle block is run from the state in which it has been taken (R50). -/
theorem moveRuns_presented {s : State} {c : Command} {i : Instr} (hp : s.phase = .idle) (hd : s.due = none)
    (hq : s.presented = some c) (hc : decode c = .ok i) : MoveRuns (exec i) s (takePresented s) := by
  intro l
  rcases step_idle (blockMoves_seq .event .event l s) hp hd with ⟨h, -⟩ | ⟨c', why, h, he, -⟩ | ⟨c', j, h, he, hs⟩
  · exact absurd (hq.symm.trans h) (by simp)
  · obtain rfl : c = c' := Option.some.inj (hq.symm.trans h)
    simp [hc] at he
  · obtain rfl : c = c' := Option.some.inj (hq.symm.trans h)
    obtain rfl : i = j := by simpa [hc] using he
    exact hs

/-- Command `i` is in progress in mode `m`, at one of its transactions (R14, R16). -/
structure InProgress (i : Instr) (m : BankMode) (s : State) : Prop where
  pending : s.phase ≠ .idle
  cmd : s.cmd = some (encode i)
  bankMode : s.bankMode = some m
  position : AtPosition i m s

theorem step_inProgress {s u : State} {i : Instr} (hp : s.phase ≠ .idle) (hc : s.cmd = some (encode i)) (h : BlockMoves s u) :
    step s = exec i u := by
  have hd : decode (commandOf s) = .ok i := by rw [commandOf_some hc, decode_encode]
  have hu : u.cmd = some (encode i) := by rw [h.eq]; exact hc
  rcases goesOn_pending hp h with ⟨why, he, -⟩ | ⟨j, he, hs⟩
  · simp [hd] at he
  · obtain rfl : i = j := by simpa [hd] using he
    rw [hs, noteCmd_some hu]

theorem InProgress.moveRuns {i : Instr} {m : BankMode} {s : State} (h : InProgress i m s) : MoveRuns (exec i) s s :=
  fun l => step_inProgress h.pending h.cmd (blockMoves_seq .event .event l s)

/-! ### A move after which the command has ended or waits -/

/-- From `s`, `k` ends its command with a response, or leaves it waiting, and looks at neither the inputs nor the grain before. -/
def LastMove (k : State → Host.Outcome State Fault Refusal) (s : State) : Prop :=
  (∃ v st u, ∀ g l, k (giveMove g l s) = .next (respond v st (giveMove g l u))) ∨
  ∃ u, ∀ g l, k (giveMove g l s) = .next (giveMove g l u)

theorem LastMove.congr {k k' : State → Host.Outcome State Fault Refusal} {s : State}
    (he : ∀ g l, k' (giveMove g l s) = k (giveMove g l s)) (h : LastMove k s) : LastMove k' s := by
  simpa only [LastMove, he] using h

theorem lastRead_lastMove (a : Byte) (post : Byte → Byte) (s : State) : LastMove (lastRead a post) s := by
  cases h : readByte a s with
  | done v u => exact .inl ⟨post v, .ok, u, fun g l => by simp only [lastRead, readByte_giveMove, h]; rfl⟩
  | failed u => exact .inl ⟨0x00, .transportFailure, u, fun g l => by simp only [lastRead, readByte_giveMove, h]; rfl⟩
  | waiting u => exact .inr ⟨u, fun g l => by simp only [lastRead, readByte_giveMove, h]; rfl⟩

theorem lastWrite_lastMove (a v : Byte) (s : State) : LastMove (lastWrite a v) s := by
  cases h : writeByte .wrPend a v s with
  | done x u => exact .inl ⟨0x00, .ok, u, fun g l => by simp only [lastWrite, writeByte_giveMove, h]; rfl⟩
  | failed u => exact .inl ⟨0x00, .transportFailure, u, fun g l => by simp only [lastWrite, writeByte_giveMove, h]; rfl⟩
  | waiting u => exact .inr ⟨u, fun g l => by simp only [lastWrite, writeByte_giveMove, h]; rfl⟩

/-- The last move of a command at the grain of commands is, at the grain of events, that move and the delivery of the response. -/
theorem LastMove.within {k : State → Host.Outcome State Fault Refusal} {s u t : State} (hk : LastMove k u)
    (hs : MoveRuns k s u) (hg : u.grain = .command) (h : k u = .next t) : WithinMoves 2 s t := by
  have hu : u = giveMove .command u.inputs u := by rw [← hg]; rfl
  rw [hu] at h
  rcases hk with ⟨v, st, w, hw⟩ | ⟨w, hw⟩
  · rw [hw] at h
    cases h
    have hm : EventMove s (respond v st (giveMove .event [] w)) := fun l => (hs l).trans (hw _ _)
    have hd : EventMove (respond v st (giveMove .event [] w)) (respond v st (giveMove .command u.inputs w)) :=
      fun l => eventMove_deliver (r := ⟨v, st⟩) rfl rfl l
    exact .cons hm hd.within
  · rw [hw] at h
    cases h
    have hm : EventMove s (giveMove .command u.inputs w) := fun l => (hs l).trans (hw _ _)
    exact hm.within.mono (by omega)

end Sys2Proof.Machine
end

section
/-! PROOF. From where a command in progress stands, or from its acceptance, moves of one event lead where its one move leads
(R8; log 1). -/

namespace Sys2Proof.Machine

/-! ### A command in progress, by its position -/

section Position
variable {i : Instr} {m : BankMode} {s : State}

theorem InProgress.atRead (h : InProgress i m s) (hp : s.phase = .rdPend) :
    s.initialized = true ∧ ∃ a, readAddress s.config m i = some a ∧ s.bus = some (.read a) := by
  simpa only [AtPosition, hp] using h.position

theorem InProgress.atWrite (h : InProgress i m s) (hp : s.phase = .wrPend) :
    s.initialized = true ∧ ∃ a x, writeAddress s.config m i = some a ∧
      ((readAddress s.config m i).isSome = true → s.tmp = some x) ∧ s.bus = some (.write a (writtenByte x i)) := by
  simpa only [AtPosition, hp] using h.position

theorem InProgress.atPush (h : InProgress i m s) (hp : s.phase = .cfgPend) :
    s.initialized = false ∧ ∃ cfgA cfgB n w, i = .construct cfgA cfgB ∧ s.idx = some n ∧
      (pushWrites s.config m cfgA cfgB)[n.val]? = some w ∧ s.bus = some (.write w.addr w.data) := by
  simpa only [AtPosition, hp] using h.position

/-- A command that is in progress and is not at a construction write is the script of its mode. -/
theorem InProgress.exec_eq_scriptOf (h : InProgress i m s) (hp : s.phase ≠ .cfgPend) : exec i s = scriptOf i m s := by
  have ht : (readAddress s.config m i).isSome = true ∨ (writeAddress s.config m i).isSome = true := by
    cases hq : s.phase with
    | idle => exact absurd hq h.pending
    | cfgPend => exact absurd hq hp
    | rdPend => obtain ⟨-, a, ha, -⟩ := h.atRead hq; exact .inl (by simp [ha])
    | wrPend => obtain ⟨-, a, x, ha, -⟩ := h.atWrite hq; exact .inr (by simp [ha])
  obtain ⟨hw, hc, hd⟩ := wellFormed_of_transaction ht
  rw [exec_eq_operate hc hd hw, operate_inProgress h.pending h.cmd h.bankMode]

/-- What a command that reads nothing writes does not depend on a byte read. -/
theorem writtenByte_of_no_read {c : Config} {a : Byte} (hr : readAddress c m i = none) (hw : writeAddress c m i = some a)
    (x y : Byte) : writtenByte x i = writtenByte y i := by
  cases i <;> simp_all [readAddress, writeAddress, writtenByte]

theorem scriptOf_read {a : Byte} (hr : readAddress s.config m i = some a) (hw : writeAddress s.config m i = none) :
    scriptOf i m s = readScript a (fun v => responseByte v i) s := by simp only [scriptOf, hr, hw]

theorem scriptOf_write {a : Byte} (hr : readAddress s.config m i = none) (hw : writeAddress s.config m i = some a) :
    scriptOf i m s = writeScript a (writtenByte 0 i) s := by simp only [scriptOf, hr, hw]

theorem scriptOf_rmw {a b : Byte} (hr : readAddress s.config m i = some a) (hw : writeAddress s.config m i = some b) :
    scriptOf i m s = rmwScript a (fun x => writtenByte x i) s := by simp only [scriptOf, hr, hw]

/-- In RD_PEND a command that only reads is at its last transaction. -/
theorem scriptOf_atRead {a : Byte} (hp : s.phase = .rdPend) (hr : readAddress s.config m i = some a)
    (hw : writeAddress s.config m i = none) : scriptOf i m s = lastRead a (fun v => responseByte v i) s := by
  rw [scriptOf_read hr hw, readScript, opening_pending (by simp [hp])]

/-- In RD_PEND a command that reads and writes is at its read half. -/
theorem scriptOf_atReadHalf {a b : Byte} (hp : s.phase = .rdPend) (hr : readAddress s.config m i = some a)
    (hw : writeAddress s.config m i = some b) : scriptOf i m s = rmwReadHalf a (fun x => writtenByte x i) s := by
  rw [scriptOf_rmw hr hw, rmwScript_eq, if_neg (by simp [hp]), opening_pending (by simp [hp])]

/-- In WR_PEND a command is at its last write, of the byte its rule gives. -/
theorem scriptOf_atWrite {a x : Byte} (hp : s.phase = .wrPend) (hw : writeAddress s.config m i = some a)
    (hx : (readAddress s.config m i).isSome = true → s.tmp = some x) :
    scriptOf i m s = lastWrite a (writtenByte x i) s := by
  cases hr : readAddress s.config m i with
  | none => rw [scriptOf_write hr hw, writeScript, opening_pending (by simp [hp]), writtenByte_of_no_read hr hw]
  | some b =>
    obtain rfl := writeAddress_of_read hr hw
    have ht : s.tmp = some x := hx (by simp [hr])
    rw [scriptOf_rmw hr hw, rmwScript_eq, if_pos hp, rmwWriteHalf, tmpOf_some ht, noteTmp_some ht]

theorem InProgress.exec_atWrite {a x : Byte} (h : InProgress i m s) (hp : s.phase = .wrPend)
    (hw : writeAddress s.config m i = some a) (hx : (readAddress s.config m i).isSome = true → s.tmp = some x) :
    exec i s = lastWrite a (writtenByte x i) s :=
  (h.exec_eq_scriptOf (by simp [hp])).trans (scriptOf_atWrite hp hw hx)

end Position

/-! ### From a transaction of a command that is not CONSTRUCT -/

/-- The move's inputs and grain do not matter to where a command stands. -/
theorem InProgress.moved {i : Instr} {m : BankMode} {s : State} (h : InProgress i m s) (g : Grain) (l : List Input) :
    InProgress i m (giveMove g l s) := ⟨h.pending, h.cmd, h.bankMode, h.position⟩

/-- From its last write a command goes within two moves of one event where its one move goes. -/
theorem InProgress.within_of_write {i : Instr} {m : BankMode} {s t : State} (h : InProgress i m s) (hp : s.phase = .wrPend)
    (hg : s.grain = .command) (ht : exec i s = .next t) : WithinMoves 2 s t := by
  obtain ⟨-, a, x, hw, hx, -⟩ := h.atWrite hp
  have he : ∀ g l, exec i (giveMove g l s) = lastWrite a (writtenByte x i) (giveMove g l s) := fun g l =>
    (h.moved g l).exec_atWrite hp hw hx
  exact (LastMove.congr he (lastWrite_lastMove a _ s)).within h.moveRuns hg ht

/-- What a transaction leaves of the command in hand and of the block. -/
structure Carries (s u : State) : Prop where
  config : u.config = s.config
  initialized : u.initialized = s.initialized
  bankMode : u.bankMode = s.bankMode
  cmd : u.cmd = s.cmd
  grain : u.grain = s.grain

theorem readByte_carries {a v : Byte} {s u : State} (h : readByte a s = .done v u) : Carries s u := by
  rcases readByte_cases a s with ⟨v', d, hr⟩ | ⟨-, hr⟩ | hr <;> rw [hr] at h <;> cases h
  exact ⟨rfl, rfl, rfl, rfl, rfl⟩

theorem writeByte_carries {ph : Phase} {a v : Byte} {x : Unit} {s u : State} (h : writeByte ph a v s = .done x u) :
    Carries s u := by
  rcases writeByte_cases ph a v s with ⟨mm, -, hr⟩ | ⟨-, mm, -, hr⟩ | hr <;> rw [hr] at h <;> cases h
  exact ⟨rfl, rfl, rfl, rfl, rfl⟩

theorem rmwReadHalf_done {a v : Byte} {f : Byte → Byte} {s u : State} (h : readByte a s = .done v u) :
    rmwReadHalf a f s = following .wrPend (.write a (f v)) (rmwWriteHalf a f) (latchTmp v u) := by
  simp only [rmwReadHalf, h]

/-- From its read a command goes within three moves of one event where its one move goes. -/
theorem InProgress.within_of_read {i : Instr} {m : BankMode} {s t : State} (h : InProgress i m s) (hp : s.phase = .rdPend)
    (hg : s.grain = .command) (ht : exec i s = .next t) : WithinMoves 3 s t := by
  obtain ⟨hi, a, hr, -⟩ := h.atRead hp
  have hs : ∀ g l, exec i (giveMove g l s) = scriptOf i m (giveMove g l s) := fun g l =>
    (h.moved g l).exec_eq_scriptOf (by simp [hp])
  cases hw : writeAddress s.config m i with
  | none =>
    have he : ∀ g l, exec i (giveMove g l s) = lastRead a (fun v => responseByte v i) (giveMove g l s) :=
      fun g l => (hs g l).trans (scriptOf_atRead hp hr hw)
    exact ((LastMove.congr he (lastRead_lastMove a _ s)).within h.moveRuns hg ht).mono (by omega)
  | some b =>
    obtain rfl := writeAddress_of_read hr hw
    have he : ∀ g l, exec i (giveMove g l s) = rmwReadHalf a (fun x => writtenByte x i) (giveMove g l s) :=
      fun g l => (hs g l).trans (scriptOf_atReadHalf hp hr hw)
    cases hb : readByte a s with
    | done v u =>
      have hq : rmwReadHalf a (fun x => writtenByte x i) s = .next t := (he s.grain s.inputs).symm.trans ht
      rw [rmwReadHalf_done hb, following_command (by simpa [(readByte_carries hb).grain] using hg), rmwWriteHalf,
        tmpOf_some (latchTmp_tmp _ _), noteTmp_some (latchTmp_tmp _ _)] at hq
      obtain ⟨hc, hi', hm, hcmd, hg'⟩ := readByte_carries hb
      have hwu : writeAddress u.config m i = some a := hc ▸ hw
      have hpend : InProgress i m (hold .wrPend (.write a (writtenByte v i)) (latchTmp v u)) :=
        ⟨by simp, hcmd.trans h.cmd, hm.trans h.bankMode, hi'.trans hi, a, v, hwu, fun _ => rfl, rfl⟩
      have hmove : EventMove s (hold .wrPend (.write a (writtenByte v i)) (latchTmp v u)) := fun l =>
        (h.moveRuns l).trans ((he _ _).trans (by simp only [rmwReadHalf, readByte_giveMove, hb]; rfl))
      refine .cons hmove (hpend.within_of_write rfl (hg'.trans hg) ?_)
      exact (hpend.exec_atWrite rfl hwu fun _ => rfl).trans hq
    | failed u =>
      have hl : LastMove (exec i) s :=
        .inl ⟨_, _, _, fun g l => by simp only [he, rmwReadHalf, readByte_giveMove, hb]; rfl⟩
      exact (hl.within h.moveRuns hg ht).mono (by omega)
    | waiting u =>
      have hl : LastMove (exec i) s :=
        .inr ⟨_, fun g l => by simp only [he, rmwReadHalf, readByte_giveMove, hb]; rfl⟩
      exact (hl.within h.moveRuns hg ht).mono (by omega)

/-! ### From a construction write -/

theorem InProgress.exec_eq_pushScript {a b : PortConfig} {m : BankMode} {s : State} (h : InProgress (.construct a b) m s)
    {n : Fin 14} (hn : s.idx = some n) :
    exec (.construct a b) s = pushScript ((pushWrites s.config m a b).drop n.val) n.val s := by
  cases hp : s.phase with
  | idle => exact absurd hp h.pending
  | rdPend | wrPend | cfgPend =>
    simp [exec, execConstruct, constructAdmission, hp, h.cmd, constructFromPush, withMode, modeOf_some h.bankMode,
      noteMode_some h.bankMode, idxOf_some hn, noteIdx_some hn]

/-- At the grain of commands a construction write that is done is followed by the next. -/
theorem pushScript_cons_command {w : PushWrite} {rest : List PushWrite} {n : Nat} {s u : State}
    (h : writeByte .cfgPend w.addr w.data (countPush n s) = .done () u) (hg : u.grain = .command) :
    pushScript (w :: rest) n s = pushScript rest (n + 1) u := by
  rw [pushScript]
  simp only [h, pushPause_command hg]

/-- From construction write number `n` CONSTRUCT goes, within one move of one event for each write left and one for the delivery,
where its one move goes. -/
theorem InProgress.within_of_push {a b : PortConfig} {m : BankMode} {s t : State} {k n : Nat} (hk : n + k = 13)
    (h : InProgress (.construct a b) m s) (hp : s.phase = .cfgPend) (hn : s.idx = some (Fin.ofNat 14 n))
    (hg : s.grain = .command) (ht : exec (.construct a b) s = .next t) : WithinMoves (k + 2) s t := by
  have hlen := pushWrites_length s.config m a b
  have hlt : n < (pushWrites s.config m a b).length := by omega
  have hv : (Fin.ofNat 14 n).val = n := by simp [Fin.ofNat, Nat.mod_eq_of_lt (show n < 14 by omega)]
  have he : ∀ g l, exec (.construct a b) (giveMove g l s) =
      pushScript ((pushWrites s.config m a b).drop n) n (giveMove g l s) := fun g l => by
    rw [(h.moved g l).exec_eq_pushScript (n := Fin.ofNat 14 n) hn, hv]; rfl
  obtain ⟨hi, -⟩ := h.atPush hp
  rw [List.drop_eq_getElem_cons hlt] at he
  generalize (pushWrites s.config m a b)[n] = w at he
  have hgm : ∀ g l, writeByte .cfgPend w.addr w.data (countPush n (giveMove g l s)) =
      (writeByte .cfgPend w.addr w.data (countPush n s)).map (giveMove g l) := fun g l =>
    writeByte_giveMove .cfgPend w.addr w.data g l (countPush n s)
  cases hb : writeByte .cfgPend w.addr w.data (countPush n s) with
  | failed u =>
    have hl : LastMove (exec (.construct a b)) s :=
      .inl ⟨_, _, _, fun g l => by simp only [he, pushScript, hgm, hb]; rfl⟩
    exact (hl.within h.moveRuns hg ht).mono (by omega)
  | waiting u =>
    have hl : LastMove (exec (.construct a b)) s :=
      .inr ⟨_, fun g l => by simp only [he, pushScript, hgm, hb]; rfl⟩
    exact (hl.within h.moveRuns hg ht).mono (by omega)
  | done x u =>
    obtain ⟨hc, hi', hm, hcmd, hg'⟩ := writeByte_carries hb
    cases k with
    | zero =>
      have hd : (pushWrites s.config m a b).drop (n + 1) = [] := List.drop_of_length_le (by omega)
      rw [hd] at he
      have hl : LastMove (exec (.construct a b)) s :=
        .inl ⟨_, _, setLifecycle true u, fun g l => by simp only [he, pushScript, hgm, hb]; rfl⟩
      exact hl.within h.moveRuns hg ht
    | succ k =>
      have hlt' : n + 1 < (pushWrites s.config m a b).length := by omega
      have hv' : (Fin.ofNat 14 (n + 1)).val = n + 1 := by simp [Fin.ofNat, Nat.mod_eq_of_lt (show n + 1 < 14 by omega)]
      have hd := List.drop_eq_getElem_cons hlt'
      have hw' := List.getElem?_eq_getElem hlt'
      generalize (pushWrites s.config m a b)[n + 1] = w' at hd hw'
      rw [hd] at he
      have hq : pushScript (w' :: (pushWrites s.config m a b).drop (n + 1 + 1)) (n + 1) u = .next t :=
        (pushScript_cons_command hb (hg'.trans hg)).symm.trans ((he s.grain s.inputs).symm.trans ht)
      have hpend : InProgress (.construct a b) m (hold .cfgPend (.write w'.addr w'.data) (countPush (n + 1) u)) :=
        ⟨by simp, hcmd.trans h.cmd, hm.trans h.bankMode, hi'.trans hi, a, b, _, w', rfl, rfl, by
          rw [hv']; simpa [hc] using hw', rfl⟩
      have hmove : EventMove s (hold .cfgPend (.write w'.addr w'.data) (countPush (n + 1) u)) := fun l =>
        (h.moveRuns l).trans ((he _ _).trans (by simp only [pushScript, hgm, hb]; rfl))
      refine .cons hmove (InProgress.within_of_push (k := k) (n := n + 1) (by omega) hpend rfl rfl (hg'.trans hg) ?_)
      rw [hpend.exec_eq_pushScript rfl, hv']
      simp only [hold_config, countPush_config, hc, hd]
      exact hq

end Sys2Proof.Machine
end

section
/-! PROOF. The acceptance of a command, issued as an event of its own at the grain of events, and the events behind it (R8, R16,
R86; log 1). -/

namespace Sys2Proof.Machine

/-! ### The first request of a command -/

section First
variable {i : Instr} {m : BankMode} {a : Byte} {s : State}

theorem scriptOf_issues_read (hp : s.phase = .idle) (hg : s.grain = .event) (hr : readAddress s.config m i = some a) :
    scriptOf i m s = .next (hold .rdPend (.read a) s) := by
  cases hw : writeAddress s.config m i with
  | none => rw [scriptOf_read hr hw, readScript, opening_event hp hg]
  | some b => rw [scriptOf_rmw hr hw, rmwScript_eq, if_neg (by simp [hp]), opening_event hp hg]

theorem scriptOf_issues_write (hp : s.phase = .idle) (hg : s.grain = .event) (hr : readAddress s.config m i = none)
    (hw : writeAddress s.config m i = some a) : scriptOf i m s = .next (hold .wrPend (.write a (writtenByte 0 i)) s) := by
  rw [scriptOf_write hr hw, writeScript, opening_event hp hg]

/-- At the grain of commands a script goes on from its read as if the request had been issued before. -/
theorem scriptOf_hold_read (hp : s.phase = .idle) (hg : s.grain = .command) (hr : readAddress s.config m i = some a) :
    scriptOf i m (hold .rdPend (.read a) s) = scriptOf i m s := by
  cases hw : writeAddress s.config m i with
  | none =>
    rw [scriptOf_atRead rfl (by exact hr) (by exact hw), scriptOf_read hr hw, readScript, opening_command hg]
    rfl
  | some b =>
    rw [scriptOf_atReadHalf rfl (by exact hr) (by exact hw), scriptOf_rmw hr hw, rmwScript_eq, if_neg (by simp [hp]),
      opening_command hg]
    rfl

theorem scriptOf_hold_write (hg : s.grain = .command) (hr : readAddress s.config m i = none)
    (hw : writeAddress s.config m i = some a) :
    scriptOf i m (hold .wrPend (.write a (writtenByte 0 i)) s) = scriptOf i m s := by
  have hx : (readAddress (hold .wrPend (.write a (writtenByte 0 i)) s).config m i).isSome = true →
      (hold .wrPend (.write a (writtenByte 0 i)) s).tmp = some 0 := by simp [hr]
  rw [scriptOf_atWrite rfl (by exact hw) hx, scriptOf_write hr hw, writeScript, opening_command hg]
  rfl

/-- A ready block runs the script of a command that has a transaction. -/
theorem exec_ready_of_transaction (h : ReadyIn m s)
    (ht : (readAddress s.config m i).isSome = true ∨ (writeAddress s.config m i).isSome = true) :
    exec i s = scriptOf i m (accept (encode i) s) := by
  obtain ⟨hw, hc, hd⟩ := wellFormed_of_transaction ht
  exact exec_ready h hc hd hw

/-- A command has been accepted and its first request issued. -/
def accepted (i : Instr) (ph : Phase) (r : BusRequest) (s : State) : State := hold ph r (accept (encode i) s)

/-- CONSTRUCT has been accepted, the mode derived and its first write issued. -/
def constructAccepted (cfgA cfgB : PortConfig) (w : PushWrite) (s : State) : State :=
  hold .cfgPend (.write w.addr w.data) (countPush 0
    (cacheMode (derivedMode s.config cfgA cfgB) (accept (encode (.construct cfgA cfgB)) s)))

/-- At the grain of events a ready block accepts a command that reads and issues its read. -/
theorem exec_issues_read (h : ReadyIn m s) (hg : s.grain = .event) (hr : readAddress s.config m i = some a) :
    exec i s = .next (accepted i .rdPend (.read a) s) := by
  rw [exec_ready_of_transaction h (.inl (by simp [hr]))]
  exact scriptOf_issues_read h.1 hg hr

/-- At the grain of events a ready block accepts a command that only writes and issues its write. -/
theorem exec_issues_write (h : ReadyIn m s) (hg : s.grain = .event) (hr : readAddress s.config m i = none)
    (hw : writeAddress s.config m i = some a) :
    exec i s = .next (accepted i .wrPend (.write a (writtenByte 0 i)) s) := by
  rw [exec_ready_of_transaction h (.inr (by simp [hw]))]
  exact scriptOf_issues_write h.1 hg hr hw

/-- At the grain of events a fresh block accepts CONSTRUCT, the check off or passed, and issues its first write. -/
theorem exec_construct_issues {cfgA cfgB : PortConfig} {w : PushWrite} (h : Fresh s) (hg : s.grain = .event)
    (hb : s.config.bankMismatchCheck = true → bankBitsDiffer s.config cfgA cfgB = false)
    (hw : (pushWrites s.config (derivedMode s.config cfgA cfgB) cfgA cfgB)[0]? = some w) :
    exec (.construct cfgA cfgB) s = .next (constructAccepted cfgA cfgB w s) := by
  rw [exec_construct_fresh h hb]
  rcases pushFromStart_cases (pushWrites s.config (derivedMode s.config cfgA cfgB) cfgA cfgB)
    (cacheMode (derivedMode s.config cfgA cfgB) (accept (encode (.construct cfgA cfgB)) s)) with
    ⟨w', rest, hc, -, ho⟩ | ⟨hn | hn, -⟩
  · obtain rfl : w' = w := by simpa [hc] using hw
    exact ho
  · simp [hn] at hw
  · simp [hg] at hn

/-- From its acceptance a command stands at its read, and goes on, at the grain of commands, as in one piece. -/
theorem accepted_read (h : ReadyIn m s) (hr : readAddress s.config m i = some a) :
    InProgress i m (accepted i .rdPend (.read a) s) ∧
      (s.grain = .command → exec i (accepted i .rdPend (.read a) s) = exec i s) := by
  have hpend : InProgress i m (accepted i .rdPend (.read a) s) := ⟨by simp [accepted], rfl, h.2.2.2, h.2.2.1, a, hr, rfl⟩
  refine ⟨hpend, fun hg => ?_⟩
  rw [hpend.exec_eq_scriptOf (by simp [accepted]), exec_ready_of_transaction h (.inl (by simp [hr]))]
  exact scriptOf_hold_read (s := accept (encode i) s) h.1 hg hr

theorem accepted_write (h : ReadyIn m s) (hr : readAddress s.config m i = none) (hw : writeAddress s.config m i = some a) :
    InProgress i m (accepted i .wrPend (.write a (writtenByte 0 i)) s) ∧
      (s.grain = .command → exec i (accepted i .wrPend (.write a (writtenByte 0 i)) s) = exec i s) := by
  have hpend : InProgress i m (accepted i .wrPend (.write a (writtenByte 0 i)) s) :=
    ⟨by simp [accepted], rfl, h.2.2.2, h.2.2.1, a, 0, hw, by simp [accepted, hr], rfl⟩
  refine ⟨hpend, fun hg => ?_⟩
  rw [hpend.exec_eq_scriptOf (by simp [accepted]), exec_ready_of_transaction h (.inr (by simp [hw]))]
  exact scriptOf_hold_write (s := accept (encode i) s) hg hr hw

theorem constructAccepted_push {cfgA cfgB : PortConfig} {w : PushWrite} (h : Fresh s)
    (hb : s.config.bankMismatchCheck = true → bankBitsDiffer s.config cfgA cfgB = false)
    (hw : (pushWrites s.config (derivedMode s.config cfgA cfgB) cfgA cfgB)[0]? = some w) :
    InProgress (.construct cfgA cfgB) (derivedMode s.config cfgA cfgB) (constructAccepted cfgA cfgB w s) ∧
      (s.grain = .command →
        exec (.construct cfgA cfgB) (constructAccepted cfgA cfgB w s) = exec (.construct cfgA cfgB) s) := by
  have hpend : InProgress (.construct cfgA cfgB) (derivedMode s.config cfgA cfgB) (constructAccepted cfgA cfgB w s) :=
    ⟨by simp [constructAccepted], rfl, rfl, h.2.2, cfgA, cfgB, 0, w, rfl, rfl, hw, rfl⟩
  refine ⟨hpend, fun hg => ?_⟩
  rw [exec_construct_fresh h hb, pushFromStart_command (by exact hg), hpend.exec_eq_pushScript rfl]
  change pushScript (pushWrites s.config (derivedMode s.config cfgA cfgB) cfgA cfgB) 0 _ = _
  cases hws : pushWrites s.config (derivedMode s.config cfgA cfgB) cfgA cfgB with
  | nil => simp [hws] at hw
  | cons w' rest =>
    obtain rfl : w' = w := by simpa [hws] using hw
    rfl

end First

/-! ### From the acceptance of a command -/

theorem ReadyIn.moved {m : BankMode} {s : State} (h : ReadyIn m s) (g : Grain) (l : List Input) :
    ReadyIn m (giveMove g l s) := h

theorem Fresh.moved {s : State} (h : Fresh s) (g : Grain) (l : List Input) : Fresh (giveMove g l s) := h

theorem exec_destruct_ready {m : BankMode} {s : State} (h : ReadyIn m s) :
    exec .destruct s = .next (respond 0x00 .ok (setLifecycle false (accept (encode .destruct) s))) := by
  obtain ⟨hp, hd, hi, -⟩ := h
  simp [exec, execDestruct, hp, hd, hi]

/-- A ready block goes, within four moves of one event, where the one move of a well-formed command goes. -/
theorem ReadyIn.within {i : Instr} {m : BankMode} {s u t : State} (h : ReadyIn m u) (hw : i.wellFormed = true)
    (hc : ∀ a b, i ≠ .construct a b) (hs : MoveRuns (exec i) s u) (hg : u.grain = .command) (ht : exec i u = .next t) :
    WithinMoves 4 s t := by
  by_cases hd : i = .destruct
  · subst hd
    have hl : LastMove (exec .destruct) u := .inl ⟨_, _, setLifecycle false (accept (encode .destruct) u),
      fun g l => exec_destruct_ready (h.moved g l)⟩
    exact (hl.within hs hg ht).mono (by omega)
  cases hr : readAddress u.config m i with
  | some a =>
    obtain ⟨hpend, he⟩ := accepted_read h hr
    have hm : EventMove s (accepted i .rdPend (.read a) u) := fun l =>
      (hs l).trans (exec_issues_read (h.moved .event l) rfl hr)
    exact .cons hm (hpend.within_of_read rfl hg ((he hg).trans ht))
  | none =>
    obtain ⟨a, hwa⟩ : ∃ a, writeAddress u.config m i = some a := by
      simpa [hr, Option.isSome_iff_exists] using transaction_of_wellFormed hc hd hw u.config m
    obtain ⟨hpend, he⟩ := accepted_write h hr hwa
    have hm : EventMove s (accepted i .wrPend (.write a (writtenByte 0 i)) u) := fun l =>
      (hs l).trans (exec_issues_write (h.moved .event l) rfl hr hwa)
    exact (WithinMoves.cons hm (hpend.within_of_write rfl hg ((he hg).trans ht))).mono (by omega)

/-- A fresh block goes, within sixteen moves of one event, where the one move of CONSTRUCT goes. -/
theorem Fresh.within {a b : PortConfig} {s u t : State} (h : Fresh u) (hs : MoveRuns (exec (.construct a b)) s u)
    (hg : u.grain = .command) (ht : exec (.construct a b) u = .next t) : WithinMoves 16 s t := by
  by_cases hb : u.config.bankMismatchCheck = true → bankBitsDiffer u.config a b = false
  · have hlen := pushWrites_length u.config (derivedMode u.config a b) a b
    obtain ⟨w, hw⟩ : ∃ w, (pushWrites u.config (derivedMode u.config a b) a b)[0]? = some w :=
      ⟨_, List.getElem?_eq_getElem (by omega)⟩
    obtain ⟨hpend, he⟩ := constructAccepted_push h hb hw
    have hm : EventMove s (constructAccepted a b w u) := fun l =>
      (hs l).trans (exec_construct_issues (h.moved .event l) rfl hb hw)
    exact .cons hm (hpend.within_of_push (k := 13) (n := 0) rfl rfl rfl hg ((he hg).trans ht))
  · obtain ⟨hchk, hdiff⟩ := Classical.not_imp.mp hb
    obtain ⟨hp, hd, hi⟩ := id h
    have hl : LastMove (exec (.construct a b)) u := .inl ⟨0x00, .bankMismatch, accept (encode (.construct a b)) u, fun g l => by
      simp [exec, execConstruct, constructAdmission, constructFromStart, hp, hd, hi, hchk, hdiff]; rfl⟩
    exact (hl.within hs hg ht).mono (by omega)

/-- A pin command with an index above 7 ends with its acceptance and the delivery of its error. -/
theorem illFormed_within {i : Instr} {s u t : State} (hw : i.wellFormed = false) (hp : u.phase = .idle) (hd : u.due = none)
    (hs : MoveRuns (exec i) s u) (hg : u.grain = .command) (ht : exec i u = .next t) : WithinMoves 2 s t := by
  have hpc : u.config.pinCheck = true := (illFormedEnd_next (exec_illFormed hw u ▸ ht)).2
  have hi : u.initialized = true := by
    by_contra hi
    rw [exec_illFormed hw, illFormedEnd, admission_idle hp hd] at ht
    simp [hi] at ht
  have hl : LastMove (exec i) u := .inl ⟨0x00, .invalidPinIndex, accept (encode i) u, fun g l => by
    rw [exec_illFormed hw, illFormedEnd, admission_idle (by exact hp) (by exact hd)]
    simp [hi, present, hp, badPinIndex, hpc]; rfl⟩
  exact hl.within hs hg ht

end Sys2Proof.Machine
end

section
/-! PROOF. What one event of a command adds to the history (R8), a step from its inputs, and the statements of the scope. -/

namespace Sys2Proof.Machine

/-! ### One event adds at most one transaction -/

/-- A step of a command in progress, at the grain of events: at most one transaction, and no response delivered. -/
structure OneEvent (s t : State) : Prop where
  history : t.history = s.history ∨ ∃ tr, t.history = s.history ++ [tr]
  rsp : t.rsp = s.rsp

theorem OneEvent.refl (s : State) : OneEvent s s := ⟨.inl rfl, rfl⟩

/-- At the grain of events the end of a command delivers nothing. -/
theorem OneEvent.respond {s u : State} (h : OneEvent s u) (hg : u.grain = .event) (v : Byte) (st : Status) :
    OneEvent s (respond v st u) := ⟨h.history, by rw [respond_event hg]; exact h.rsp⟩

theorem Went.oneEvent {A : Byte → Prop} {s u : State} (h : Went A s u) (hg : s.grain = .event) : OneEvent s u := by
  obtain ⟨l, hl, -, hn⟩ := h.history
  refine ⟨?_, h.rsp⟩
  match l, hn hg with
  | [], _ => exact .inl (by simpa using hl)
  | [tr], _ => exact .inr ⟨tr, hl⟩

theorem Ends.oneEvent {A : Byte → Prop} {s t : State} (h : Ends A s t) (hg : s.grain = .event) : OneEvent s t := by
  obtain ⟨u, v, st, rfl, hw, -⟩ := h
  exact (hw.oneEvent hg).respond (hw.grain.trans hg) v st

theorem Pushed.oneEvent {ws : List PushWrite} {s t : State} (h : Pushed ws s t) (hg : s.grain = .event) : OneEvent s t := by
  rcases h with ⟨u, rfl, hw, -⟩ | ⟨u, rfl, hw, -⟩ | ⟨hw, -⟩
  · obtain ⟨hh, hr⟩ := hw.oneEvent hg
    exact OneEvent.respond (u := setLifecycle true u) ⟨hh, hr⟩ (hw.grain.trans hg) _ _
  · exact (hw.oneEvent hg).respond (hw.grain.trans hg) _ _
  · exact hw.oneEvent hg

/-- A move of one event that goes on with a command is one event. -/
theorem exec_pending_oneEvent {i : Instr} {s t : State} (hp : s.phase ≠ .idle) (hg : s.grain = .event)
    (h : exec i s = .next t) : OneEvent s t := by
  rcases exec_outcome h with ⟨-, -, rfl⟩ | ⟨-, hi, -⟩ |
      ⟨a, b, -, ⟨hf, -⟩ | ⟨hf, -⟩ | ⟨n, u, -, -, hu, hpush⟩⟩ | ⟨-, -, -, v, hv, hr⟩
  · rw [present_pending hp]
    exact (OneEvent.refl s).respond hg _ _
  · exact absurd hi hp
  · exact absurd hf.1 hp
  · exact absurd hf.1 hp
  · have he := hu.eq
    obtain ⟨hh, hr⟩ := hpush.oneEvent (by rw [he]; exact hg)
    rw [he] at hh hr
    exact ⟨hh, hr⟩
  · have he := hv.eq
    have hrsp := (hv.goesOn hp).2
    obtain ⟨hh, hr⟩ : OneEvent v t := hr.elim (·.oneEvent (by rw [he]; exact hg)) (·.1.oneEvent (by rw [he]; exact hg))
    rw [he] at hh
    exact ⟨hh, hr.trans hrsp⟩

/-- At the grain of events a script only issues its first request. -/
theorem scriptOf_issues {i : Instr} {m : BankMode} {s t : State} (hp : s.phase = .idle) (hg : s.grain = .event)
    (h : scriptOf i m s = .next t) : ∃ ph r, t = hold ph r s := by
  cases hr : readAddress s.config m i with
  | some a =>
    rw [scriptOf_issues_read hp hg hr] at h
    cases h
    exact ⟨_, _, rfl⟩
  | none =>
    cases hw : writeAddress s.config m i with
    | some a =>
      rw [scriptOf_issues_write hp hg hr hw] at h
      cases h
      exact ⟨_, _, rfl⟩
    | none => simp [scriptOf, hr, hw] at h

/-- At the grain of events the acceptance of a command performs no transaction. -/
theorem exec_idle_history {i : Instr} {s t : State} (hp : s.phase = .idle) (hg : s.grain = .event)
    (h : exec i s = .next t) : t.history = s.history := by
  by_cases hc : ∃ a b, i = .construct a b
  · obtain ⟨a, b, rfl⟩ := hc
    rcases exec_construct_cases a b s with ⟨r, ho⟩ | ⟨-, ho⟩ | ⟨-, ho⟩ | ⟨n, u, hn, -⟩
    · rw [ho] at h; cases h
    · rw [ho] at h; cases h; rfl
    · have hlen := pushWrites_length s.config (derivedMode s.config a b) a b
      rcases pushFromStart_cases (pushWrites s.config (derivedMode s.config a b) a b)
          (cacheMode (derivedMode s.config a b) (accept (encode (.construct a b)) s)) with
        ⟨w, rest, -, -, hf⟩ | ⟨hn | hn, -⟩
      · rw [ho, hf] at h; cases h; rfl
      · simp [hn] at hlen
      · simp [hg] at hn
    · exact absurd hp hn
  have hc : ∀ a b, i ≠ .construct a b := fun a b he => hc ⟨a, b, he⟩
  by_cases hd : i = .destruct
  · subst hd
    rcases exec_destruct_cases s with ⟨r, ho⟩ | ⟨-, -, -, ho⟩ <;> rw [ho] at h <;> cases h
    rfl
  cases hw : i.wellFormed with
  | false =>
    rw [exec_illFormed hw] at h
    obtain ⟨rfl, -⟩ := illFormedEnd_next h
    rw [present_idle hp]
    rfl
  | true =>
    rw [exec_eq_operate hc hd hw] at h
    rcases operate_cases i (scriptOf i) s with ⟨-, -, -, ho⟩ | ⟨-, ho⟩ | ⟨u, hu, ho⟩ <;> rw [ho] at h <;> try cases h
    have hup : u.phase = .idle := by rw [hu.eq]; exact hp
    have hug : u.grain = .event := by rw [hu.eq]; exact hg
    obtain ⟨ph, r, rfl⟩ := scriptOf_issues hup hug h
    rw [hold_history, hu.eq]

/-- What reset leaves of the history. -/
theorem resetInput_history (took : Bool) (s : State) : (resetInput took s).history = s.history := by
  obtain ⟨mm, he, -⟩ := tornWrite_cases took s
  rw [resetInput, clearRegisters_history, he]

/-- Every step after which the grain is that of events adds no transaction, or one, of a command in progress, and then delivers
nothing. -/
theorem step_oneEvent {s t : State} (h : step s = .next t) (hg : t.grain = .event) :
    t.history = s.history ∨ ((∃ tr, t.history = s.history ++ [tr]) ∧ s.phase ≠ .idle ∧ t.rsp = s.rsp) := by
  rcases step_next_cases h with ⟨c, rest, -, -, rfl⟩ | ⟨took, rest, -, rfl⟩ | ⟨a, v, rest, -, rfl⟩ |
      ⟨u, hu, ⟨-, -, rfl⟩ | ⟨-, -, -, rfl⟩ | ⟨c, i, hp, -, -, -, hx⟩ | ⟨i, hp, -, hx⟩⟩
  · exact .inl rfl
  · exact .inl (resetInput_history took _)
  · exact .inl rfl
  · exact .inl (by rw [hu.eq]; rfl)
  · exact .inl (by rw [hu.eq])
  · have he := hu.eq
    have hgu : u.grain = .event := (exec_kept hx).grain.symm.trans hg
    have hh := exec_idle_history (s := takePresented u) (by rw [takePresented_phase, he]; exact hp) hgu hx
    exact .inl (hh.trans (by rw [he]; rfl))
  · have hgu : (noteCmd u).grain = .event := (exec_kept hx).grain.symm.trans hg
    have hn : (noteCmd u).phase = s.phase ∧ (noteCmd u).history = s.history ∧ (noteCmd u).rsp = s.rsp := by
      rw [noteCmd_eq, hu.eq]
      exact ⟨rfl, rfl, rfl⟩
    obtain ⟨hpu, hhu, hru⟩ := hn
    obtain ⟨hh, hr⟩ := exec_pending_oneEvent (hpu ▸ hp) hgu hx
    rw [hhu] at hh
    rw [hru] at hr
    exact hh.imp id fun hh => ⟨hh, hp, hr⟩

end Sys2Proof.Machine

namespace Sys2Proof.Proofs

open Sys2Proof Sys2Proof.Machine

/-- Settles O7: the acceptance by the first request of each kind of command, the delivery by the block's move, the count by what
one event of a command can add. -/
theorem aStepIsOneEventAtTheGrainOfEvents : Obligations.AStepIsOneEventAtTheGrainOfEvents := by
  unfold Obligations.AStepIsOneEventAtTheGrainOfEvents
  refine ⟨fun i a m s h hg => ⟨fun hr => ?_, fun hr hw => ?_⟩, fun cfgA cfgB w s h hg hb hw => ?_,
    fun s u r hu hp hd => ?_, fun s t h hg => step_oneEvent h hg⟩
  · exact exec_issues_read h hg hr
  · exact exec_issues_write h hg hr hw
  · exact exec_construct_issues h hg hb hw
  · have hdu : u.due = some r := by rw [hu.eq]; exact hd
    rw [step_delivers hu hp hd, deliver, hdu]

end Sys2Proof.Proofs
end

section
/-! PROOF. Runs of moves of one event, the end of a run, and the statements O17, O45, O49 and O60. -/

namespace Sys2Proof.Machine

/-! ### The entry at the head of the inputs (R8) -/

/-- HOST's step (R50). -/
theorem step_hostPresents {s : State} {c : Command} {rest : List Input} (h : HostMayPresent s)
    (hi : s.inputs = .command c :: rest) : step s = .next (hostPresents c (takeInput rest s)) := by
  obtain ⟨hp, hd, hq⟩ := h
  simp [step, fetch, hi, hp, hd, hq]

theorem step_envWrites {s : State} {a v : Byte} {rest : List Input} (hi : s.inputs = .envWrite a v :: rest) :
    step s = .next (envWrites a v (takeInput rest s)) := by simp [step, fetch, hi]

theorem step_resetInput {s : State} {took : Bool} {rest : List Input} (hi : s.inputs = .reset took :: rest) :
    step s = .next (resetInput took (takeInput rest s)) := by simp [step, fetch, hi]

/-! ### The block's one move of a whole command, by moves of one event -/

theorem BlockMoves.of_seq {s u : State} {g : Grain} {l : List Input} (hi : s.inputs = .seq g :: l) (h : BlockMoves s u) :
    u = giveMove g l s := by
  rcases h with ⟨h0, -⟩ | ⟨g', l', h1, rfl⟩ | ⟨c, l', h2, -⟩
  · simp [hi] at h0
  · obtain ⟨rfl, rfl⟩ : g = g' ∧ l = l' := by simpa [hi] using h1
    rfl
  · simp [hi] at h2

/-- A step whose move the inputs give: the delivery of a response, a wait in IDLE, or the command presented or in progress. -/
theorem step_seq_cases {s t : State} {g : Grain} {l : List Input} (hi : s.inputs = .seq g :: l) (h : step s = .next t) :
    (s.phase = .idle ∧ (∃ r, s.due = some r) ∧ t = deliver (giveMove g l s)) ∨
    (s.phase = .idle ∧ s.due = none ∧ s.presented = none ∧ t = giveMove g l s) ∨
    (∃ c i, s.phase = .idle ∧ s.due = none ∧ s.presented = some c ∧ decode c = .ok i ∧
      exec i (takePresented (giveMove g l s)) = .next t) ∨
    ∃ i, s.phase ≠ .idle ∧ decode (commandOf s) = .ok i ∧ exec i (noteCmd (giveMove g l s)) = .next t := by
  rcases step_next_cases h with ⟨c, rest, hj, -⟩ | ⟨took, rest, hj, -⟩ | ⟨a, v, rest, hj, -⟩ | ⟨u, hu, hs⟩
  · simp [hi] at hj
  · simp [hi] at hj
  · simp [hi] at hj
  · obtain rfl := hu.of_seq hi
    exact hs

/-- A block that accepts a command goes, within sixteen moves of one event, where its one move goes. -/
theorem accepts_within {i : Instr} {s u t : State} (hm : u.initialized = true → u.bankMode.isSome = true)
    (hp : u.phase = .idle) (hd : u.due = none) (hs : MoveRuns (exec i) s u) (hg : u.grain = .command)
    (ht : exec i u = .next t) : WithinMoves 16 s t := by
  rcases exec_outcome ht with ⟨hw, -, -⟩ | ⟨rfl, -, -, hi, -⟩ |
      ⟨a, b, rfl, ⟨hf, -⟩ | ⟨hf, -⟩ | ⟨n, w, hn, -⟩⟩ | ⟨hw, hc, -, v, hv, -⟩
  · exact (illFormed_within hw hp hd hs hg ht).mono (by omega)
  · obtain ⟨m, hm⟩ := Option.isSome_iff_exists.mp (hm hi)
    exact (ReadyIn.within ⟨hp, hd, hi, hm⟩ rfl (by simp) hs hg ht).mono (by omega)
  · exact hf.within hs hg ht
  · exact hf.within hs hg ht
  · exact absurd hp hn
  · have hi := (hv.accepted hp).2.1
    obtain ⟨m, hm⟩ := Option.isSome_iff_exists.mp (hm hi)
    exact (ReadyIn.within ⟨hp, hd, hi, hm⟩ hw hc hs hg ht).mono (by omega)

/-- A command in progress goes, within fifteen moves of one event, where its one move goes. -/
theorem InProgress.within {i : Instr} {m : BankMode} {s t : State} (h : InProgress i m s) (hg : s.grain = .command)
    (ht : exec i s = .next t) : WithinMoves 15 s t := by
  cases hp : s.phase with
  | idle => exact absurd hp h.pending
  | rdPend => exact (h.within_of_read hp hg ht).mono (by omega)
  | wrPend => exact (h.within_of_write hp hg ht).mono (by omega)
  | cfgPend =>
    obtain ⟨-, a, b, n, w, rfl, hn, -⟩ := h.atPush hp
    have hv : Fin.ofNat 14 n.val = n := by simp
    have hk := n.isLt
    exact (h.within_of_push (k := 13 - n.val) (n := n.val) (by omega) hp (by rw [hv]; exact hn) hg ht).mono (by omega)

/-- Where moves of one event lead does not depend on the inputs and the grain they begin with. -/
theorem WithinMoves.of_giveMove {n : Nat} {g : Grain} {l : List Input} {s t : State} (h : WithinMoves n (giveMove g l s) t) :
    WithinMoves n s t := by
  obtain ⟨k, h1, hk, hr⟩ := h
  cases hr with
  | refl => omega
  | cons hm hr => exact ⟨_, h1, hk, .cons hm hr⟩

/-- The block's one move of a whole command leads, from a state that meets the invariant, where some sixteen moves of one event at
most lead, and leaves the inputs behind it. -/
theorem step_command_within {s t : State} {l : List Input} (h : Inv s) (hi : s.inputs = .seq .command :: l)
    (ht : step s = .next t) : WithinMoves 16 s t ∧ t.inputs = l := by
  rcases step_seq_cases hi ht with ⟨hp, ⟨r, hr⟩, rfl⟩ | ⟨hp, hd, hq, rfl⟩ | ⟨c, i, hp, hd, hq, hc, hx⟩ | ⟨i, hp, hc, hx⟩
  · have hm : EventMove s (deliver (giveMove .command l s)) := fun l => eventMove_deliver hp hr l
    exact ⟨hm.within.mono (by omega), rfl⟩
  · have hm : EventMove s (giveMove .command l s) := fun l => by
      rcases step_idle (blockMoves_seq .event .event l s) hp hd with ⟨-, hs⟩ | ⟨c, why, hc, -⟩ | ⟨c, i, hc, -⟩
      · exact hs
      · exact absurd (hq.symm.trans hc) (by simp)
      · exact absurd (hq.symm.trans hc) (by simp)
    exact ⟨hm.within.mono (by omega), rfl⟩
  · have hs : MoveRuns (exec i) s (takePresented (giveMove .command l s)) := moveRuns_presented hp hd hq hc
    exact ⟨accepts_within (u := takePresented (giveMove .command l s)) h.mode_held hp hd hs rfl hx, (exec_kept hx).inputs⟩
  · obtain ⟨-, -, j, m, hcmd, hm, hpos⟩ := h.in_progress hp
    rw [commandOf_some hcmd, decode_encode] at hc
    obtain rfl : j = i := by simpa using hc
    have hpend : InProgress j m (giveMove .command l s) := ⟨hp, hcmd, hm, hpos⟩
    rw [noteCmd_some (s := giveMove .command l s) hcmd] at hx
    have hw : WithinMoves 15 (giveMove .command l s) t := hpend.within rfl hx
    exact ⟨(hw.of_giveMove).mono (by omega), (exec_kept hx).inputs⟩

/-- Moves of one event that the inputs hold, whatever the grain in hand before the first. -/
theorem run_withinMoves {n : Nat} {s t : State} (h : WithinMoves n s t) (l : List Input) :
    ∃ k, 1 ≤ k ∧ k ≤ n ∧
      Sys2Proof.core.run k { s with inputs := List.replicate k (.seq .event) ++ l } = .next (giveMove .event l t) := by
  obtain ⟨k, h1, hk, hr⟩ := h
  refine ⟨k, h1, hk, (?_ : _ = _).trans (run_eventMoves hr l)⟩
  obtain ⟨j, rfl⟩ := Nat.exists_eq_succ_of_ne_zero (Nat.one_le_iff_ne_zero.mp h1)
  rfl

/-- The same where no input is left. -/
theorem run_withinMoves_nil {n : Nat} {s t : State} (h : WithinMoves n s t) (hi : s.inputs = []) :
    ∃ k, k ≤ n ∧ Sys2Proof.core.run k s = .next (giveMove .event [] t) := by
  obtain ⟨k, h1, hk, hr⟩ := h
  refine ⟨k, hk, (?_ : _ = _).trans (run_eventMoves_nil hr)⟩
  obtain ⟨j, rfl⟩ := Nat.exists_eq_succ_of_ne_zero (Nat.one_le_iff_ne_zero.mp h1)
  have hs : Sys2Proof.core.step s = Sys2Proof.core.step (giveMove .event [] s) := by
    have h1 : BlockMoves s (giveMove .event [] s) := .inl ⟨hi, rfl⟩
    have h2 : BlockMoves (giveMove .event [] s) (giveMove .event [] s) := .inl ⟨rfl, rfl⟩
    change step s = step _
    simp only [step, fetch_blockMoves h1, fetch_blockMoves h2]
  simp only [Host.Core.run, hs]

/-! ### A block that is not initialized (R86) -/

/-- An uninitialized block in IDLE admits no command but CONSTRUCT (R86). -/
theorem exec_uninitialized {i : Instr} {s : State} (hp : s.phase = .idle) (hd : s.due = none) (hi : s.initialized = false)
    (hc : ∀ a b, i ≠ .construct a b) : exec i s = .refused .notInitialized := by
  have ha : admission i s = some .notInitialized := by simp [admission_idle hp hd, hi]
  by_cases hds : i = .destruct
  · subst hds
    simp [exec, execDestruct, hp, hd, hi]
  cases hw : i.wellFormed with
  | false => simp only [exec_illFormed hw, illFormedEnd, ha]
  | true => simp only [exec_eq_operate hc hds hw, operate, ha]

/-! ### A command over a transport that completes ends answered -/

/-- A command has ended and its response has been delivered. -/
structure Answered (t : State) : Prop where
  phase : t.phase = .idle
  due : t.due = none
  awaited : t.awaited = false
  rsp : t.rsp.isSome = true

theorem answered_respond {s : State} (hg : s.grain = .command) (v : Byte) (st : Status) : Answered (respond v st s) := by
  rw [respond_command hg]
  exact ⟨rfl, rfl, rfl, rfl⟩

/-- A ready block, given the move of a whole command, answers a well-formed command over a transport that completes. -/
theorem exec_completes_answered {i : Instr} {m : BankMode} {s : State} (h : ReadyIn m s) (hg : s.grain = .command)
    (hcp : Completes 2 s) (hw : i.wellFormed = true) (hc : ∀ a b, i ≠ .construct a b) :
    ∃ t, exec i s = .next t ∧ Answered t := by
  by_cases hd : i = .destruct
  · subst hd
    exact ⟨_, exec_destruct_ready h, answered_respond (s := setLifecycle false (accept _ s)) hg _ _⟩
  have hca : Completes 2 (accept (encode i) s) := hcp
  rw [exec_ready h hc hd hw]
  cases hr : readAddress s.config m i with
  | some a =>
    cases hwa : writeAddress s.config m i with
    | none =>
      obtain ⟨v, d, hl, -⟩ := lastRead_completes (n := 1) (a := a) (post := fun v => responseByte v i) hca
      rw [scriptOf_read (s := accept (encode i) s) hr hwa, readScript, opening_command (by exact hg), hl]
      exact ⟨_, rfl, answered_respond (by exact hg) _ _⟩
    | some b =>
      obtain rfl := writeAddress_of_read hr hwa
      obtain ⟨x, d, hx, -⟩ := exec_rmw_completes h hg hcp hr hwa
      rw [← exec_ready h hc hd hw, hx]
      exact ⟨_, rfl, rfl, rfl, rfl, rfl⟩
  | none =>
    obtain ⟨a, hwa⟩ : ∃ a, writeAddress s.config m i = some a := by
      simpa [hr, Option.isSome_iff_exists] using transaction_of_wellFormed hc hd hw s.config m
    rw [scriptOf_write (s := accept (encode i) s) hr hwa, writeScript, opening_command (by exact hg),
      lastWrite_completes (n := 1) hca]
    exact ⟨_, rfl, answered_respond (by exact hg) _ _⟩

/-! ### The end of a run (R9) -/

/-- The block's move leaves at the inputs what it found there, but for the entry that gave it. -/
theorem BlockMoves.inputs_subset {s u : State} (h : BlockMoves s u) : u.inputs ⊆ s.inputs := by
  rcases h with ⟨hi, rfl⟩ | ⟨g, l, hi, rfl⟩ | ⟨c, l, -, -, rfl⟩
  · exact List.nil_subset _
  · rw [hi]; exact List.subset_cons_self _ _
  · exact List.Subset.refl _

/-- An ended run stays ended: no command is left to present, none is presented or in progress. -/
theorem runEnded_step {s t : State} (hI : Inv s) (h : RunEnded s) (ht : step s = .next t) : RunEnded t := by
  obtain ⟨hin, ha, hp⟩ := h
  rcases step_next_cases ht with ⟨c, rest, hi, -⟩ | ⟨took, rest, hi, rfl⟩ | ⟨a, v, rest, hi, rfl⟩ |
      ⟨u, hu, ⟨-, -, rfl⟩ | ⟨-, -, -, rfl⟩ | ⟨c, i, -, -, hq, -⟩ | ⟨i, hn, -⟩⟩
  · exact absurd (by simp [hi]) (hin c)
  · obtain ⟨mm, he, -⟩ := tornWrite_cases took (takeInput rest s)
    have hin' : ∀ c, Input.command c ∉ rest := fun c hc => hin c (by simp [hi, hc])
    rw [resetInput, he]
    exact ⟨hin', ha, rfl⟩
  · exact ⟨fun c hc => hin c (by rw [hi]; exact List.mem_cons_of_mem _ hc), ha, hp⟩
  · exact ⟨fun c hc => hin c (hu.inputs_subset hc), rfl, by rw [hu.eq]; exact hp⟩
  · exact ⟨fun c hc => hin c (hu.inputs_subset hc), by rw [hu.eq]; exact ha, by rw [hu.eq]; exact hp⟩
  · exact absurd (hI.awaited_held (.inl (by simp [hq]))) (by simp [ha])
  · exact absurd hp hn

end Sys2Proof.Machine

namespace Sys2Proof.Proofs

open Sys2Proof Sys2Proof.Machine

/-- Settles O17, by the three kinds of entry at the head of the inputs. -/
theorem stepWithoutACommand : Obligations.StepWithoutACommand := by
  unfold Obligations.StepWithoutACommand
  exact ⟨fun s u hu hp hd hq => step_waits hu hp hd hq, fun s c rest hm hi => step_hostPresents hm hi,
    fun s a v rest hi => step_envWrites hi⟩

/-- Settles O45: reset clears the registers of a state that differs from the one before in the register space only, and an
uninitialized block in IDLE admits only CONSTRUCT. -/
theorem resetInputClearsTheBlock : Obligations.ResetInputClearsTheBlock := by
  unfold Obligations.ResetInputClearsTheBlock
  intro s took rest hi
  have hs := step_resetInput hi
  obtain ⟨mm, he, hm⟩ := tornWrite_cases took (takeInput rest s)
  rw [resetInput, he] at hs
  refine ⟨_, hs, rfl, rfl, rfl, rfl, rfl, rfl, rfl, rfl, rfl, rfl, rfl, rfl, rfl, rfl, rfl, rfl, rfl, hm, fun i hc => ?_⟩
  exact exec_uninitialized rfl rfl rfl hc

/-- Settles O49: the block's move of a whole command is within sixteen moves of one event, whatever the case of its step. -/
theorem eventStepsAmountToTheCommandStep : Obligations.EventStepsAmountToTheCommandStep := by
  unfold Obligations.EventStepsAmountToTheCommandStep
  intro s t rest h hi ht
  obtain ⟨hw, hin⟩ := step_command_within h hi ht
  obtain ⟨n, h1, hn, hr⟩ := run_withinMoves hw rest
  exact ⟨n, h1, hn, by rw [hr, giveMove, ← hin]⟩

/-- Settles O60: HOST presents the command, and the block goes within four moves of one event where its move of the whole command
goes, which answers. -/
theorem admittedCommandEndsTheRun : Obligations.AdmittedCommandEndsTheRun := by
  unfold Obligations.AdmittedCommandEndsTheRun
  refine ⟨fun s c i m h hq hcp hi hc hw hnc => ?_, fun s t => runEnded_step⟩
  have hhost := step_hostPresents ⟨h.1, h.2.1, hq⟩ hi
  have hready : ReadyIn m (takePresented (giveMove .command [] (hostPresents c (takeInput [] s)))) := h
  obtain ⟨t, ht, hans⟩ := exec_completes_answered hready rfl hcp hw hnc
  have hruns : MoveRuns (exec i) (hostPresents c (takeInput [] s))
      (takePresented (giveMove .command [] (hostPresents c (takeInput [] s)))) :=
    moveRuns_presented h.1 h.2.1 rfl hc
  obtain ⟨n, hn, hr⟩ := run_withinMoves_nil (hready.within hw hnc hruns rfl ht) rfl
  exact ⟨n + 1, giveMove .event [] t, by omega, (run_succ_of_step hhost n).trans hr, rfl, (exec_kept ht).presented, hans.due,
    hans.rsp, fun _ => List.not_mem_nil, hans.awaited, hans.phase⟩

end Sys2Proof.Proofs
end

section
/-! PROOF. What a step of a command keeps of the invariant, and the statements about the invariant and the step that runs a command
(R16, R26, R27, R40). -/

namespace Sys2Proof.Machine

/-! ### A command under way -/

/-- The part of the invariant that holds all through a command, between its transactions too: HOST waits, no command is presented,
and no response is at the port or due (R9, R50, R58). -/
structure UnderWay (s : State) : Prop where
  memory_wf : Memory.wf s.memory
  mode_held : s.initialized = true → s.bankMode.isSome = true
  presented : s.presented = none
  rsp : s.rsp = none
  due : s.due = none
  awaited : s.awaited = true

theorem Went.underWay {A : Byte → Prop} {s u : State} (h : Went A s u) (hs : UnderWay s) : UnderWay u where
  memory_wf := h.memory_wf hs.memory_wf
  mode_held := by rw [h.initialized, h.bankMode]; exact hs.mode_held
  presented := h.presented.trans hs.presented
  rsp := h.rsp.trans hs.rsp
  due := h.due.trans hs.due
  awaited := h.awaited.trans hs.awaited

/-- CONSTRUCT writes the bank mode on its way. -/
theorem UnderWay.cacheMode {s : State} (h : UnderWay s) (m : BankMode) : UnderWay (cacheMode m s) :=
  ⟨h.memory_wf, fun _ => rfl, h.presented, h.rsp, h.due, h.awaited⟩

/-- The lifecycle flag is set only with a bank mode held (R27). -/
theorem UnderWay.setLifecycle {s : State} (h : UnderWay s) {b : Bool} (hm : b = true → s.bankMode.isSome = true) :
    UnderWay (setLifecycle b s) :=
  ⟨h.memory_wf, hm, h.presented, h.rsp, h.due, h.awaited⟩

/-- A block in IDLE with nothing presented and nothing due leaves HOST nothing to wait for. -/
theorem not_waiting {s : State} (hq : s.presented = none) (hp : s.phase = .idle) (hd : s.due = none) :
    ¬ (s.presented ≠ none ∨ s.phase ≠ .idle ∨ s.due ≠ none) := by simp [hq, hp, hd]

/-- A command that ends with nothing outstanding leaves the invariant, its response due or delivered. -/
theorem UnderWay.inv_respond {s : State} (h : UnderWay s) (hb : s.bus = none) (v : Byte) (st : Status) :
    Inv (respond v st s) where
  memory_wf := h.memory_wf
  mode_held := h.mode_held
  idle_resting _ := ⟨rfl, hb, rfl, rfl, rfl⟩
  due_pending := by
    cases hg : s.grain
    · exact fun _ => by rw [respond_event hg]; exact h.rsp
    · rw [respond_command hg]; exact fun hd => absurd rfl hd
  presented_waits hq := absurd h.presented hq
  awaited_held := by
    cases hg : s.grain
    · exact fun _ => by rw [respond_event hg]; exact h.awaited
    · rw [respond_command hg]
      exact fun hw => absurd hw (not_waiting h.presented rfl rfl)
  in_progress hp := absurd rfl hp

/-- A command that stands at one of its transactions keeps the invariant. -/
theorem InProgress.inv {i : Instr} {m : BankMode} {s : State} (h : InProgress i m s) (hs : UnderWay s) : Inv s where
  memory_wf := hs.memory_wf
  mode_held := hs.mode_held
  idle_resting hp := absurd hp h.pending
  due_pending hd := absurd hs.due hd
  presented_waits hq := absurd hs.presented hq
  awaited_held _ := hs.awaited
  in_progress _ := ⟨hs.rsp, hs.due, i, m, h.cmd, h.bankMode, h.position⟩

/-- The word in `cmd` tells which command is in progress. -/
theorem encode_injective : Function.Injective encode := fun i j h => by
  have hd : decode (encode i) = decode (encode j) := congrArg decode h
  rw [decode_encode, decode_encode] at hd
  exact Except.ok.inj hd

theorem Inv.inProgress {i : Instr} {s : State} (h : Inv s) (hp : s.phase ≠ .idle) (hc : s.cmd = some (encode i)) :
    ∃ m, InProgress i m s := by
  obtain ⟨-, -, j, m, hj, hm, hpos⟩ := h.in_progress hp
  obtain rfl : i = j := encode_injective (Option.some.inj (hc.symm.trans hj))
  exact ⟨m, hp, hc, hm, hpos⟩

/-- A command in progress is CONSTRUCT on a block that is not initialized, or on an initialized block a command with a transaction
of its own (R86). -/
theorem InProgress.lifecycle {i : Instr} {m : BankMode} {s : State} (h : InProgress i m s) :
    (s.initialized = false ∧ ∃ a b, i = .construct a b) ∨
    (s.initialized = true ∧ i.wellFormed = true ∧ (∀ a b, i ≠ .construct a b) ∧ i ≠ .destruct) := by
  cases hp : s.phase with
  | idle => exact absurd hp h.pending
  | rdPend =>
    obtain ⟨hi, a, ha, -⟩ := h.atRead hp
    exact .inr ⟨hi, wellFormed_of_transaction (.inl (Option.isSome_iff_exists.mpr ⟨a, ha⟩))⟩
  | wrPend =>
    obtain ⟨hi, a, x, ha, -⟩ := h.atWrite hp
    exact .inr ⟨hi, wellFormed_of_transaction (.inr (Option.isSome_iff_exists.mpr ⟨a, ha⟩))⟩
  | cfgPend =>
    obtain ⟨hi, a, b, n, w, hc, -⟩ := h.atPush hp
    exact .inl ⟨hi, a, b, hc⟩

/-- Where a step runs command `i`: from the invariant with the command taken off the command port, HOST waiting for its response,
and in any phase but IDLE with `i` in `cmd`. -/
structure Runs (i : Instr) (s : State) : Prop where
  inv : Inv s
  presented : s.presented = none
  awaited : s.awaited = true
  ready : s.phase = .idle → s.due = none
  goesOn : s.phase ≠ .idle → s.cmd = some (encode i)

theorem Runs.inProgress {i : Instr} {s : State} (h : Runs i s) (hp : s.phase ≠ .idle) : ∃ m, InProgress i m s :=
  h.inv.inProgress hp (h.goesOn hp)

theorem Runs.due {i : Instr} {s : State} (h : Runs i s) : s.due = none := by
  by_cases hp : s.phase = .idle
  · exact h.ready hp
  · exact (h.inv.in_progress hp).2.1

/-- From its acceptance a command is under way. -/
theorem Runs.underWay_accept {i : Instr} {s : State} (h : Runs i s) (c : Command) : UnderWay (accept c s) :=
  ⟨h.inv.memory_wf, h.inv.mode_held, h.presented, rfl, h.due, h.awaited⟩

/-- From where it stands a command in progress is under way. -/
theorem Runs.underWay {i : Instr} {s : State} (h : Runs i s) (hp : s.phase ≠ .idle) : UnderWay s :=
  ⟨h.inv.memory_wf, h.inv.mode_held, h.presented, (h.inv.in_progress hp).1, h.due, h.awaited⟩

/-! ### What a command leaves -/

/-- CONSTRUCT, with its mode in `bank_mode`: the push ends, or stands at one of its writes. -/
theorem Pushed.inv {a b : PortConfig} {c : Config} {m : BankMode} {s t : State} (h : Pushed (pushWrites c m a b) s t)
    (hs : UnderWay s) (hcf : s.config = c) (hi : s.initialized = false) (hm : s.bankMode = some m)
    (hc : s.cmd = some (encode (.construct a b))) : Inv t := by
  rcases h with ⟨u, rfl, hw, hb⟩ | ⟨u, rfl, hw, hb, -⟩ | ⟨hw, hp, n, w, hn, hget, hbus⟩
  · have hu := hw.underWay hs
    exact (hu.setLifecycle (b := true) fun _ => by simp [hw.bankMode, hm]).inv_respond hb _ _
  · exact (hw.underWay hs).inv_respond hb _ _
  · have hpos : AtPosition (.construct a b) m t := by
      simp only [AtPosition, hp]
      exact ⟨hw.initialized.trans hi, a, b, n, w, rfl, hn, by rw [hw.config, hcf]; exact hget, hbus⟩
    exact InProgress.inv ⟨by simp [hp], hw.cmd.trans hc, hw.bankMode.trans hm, hpos⟩ (hw.underWay hs)

/-- A command that is neither CONSTRUCT nor DESTRUCT and stands at a transaction is in progress. -/
theorem Stands.inProgress {i : Instr} {m : BankMode} {A : Byte → Prop} {s t : State} (h : Stands i m s t) (hw : Went A s t)
    (hi : s.initialized = true) (hm : s.bankMode = some m) (hc : s.cmd = some (encode i)) : InProgress i m t := by
  have hti := hw.initialized.trans hi
  have hcf := hw.config
  rcases h with ⟨hp, a, ha, hb⟩ | ⟨hp, a, x, ha, hx, hb⟩
  · refine ⟨by simp [hp], hw.cmd.trans hc, hw.bankMode.trans hm, ?_⟩
    simp only [AtPosition, hp]
    exact ⟨hti, a, by rw [hcf]; exact ha, hb⟩
  · refine ⟨by simp [hp], hw.cmd.trans hc, hw.bankMode.trans hm, ?_⟩
    simp only [AtPosition, hp]
    exact ⟨hti, a, x, by rw [hcf]; exact ha, by rw [hcf]; exact hx, hb⟩

/-- Before its transaction in hand a command that is neither CONSTRUCT nor DESTRUCT is under way on an initialized block, in the
mode `bank_mode` holds (R27). -/
theorem Began.underWay {i : Instr} {s v : State} (h : Began i (modeOf s) s v) (hr : Runs i s)
    (hc : ∀ a b, i ≠ .construct a b) :
    UnderWay v ∧ v.initialized = true ∧ v.bankMode = some (modeOf s) ∧ v.cmd = some (encode i) := by
  obtain ⟨hinit, hrsp⟩ : s.initialized = true ∧ v.rsp = none := by
    by_cases hp : s.phase = .idle
    · exact ⟨(h.accepted hp).2.1, (h.accepted hp).2.2⟩
    · obtain ⟨m, hm⟩ := hr.inProgress hp
      rcases hm.lifecycle with ⟨-, a, b, he⟩ | ⟨hi, -⟩
      · exact absurd he (hc a b)
      · exact ⟨hi, (h.goesOn hp).2.trans (hr.underWay hp).rsp⟩
  obtain ⟨m, hm⟩ := Option.isSome_iff_exists.mp (hr.inv.mode_held hinit)
  rw [modeOf_some hm, h.eq]
  exact ⟨⟨hr.inv.memory_wf, hr.inv.mode_held, hr.presented, hrsp, hr.due, hr.awaited⟩, hinit, hm, rfl⟩

/-- A command in progress goes on with its push from a state that is under way. -/
theorem PushesOn.underWay {n : Fin 14} {s u : State} (h : PushesOn n s u) (hs : UnderWay s) : UnderWay u := by
  rw [h.eq]
  exact ⟨hs.memory_wf, hs.mode_held, hs.presented, hs.rsp, hs.due, hs.awaited⟩

/-- The execution of a command keeps the invariant. -/
theorem Runs.inv_of_exec {i : Instr} {s t : State} (h : Runs i s) (hx : exec i s = .next t) : Inv t := by
  rcases exec_outcome hx with ⟨hw, -, rfl⟩ | ⟨-, hp, -, -, rfl⟩ |
      ⟨a, b, rfl, ⟨hf, -, -, rfl⟩ | ⟨hf, hpush⟩ | ⟨n, u, hp, hc, hu, hpush⟩⟩ | ⟨-, hc, -, v, hv, hr⟩
  · by_cases hp : s.phase = .idle
    · rw [present_idle hp]
      exact (h.underWay_accept _).inv_respond (h.inv.idle_resting hp).bus _ _
    · obtain ⟨m, hm⟩ := h.inProgress hp
      rcases hm.lifecycle with ⟨-, a, b, rfl⟩ | ⟨-, hw', -⟩
      · cases hw
      · exact absurd hw' (by simp [hw])
  · exact ((h.underWay_accept _).setLifecycle (b := false) (by simp)).inv_respond (h.inv.idle_resting hp).bus _ _
  · exact (h.underWay_accept _).inv_respond (h.inv.idle_resting hf.1).bus _ _
  · exact hpush.inv ((h.underWay_accept _).cacheMode _) rfl hf.2.2 rfl rfl
  · obtain ⟨m, hm⟩ := h.inProgress hp
    have hinit : s.initialized = false := by
      rcases hm.lifecycle with ⟨hi, -⟩ | ⟨-, -, hc', -⟩
      · exact hi
      · exact absurd rfl (hc' a b)
    have hway := hu.underWay (h.underWay hp)
    rw [modeOf_some hm.bankMode] at hpush
    exact hpush.inv hway (by rw [hu.eq]) (by rw [hu.eq]; exact hinit) (by rw [hu.eq]; exact hm.bankMode)
      (by rw [hu.eq]; exact hc)
  · obtain ⟨hway, hi, hm, hcmd⟩ := hv.underWay h hc
    rcases hr with ⟨u, x, st, rfl, hwent, hb, -⟩ | ⟨hwent, hst⟩
    · exact (hwent.underWay hway).inv_respond hb _ _
    · exact (hst.inProgress hwent hi hm hcmd).inv (hwent.underWay hway)

/-! ### A step -/

/-- What HOST and ENV write, and the move in hand, matter to the invariant only by the form of the register space and by when a
command is presented and awaited. -/
theorem Inv.outside {s u : State} (h : Inv s)
    (hu : u = { s with
      presented := u.presented, awaited := u.awaited, memory := u.memory, inputs := u.inputs, grain := u.grain })
    (hm : Memory.wf u.memory) (hq : u.presented ≠ none → s.phase = .idle ∧ s.due = none)
    (ha : u.presented ≠ none ∨ s.phase ≠ .idle ∨ s.due ≠ none → u.awaited = true) : Inv u := by
  rw [hu]
  refine ⟨hm, h.mode_held, fun hp => ?_, h.due_pending, hq, ha, h.in_progress⟩
  obtain ⟨hphase, hbus, hcmd, htmp, hidx⟩ := h.idle_resting hp
  exact ⟨hphase, hbus, hcmd, htmp, hidx⟩

theorem Inv.of_blockMoves {s u : State} (h : Inv s) (hu : BlockMoves s u) : Inv u := by
  have he := hu.eq
  exact h.outside (by rw [he]) (by rw [he]; exact h.memory_wf) (by rw [he]; exact h.presented_waits)
    (by rw [he]; exact h.awaited_held)

/-- The command presented to an idle block runs from the state in which it has been taken. -/
theorem Inv.runs_presented {i : Instr} {c : Command} {s : State} (h : Inv s) (hp : s.phase = .idle) (hd : s.due = none)
    (hq : s.presented = some c) : Runs i (takePresented s) where
  inv := h.outside rfl h.memory_wf (fun hn => absurd rfl hn) fun _ => h.awaited_held (.inl (by simp [hq]))
  presented := rfl
  awaited := h.awaited_held (.inl (by simp [hq]))
  ready _ := hd
  goesOn hn := absurd hp hn

/-- The command in progress, as `cmd` holds it, runs from where it stands; no read of `cmd` finds it without a value. -/
theorem Inv.runs_inProgress {i : Instr} {s : State} (h : Inv s) (hp : s.phase ≠ .idle)
    (hi : decode (commandOf s) = .ok i) : Runs i s ∧ noteCmd s = s := by
  obtain ⟨-, -, j, m, hc, -⟩ := h.in_progress hp
  rw [commandOf_some hc, decode_encode] at hi
  obtain rfl := Except.ok.inj hi
  have hq : s.presented = none := by
    by_contra hq
    exact hp (h.presented_waits hq).1
  exact ⟨⟨h, hq, h.awaited_held (.inr (.inl hp)), fun h0 => absurd h0 hp, fun _ => hc⟩, noteCmd_some hc⟩

/-- HOST's step keeps the invariant. -/
theorem Inv.hostPresents {s : State} (h : Inv s) (hm : HostMayPresent s) (c : Command) (rest : List Input) :
    Inv (hostPresents c (takeInput rest s)) :=
  h.outside rfl h.memory_wf (fun _ => ⟨hm.1, hm.2.1⟩) fun _ => rfl

/-- ENV's own write keeps the invariant. -/
theorem Inv.envWrites {s : State} (h : Inv s) (a v : Byte) (rest : List Input) :
    Inv (envWrites a v (takeInput rest s)) :=
  h.outside rfl (Memory.write_wf _ a v h.memory_wf) h.presented_waits h.awaited_held

/-- Reset leaves the invariant: the registers of R26, and a register space that one write at most has changed. -/
theorem Inv.resetInput {s : State} (h : Inv s) (took : Bool) (rest : List Input) :
    Inv (resetInput took (takeInput rest s)) := by
  obtain ⟨mm, he, hm⟩ := tornWrite_cases took (takeInput rest s)
  have hwf : Memory.wf mm := by
    rcases hm with rfl | ⟨a, v, -, -, rfl⟩
    · exact h.memory_wf
    · exact Memory.write_wf _ a v h.memory_wf
  rw [Machine.resetInput, he]
  refine ⟨hwf, fun hi => by simp at hi, fun _ => ⟨rfl, rfl, rfl, rfl, rfl⟩, fun hd => absurd rfl hd, fun hq => absurd rfl hq,
    fun hw => absurd hw (not_waiting rfl rfl rfl), fun hp => absurd rfl hp⟩

/-- The delivery of the response that is due keeps the invariant: no command is presented before it (R50). -/
theorem Inv.deliver {s : State} {r : Response} (h : Inv s) (hp : s.phase = .idle) (hd : s.due = some r) :
    Inv (deliver s) := by
  have hq : s.presented = none := by
    by_contra hq
    simp [(h.presented_waits hq).2] at hd
  refine ⟨h.memory_wf, h.mode_held, fun _ => ?_, fun hn => absurd rfl hn, fun hn => absurd hq hn,
    fun hw => absurd hw (not_waiting hq hp rfl), fun hn => absurd hp hn⟩
  obtain ⟨hphase, hbus, hcmd, htmp, hidx⟩ := h.idle_resting hp
  exact ⟨hphase, hbus, hcmd, htmp, hidx⟩

/-- Every step keeps the invariant. -/
theorem Inv.of_step {s t : State} (h : Inv s) (ht : step s = .next t) : Inv t := by
  rcases step_next_cases ht with ⟨c, rest, -, hm, rfl⟩ | ⟨took, rest, -, rfl⟩ | ⟨a, v, rest, -, rfl⟩ | ⟨u, hu, hs⟩
  · exact h.hostPresents hm c rest
  · exact h.resetInput took rest
  · exact h.envWrites a v rest
  · have hI := h.of_blockMoves hu
    have he := hu.eq
    have hp' : u.phase = s.phase := by rw [he]
    have hd' : u.due = s.due := by rw [he]
    rcases hs with ⟨hp, ⟨r, hr⟩, rfl⟩ | ⟨-, -, -, rfl⟩ | ⟨c, i, hp, hd, hq, -, hx⟩ | ⟨i, hp, hi, hx⟩
    · exact hI.deliver (hp'.trans hp) (hd'.trans hr)
    · exact hI
    · have hq' : u.presented = some c := by rw [he]; exact hq
      exact (hI.runs_presented (hp'.trans hp) (hd'.trans hd) hq').inv_of_exec hx
    · have hi' : decode (commandOf u) = .ok i := by rw [he]; exact hi
      obtain ⟨hr, hn⟩ := hI.runs_inProgress (hp' ▸ hp) hi'
      exact hr.inv_of_exec (hn ▸ hx)

end Sys2Proof.Machine

namespace Sys2Proof.Proofs

open Sys2Proof Sys2Proof.Machine

/-- Settles O44: the registers of R26, field by field. -/
theorem resetStateOfTheBlock : Obligations.ResetStateOfTheBlock := by
  unfold Obligations.ResetStateOfTheBlock
  exact ⟨rfl, rfl, rfl, rfl, rfl, rfl, rfl, rfl, rfl, rfl, rfl, rfl⟩

/-- Settles O57: after reset the block rests, nothing is presented and nothing is due. -/
theorem invariantHoldsAfterReset : Obligations.InvariantHoldsAfterReset := by
  unfold Obligations.InvariantHoldsAfterReset
  exact ⟨reset_memory_wf, fun hi => absurd hi (by decide), fun _ => ⟨rfl, rfl, rfl, rfl, rfl⟩, fun hd => absurd rfl hd,
    fun hq => absurd rfl hq, fun hw => absurd hw (not_waiting rfl rfl rfl), fun hp => absurd rfl hp⟩

/-- Settles O15: of what the block's move can be in IDLE only the execution of the command presented is left. -/
theorem stepRunsThePresentedCommand : Obligations.StepRunsThePresentedCommand := by
  unfold Obligations.StepRunsThePresentedCommand
  intro s u c i hu hp hd hq hc
  rcases step_idle hu hp hd with ⟨hn, -⟩ | ⟨c', why, hq', he, -⟩ | ⟨c', j, hq', he, hs⟩
  · simp [hq] at hn
  · obtain rfl : c = c' := Option.some.inj (hq.symm.trans hq')
    simp [hc] at he
  · obtain rfl : c = c' := Option.some.inj (hq.symm.trans hq')
    obtain rfl : i = j := Except.ok.inj (hc.symm.trans he)
    exact hs

/-- Settles O16: `cmd` holds a value, so its reading changes nothing and the command it holds goes on. -/
theorem stepGoesOnWithTheCommandInProgress : Obligations.StepGoesOnWithTheCommandInProgress := by
  unfold Obligations.StepGoesOnWithTheCommandInProgress
  intro s u c i hu hp hcmd hc
  have hu' : u.cmd = some c := by rw [hu.eq]; exact hcmd
  rcases goesOn_pending hp hu with ⟨why, he, -⟩ | ⟨j, he, hs⟩ <;> rw [commandOf_some hcmd] at he
  · simp [hc] at he
  · obtain rfl : i = j := Except.ok.inj (hc.symm.trans he)
    rw [hs, noteCmd_some hu']

/-- Settles O56: HOST's step, a reset, ENV's write and the delivery of a response write few registers, and a command ends, stands at
a transaction of its own, or at a construction write. -/
theorem everyStepKeepsTheInvariant : Obligations.EveryStepKeepsTheInvariant := by
  unfold Obligations.EveryStepKeepsTheInvariant
  exact fun s t h ht => h.of_step ht

end Sys2Proof.Proofs
end

section
/-! PROOF. What the commands leave unchanged: the frames, the lifecycle flag and the bank mode (R10, R11, R14, R27, R80 to R83). -/

namespace Sys2Proof.Machine

/-! ### The end of a command -/

/-- At either grain the response a command ends with is the response of the block. -/
theorem responseOf_respond (v : Byte) (st : Status) (s : State) : responseOf (respond v st s) = some ⟨v, st⟩ := by
  cases hg : s.grain
  · rw [respond_event hg]; rfl
  · rw [respond_command hg]; rfl

/-- A push that has ended keeps no byte of the configuration (R13, R83), and its response byte is 0x00. -/
theorem Pushed.ended {ws : List PushWrite} {s t : State} (h : Pushed ws s t) (hp : t.phase = .idle) :
    t.cmd = none ∧ t.tmp = none ∧ t.idx = none ∧ ∃ st, responseOf t = some ⟨0x00, st⟩ := by
  rcases h with ⟨u, rfl, -⟩ | ⟨u, rfl, -⟩ | ⟨-, hp', -⟩
  · exact ⟨rfl, rfl, rfl, _, responseOf_respond _ _ _⟩
  · exact ⟨rfl, rfl, rfl, _, responseOf_respond _ _ _⟩
  · simp [hp'] at hp

/-! ### The lifecycle flag and the bank mode (R10, R11) -/

theorem Ends.initialized {A : Byte → Prop} {s t : State} (h : Ends A s t) : t.initialized = s.initialized := by
  obtain ⟨u, v, st, rfl, hw, -⟩ := h
  exact hw.initialized

theorem Ends.bankMode {A : Byte → Prop} {s t : State} (h : Ends A s t) : t.bankMode = s.bankMode := by
  obtain ⟨u, v, st, rfl, hw, -⟩ := h
  exact hw.bankMode

/-- Only the end of the whole push sets the flag, with the response (0x00, 0) (R83). -/
theorem Pushed.initialized {ws : List PushWrite} {s t : State} (h : Pushed ws s t) :
    t.initialized = s.initialized ∨
      (t.initialized = true ∧ t.phase = .idle ∧ responseOf t = some ⟨0x00, .ok⟩) := by
  rcases h with ⟨u, rfl, -⟩ | ⟨u, rfl, hw, -⟩ | ⟨hw, -⟩
  · exact .inr ⟨rfl, rfl, responseOf_respond _ _ _⟩
  · exact .inl hw.initialized
  · exact .inl hw.initialized

theorem Pushed.bankMode {ws : List PushWrite} {s t : State} (h : Pushed ws s t) : t.bankMode = s.bankMode := by
  rcases h with ⟨u, rfl, hw, -⟩ | ⟨u, rfl, hw, -⟩ | ⟨hw, -⟩
  · exact hw.bankMode
  · exact hw.bankMode
  · exact hw.bankMode

theorem present_initialized (i : Instr) (s : State) : (present i s).initialized = s.initialized := by
  unfold present
  cases s.phase <;> rfl

theorem present_bankMode (i : Instr) (s : State) : (present i s).bankMode = s.bankMode := by
  unfold present
  cases s.phase <;> rfl

/-- Only the completion of CONSTRUCT and DESTRUCT change the lifecycle flag (R27). -/
theorem exec_initialized {i : Instr} {s t : State} (h : exec i s = .next t) :
    t.initialized = s.initialized ∨
    (∃ a b, i = .construct a b ∧ t.initialized = true ∧ t.phase = .idle ∧ responseOf t = some ⟨0x00, .ok⟩) ∨
    (i = .destruct ∧ t.initialized = false) := by
  rcases exec_outcome h with ⟨-, -, rfl⟩ | ⟨hd, -, -, -, rfl⟩ |
      ⟨a, b, hi, ⟨-, -, -, rfl⟩ | ⟨-, hp⟩ | ⟨n, u, -, -, hu, hp⟩⟩ | ⟨-, -, -, v, hv, hr⟩
  · exact .inl (present_initialized i s)
  · exact .inr (.inr ⟨hd, rfl⟩)
  · exact .inl rfl
  · exact hp.initialized.imp id fun hs => .inl ⟨a, b, hi, hs⟩
  · exact hp.initialized.imp (fun he => he.trans (by rw [hu.eq])) fun hs => .inl ⟨a, b, hi, hs⟩
  · have hvi : v.initialized = s.initialized := by rw [hv.eq]
    exact .inl ((hr.elim (·.initialized) (·.1.initialized)).trans hvi)

/-- Only the acceptance of CONSTRUCT, on a fresh block, writes the bank mode: the derived one (R11, R81). -/
theorem exec_bankMode {i : Instr} {s t : State} (h : exec i s = .next t) :
    t.bankMode = s.bankMode ∨
    (Fresh s ∧ ∃ a b, i = .construct a b ∧ t.bankMode = some (derivedMode s.config a b)) := by
  rcases exec_outcome h with ⟨-, -, rfl⟩ | ⟨-, -, -, -, rfl⟩ |
      ⟨a, b, hi, ⟨-, -, -, rfl⟩ | ⟨hf, hp⟩ | ⟨n, u, -, -, hu, hp⟩⟩ | ⟨-, -, -, v, hv, hr⟩
  · exact .inl (present_bankMode i s)
  · exact .inl rfl
  · exact .inl rfl
  · exact .inr ⟨hf, a, b, hi, hp.bankMode⟩
  · exact .inl (hp.bankMode.trans (by rw [hu.eq]))
  · have hvm : v.bankMode = s.bankMode := by rw [hv.eq]
    exact .inl ((hr.elim (·.bankMode) (·.1.bankMode)).trans hvm)

/-- Everything but a reset and the execution of a command leaves the lifecycle flag and the bank mode; a command runs from a state
that holds them as they were. -/
theorem step_lifecycle_cases {s t : State} (h : step s = .next t) :
    (∃ took rest, s.inputs = .reset took :: rest ∧ t.initialized = false) ∨
    (t.initialized = s.initialized ∧ t.bankMode = s.bankMode) ∨
    ∃ c i v, decode c = .ok i ∧
      ((s.phase = .idle ∧ s.due = none ∧ s.presented = some c) ∨ (s.phase ≠ .idle ∧ commandOf s = c)) ∧
      v.initialized = s.initialized ∧ v.bankMode = s.bankMode ∧ exec i v = .next t := by
  rcases step_next_cases h with ⟨c, rest, -, -, rfl⟩ | ⟨took, rest, hi, rfl⟩ | ⟨a, v, rest, -, rfl⟩ |
      ⟨u, hu, ⟨-, -, rfl⟩ | ⟨-, -, -, rfl⟩ | ⟨c, i, hp, hd, hq, hc, hx⟩ | ⟨i, hp, hc, hx⟩⟩
  · exact .inr (.inl ⟨rfl, rfl⟩)
  · exact .inl ⟨took, rest, hi, rfl⟩
  · exact .inr (.inl ⟨rfl, rfl⟩)
  · exact .inr (.inl (by rw [hu.eq]; exact ⟨rfl, rfl⟩))
  · exact .inr (.inl (by rw [hu.eq]; exact ⟨rfl, rfl⟩))
  · exact .inr (.inr ⟨c, i, _, hc, .inl ⟨hp, hd, hq⟩, by rw [hu.eq]; rfl, by rw [hu.eq]; rfl, hx⟩)
  · exact .inr (.inr ⟨_, i, _, hc, .inr ⟨hp, rfl⟩, by rw [noteCmd_eq, hu.eq], by rw [noteCmd_eq, hu.eq], hx⟩)

/-! ### CONSTRUCT -/

/-- What CONSTRUCT never writes, and `tmp`, which it clears only with its end. -/
structure ConstructKeeps (s t : State) : Prop where
  config : t.config = s.config
  env : t.env = s.env
  presented : t.presented = s.presented
  inputs : t.inputs = s.inputs
  draws : t.draws = s.draws
  grain : t.grain = s.grain
  history : s.history <+: t.history
  tmp : t.phase ≠ .idle → t.tmp = s.tmp

/-- A state that differs from `s` in what the acceptance of CONSTRUCT, or the reading of its registers, writes. -/
theorem ConstructKeeps.from {s u t : State} (h : ConstructKeeps u t)
    (he : u = { s with
      cmd := u.cmd, rsp := u.rsp, idx := u.idx, bankMode := u.bankMode, faults := u.faults }) : ConstructKeeps s t := by
  rw [he] at h
  obtain ⟨h1, h2, h3, h4, h5, h6, h7, h8⟩ := h
  exact ⟨h1, h2, h3, h4, h5, h6, h7, h8⟩

theorem pushScript_keeps {ws : List PushWrite} {n : Nat} {s t : State} (h : pushScript ws n s = .next t) :
    ConstructKeeps s t := by
  obtain ⟨t', ht, hcf, -, hend, henv, hq, hin, hdr, hg, hh⟩ := pushScript_frame ws n s
  obtain rfl : t = t' := Host.Outcome.next.inj (h.symm.trans ht)
  refine ⟨hcf, henv, hq, hin, hdr, hg, hh, fun hp => ?_⟩
  rcases hend with ⟨hp', -⟩ | ⟨-, -, ht⟩
  · exact absurd hp' hp
  · exact ht

theorem pushFromStart_keeps {ws : List PushWrite} {s t : State} (h : pushFromStart ws s = .next t) :
    ConstructKeeps s t := by
  rcases pushFromStart_cases ws s with ⟨w, rest, -, -, ho⟩ | ⟨-, ho⟩ <;> rw [ho] at h
  · cases h
    exact ⟨rfl, rfl, rfl, rfl, rfl, rfl, List.prefix_refl _, fun _ => rfl⟩
  · exact pushScript_keeps h

theorem exec_construct_keeps {a b : PortConfig} {s t : State} (h : exec (.construct a b) s = .next t) :
    ConstructKeeps s t := by
  rcases exec_construct_cases a b s with ⟨r, ho⟩ | ⟨-, ho⟩ | ⟨-, ho⟩ | ⟨n, u, -, -, hu, ho⟩ <;> rw [ho] at h
  · cases h
  · cases h
    exact ⟨rfl, rfl, rfl, rfl, rfl, rfl, List.prefix_refl _, fun hp => absurd rfl hp⟩
  · exact (pushFromStart_keeps h).from rfl
  · exact (pushScript_keeps h).from (by rw [hu.eq])

/-- CONSTRUCT that has ended, by any of its ends, keeps no byte of the configuration (R13, R83). -/
theorem exec_construct_ended {a b : PortConfig} {s t : State} (h : exec (.construct a b) s = .next t)
    (hp : t.phase = .idle) :
    t.cmd = none ∧ t.tmp = none ∧ t.idx = none ∧ ∃ st, responseOf t = some ⟨0x00, st⟩ := by
  rcases exec_outcome h with ⟨hw, -⟩ | ⟨hd, -⟩ |
      ⟨a', b', -, ⟨-, -, -, rfl⟩ | ⟨-, hpush⟩ | ⟨n, u, -, -, -, hpush⟩⟩ | ⟨-, hc, -⟩
  · cases hw
  · cases hd
  · exact ⟨rfl, rfl, rfl, _, responseOf_respond _ _ _⟩
  · exact hpush.ended hp
  · exact hpush.ended hp
  · exact absurd rfl (hc a b)

/-- CONSTRUCT changes no byte of the register space but those of its fourteen writes, in the derived mode from IDLE and in the mode
`bank_mode` reads as when it goes on. -/
theorem exec_construct_memory {a b : PortConfig} {m : BankMode} {x : Byte} {s t : State}
    (h : exec (.construct a b) s = .next t) (hw : Memory.wf s.memory) (hx : Untouched x s)
    (hidle : s.phase = .idle → m = derivedMode s.config a b) (hpend : s.phase ≠ .idle → m = modeOf s)
    (hne : ∀ w ∈ pushWrites s.config m a b, x ≠ w.addr) : Memory.read t.memory x = Memory.read s.memory x := by
  rcases exec_construct_cases a b s with ⟨r, ho⟩ | ⟨-, ho⟩ | ⟨hf, ho⟩ | ⟨n, u, hp, -, hu, ho⟩ <;> rw [ho] at h
  · cases h
  · cases h; rfl
  · rw [← hidle hf.1] at h
    rcases pushFromStart_cases (pushWrites s.config m a b) (cacheMode m (accept (encode (.construct a b)) s)) with
      ⟨w, rest, -, -, hs⟩ | ⟨-, hs⟩ <;> rw [hs] at h
    · cases h; rfl
    · have hread := pushScript_memory _ _ _ _ x h hw hx hne
      exact hread
  · rw [← hpend hp] at h
    have hmem : u.memory = s.memory := by rw [hu.eq]
    rw [← hmem]
    exact pushScript_memory _ _ _ _ x h (hmem ▸ hw) (by rw [hu.eq]; exact hx) fun w hm => hne w (List.mem_of_mem_drop hm)

end Sys2Proof.Machine

namespace Sys2Proof.Proofs

open Sys2Proof Sys2Proof.Machine

/-- Settles O30: a fresh block runs the push of its fourteen writes, which completes. -/
theorem constructPushesAndInitializes : Obligations.ConstructPushesAndInitializes := by
  unfold Obligations.ConstructPushesAndInitializes
  intro cfgA cfgB s hf hg hcp hb
  have hlen := pushWrites_length s.config (derivedMode s.config cfgA cfgB) cfgA cfgB
  have hne : pushWrites s.config (derivedMode s.config cfgA cfgB) cfgA cfgB ≠ [] := fun he => by simp [he] at hlen
  have he : exec (.construct cfgA cfgB) s = pushScript (pushWrites s.config (derivedMode s.config cfgA cfgB) cfgA cfgB) 0
      (cacheMode (derivedMode s.config cfgA cfgB) (accept (encode (.construct cfgA cfgB)) s)) := by
    rw [exec_construct_fresh hf hb, pushFromStart_command (by exact hg)]
  obtain ⟨t, ht, hi, hm, ha, hh, hmem⟩ := pushScript_completes _ 0
    (cacheMode (derivedMode s.config cfgA cfgB) (accept (encode (.construct cfgA cfgB)) s)) hg (hlen ▸ hcp) (.inl hne)
  have hk := exec_construct_keeps (he.trans ht)
  exact ⟨t, he.trans ht, hi, hm, ha, hh, hmem, hk.config, hk.env, hk.presented, hk.inputs, hk.draws, hk.grain⟩

/-- Settles O34: the command keeps the frame of its script, whose mode does not matter, and what every command keeps. -/
theorem accessorAndPinCommandFrame : Obligations.AccessorAndPinCommandFrame := by
  unfold Obligations.AccessorAndPinCommandFrame
  intro i s t hc hd h
  rcases exec_next_cases i s t h with ⟨a, b, hi⟩ | hi | ⟨m, hframe⟩
  · exact absurd hi (hc a b)
  · exact absurd hi hd
  · refine ⟨hframe.framed, hframe.history, hframe.idx, (exec_kept h).awaited, fun hrw => hframe.tmp ?_⟩
    cases hr : readAddress s.config m i with
    | none => rfl
    | some a => rw [hrw m (by rw [hr]; rfl)]; rfl

/-- Settles O36: what CONSTRUCT keeps, what it has left at its end, and where its writes go, each from the cases of its
execution. -/
theorem constructFrame : Obligations.ConstructFrame := by
  unfold Obligations.ConstructFrame
  intro cfgA cfgB s t h
  obtain ⟨hcf, henv, hq, hin, hdr, hg, hh, htmp⟩ := exec_construct_keeps h
  refine ⟨⟨hcf, henv, hq, hin, hdr, hg, hh⟩, htmp, (exec_kept h).awaited, exec_construct_ended h, ?_,
    fun m x hw hx hidle hpend hne => exec_construct_memory h hw hx hidle hpend hne⟩
  refine (exec_bankMode h).imp id fun ⟨hf, a, b, hi, hm⟩ => ⟨hf, ?_⟩
  obtain ⟨rfl, rfl⟩ : cfgA = a ∧ cfgB = b := by simpa using hi
  exact hm

/-- Settles O53: a step changes the flag by a reset or by the command it runs, and a command by its completion. -/
theorem lifecycleFlagChangesOnlyByConstructDestructReset :
    Obligations.LifecycleFlagChangesOnlyByConstructDestructReset := by
  unfold Obligations.LifecycleFlagChangesOnlyByConstructDestructReset
  refine ⟨fun i s t h hne => (exec_initialized h).resolve_left hne, fun s t h hne => ?_⟩
  rcases step_lifecycle_cases h with hreset | ⟨hi, -⟩ | ⟨c, i, v, hc, hwhere, hv, -, hx⟩
  · exact .inl hreset
  · exact absurd hi hne
  · refine .inr ⟨c, i, hc, hwhere, ?_⟩
    rcases exec_initialized hx with hi | ⟨a, b, hi, ht, -⟩ | hd
    · exact absurd (hi.trans hv) hne
    · exact .inl ⟨a, b, hi, ht⟩
    · exact .inr hd

/-- Settles O54: only the acceptance of CONSTRUCT writes the mode, and it needs a block that is not initialized. -/
theorem bankModeFixedWhileInitialized : Obligations.BankModeFixedWhileInitialized := by
  unfold Obligations.BankModeFixedWhileInitialized
  intro s t h hs ht
  rcases step_lifecycle_cases h with ⟨took, rest, -, hi⟩ | ⟨-, hm⟩ | ⟨c, i, v, -, -, hvi, hvm, hx⟩
  · simp [hi] at ht
  · exact hm
  · rcases exec_bankMode hx with hm | ⟨hf, -⟩
    · exact hm.trans hvm
    · have hvf := hf.2.2
      simp [hvi, hs] at hvf

end Sys2Proof.Proofs
end

section
/-! PROOF. Where a command stands while the transport has not completed a write, at the grain of commands (R16, R42, R82, R120). -/

namespace Sys2Proof.Machine

theorem takeTurn_waits {s : State} (h : WaitsAt 0 s) : (takeTurn s).1 = .late := by
  obtain ⟨-, t, ht, hc⟩ := h
  cases hs : s.turns with
  | nil => simp [hs] at ht
  | cons u rest =>
    obtain rfl : u = t := by simpa [hs] using ht
    simp [takeTurn, hs, hc]

/-- A last write that is late leaves its request outstanding and nothing else but ENV's turn. -/
theorem lastWrite_waits {a v : Byte} {s : State} (h : WaitsAt 0 s) : lastWrite a v s = .next { s with
    phase := .wrPend, bus := some (.write a v), memory := (takeTurn s).2.memory, turns := (takeTurn s).2.turns } := by
  have hf := takeTurn_frame s
  unfold lastWrite writeByte
  rw [takeTurn_hold, takeTurn_waits h]
  simp only
  rw [hf]
  rfl

/-- A read-modify-write at the grain of commands whose read completes and whose write is late. -/
theorem rmwReadHalf_waits {a : Byte} {f : Byte → Byte} {s : State} (hg : s.grain = .command) (h : WaitsAt 1 s) :
    ∃ x d mm tu, rmwReadHalf a f s = .next { s with
      phase := .wrPend, tmp := some x, bus := some (.write a (f x)), memory := mm, turns := tu,
      history := s.history ++ [.read a x], draws := d } := by
  obtain ⟨x, d, hr, -⟩ := readByte_completes (a := a) h.1
  have he := rmwReadHalf_done (f := f) hr
  rw [following_command (by exact hg), rmwWriteHalf, tmpOf_some (latchTmp_tmp _ _), noteTmp_some (latchTmp_tmp _ _),
    lastWrite_waits (waitsAt_next h rfl)] at he
  exact ⟨x, d, _, _, he⟩

end Sys2Proof.Machine

namespace Sys2Proof.Proofs

open Sys2Proof Sys2Proof.Machine

/-- Settles O46: the ready block runs the read half, which completes, and waits in the write half. -/
theorem readModifyWriteWaitsInWrPend : Obligations.ReadModifyWriteWaitsInWrPend := by
  unfold Obligations.ReadModifyWriteWaitsInWrPend
  intro i a m s h hg hr hw hwait
  have hp : ¬ (accept (encode i) s).phase = .wrPend := by simp [h.1]
  have he : exec i s = rmwReadHalf a (fun x => writtenByte x i) (accept (encode i) s) := by
    rw [exec_ready_of_transaction h (.inl (by simp [hr])), scriptOf_rmw (by exact hr) (by exact hw), rmwScript_eq, if_neg hp,
      opening_command (by exact hg)]
  obtain ⟨x, d, mm, tu, hx⟩ := rmwReadHalf_waits (a := a) (f := fun x => writtenByte x i) (s := accept (encode i) s) hg hwait
  exact ⟨x, _, he.trans hx, rfl, rfl, rfl, rfl, rfl, h.2.1, rfl, rfl, rfl, rfl, rfl, rfl, rfl, rfl⟩

/-- Settles O47: the fresh block runs its push, which waits at write number `n`. -/
theorem constructWaitsInCfgPend : Obligations.ConstructWaitsInCfgPend := by
  unfold Obligations.ConstructWaitsInCfgPend
  intro cfgA cfgB n s hf hg hb hwait
  have hlt : n.val < (pushWrites s.config (derivedMode s.config cfgA cfgB) cfgA cfgB).length := by
    rw [pushWrites_length]; exact n.isLt
  obtain ⟨w, mm, tu, hw, ht⟩ := pushScript_waits _ 0 n.val
    (cacheMode (derivedMode s.config cfgA cfgB) (accept (encode (.construct cfgA cfgB)) s)) hg hwait hlt
  have he := (exec_construct_fresh hf hb).trans ((pushFromStart_command (by exact hg)).trans ht)
  exact ⟨_, w, he, rfl, by simp, hf.2.2, rfl, rfl, rfl, hf.2.1, hw, rfl, rfl⟩

end Sys2Proof.Proofs
end

section
/-! PROOF. The reads of a register that holds no value: none under the invariant, and what each records where it comes (R26, U9). -/

namespace Sys2Proof.Machine

/-! ### Under the invariant nothing is recorded -/

theorem Ends.faults {A : Byte → Prop} {s t : State} (h : Ends A s t) : t.faults = s.faults := by
  obtain ⟨u, v, st, rfl, hw, -⟩ := h
  exact hw.faults

theorem Pushed.faults {ws : List PushWrite} {s t : State} (h : Pushed ws s t) : t.faults = s.faults := by
  rcases h with ⟨u, rfl, hw, -⟩ | ⟨u, rfl, hw, -⟩ | ⟨hw, -⟩
  · exact hw.faults
  · exact hw.faults
  · exact hw.faults

theorem present_faults (i : Instr) (s : State) : (present i s).faults = s.faults := by
  unfold present
  cases s.phase <;> rfl

theorem resetInput_faults (took : Bool) (s : State) : (resetInput took s).faults = s.faults := by
  obtain ⟨mm, he, -⟩ := tornWrite_cases took s
  rw [resetInput, clearRegisters_faults, he]

/-- A CONSTRUCT in progress is at one of its writes, so `idx` holds a value. -/
theorem InProgress.idx_held {a b : PortConfig} {m : BankMode} {s : State} (h : InProgress (.construct a b) m s) :
    s.idx ≠ none := by
  cases hp : s.phase with
  | idle => exact absurd hp h.pending
  | rdPend => obtain ⟨-, x, hx, -⟩ := h.atRead hp; cases hx
  | wrPend => obtain ⟨-, x, y, hx, -⟩ := h.atWrite hp; cases hx
  | cfgPend => obtain ⟨-, a', b', n, w, -, hn, -⟩ := h.atPush hp; simp [hn]

/-- Under the invariant a command reads no register without a value. -/
theorem Runs.faults_of_exec {i : Instr} {s t : State} (h : Runs i s) (hx : exec i s = .next t) : t.faults = s.faults := by
  rcases exec_outcome hx with ⟨-, -, rfl⟩ | ⟨-, -, -, -, rfl⟩ |
      ⟨a, b, rfl, ⟨-, -, -, rfl⟩ | ⟨-, hpush⟩ | ⟨n, u, hp, -, hu, hpush⟩⟩ | ⟨-, hc, -, v, hv, hr⟩
  · exact present_faults i s
  · rfl
  · rfl
  · exact hpush.faults
  · obtain ⟨m, hm⟩ := h.inProgress hp
    exact hpush.faults.trans (hu.clean (by simp [hm.bankMode]) hm.idx_held).1
  · obtain ⟨-, -, hvm, -⟩ := hv.underWay h hc
    have hmode : s.bankMode = some (modeOf s) := by rw [hv.eq] at hvm; exact hvm
    have htmp : s.phase = .wrPend → (readAddress s.config (modeOf s) i).isSome = true → s.tmp ≠ none := fun hp hra => by
      obtain ⟨m, hm⟩ := h.inProgress (by simp [hp])
      obtain ⟨-, a, x, -, hxt, -⟩ := hm.atWrite hp
      rw [modeOf_some hm.bankMode] at hra
      simp [hxt hra]
    exact (hr.elim (·.faults) (·.1.faults)).trans (hv.clean (by simp [hmode]) htmp).1

/-- Under the invariant a step records no fault. -/
theorem Inv.faults_of_step {s t : State} (h : Inv s) (ht : step s = .next t) : t.faults = s.faults := by
  rcases step_next_cases ht with ⟨c, rest, -, -, rfl⟩ | ⟨took, rest, -, rfl⟩ | ⟨a, v, rest, -, rfl⟩ | ⟨u, hu, hs⟩
  · rfl
  · exact resetInput_faults took _
  · rfl
  · have hI := h.of_blockMoves hu
    have he := hu.eq
    have hf : u.faults = s.faults := by rw [he]
    rcases hs with ⟨-, -, rfl⟩ | ⟨-, -, -, rfl⟩ | ⟨c, i, hp, hd, hq, -, hx⟩ | ⟨i, hp, hi, hx⟩
    · exact hf
    · exact hf
    · have hr : Runs i (takePresented u) := hI.runs_presented (c := c) (by rw [he]; exact hp) (by rw [he]; exact hd)
        (by rw [he]; exact hq)
      exact (hr.faults_of_exec hx).trans hf
    · obtain ⟨hr, hn⟩ := hI.runs_inProgress (i := i) (by rw [he]; exact hp) (by rw [he]; exact hi)
      exact (hr.faults_of_exec (hn ▸ hx)).trans hf

/-- A step of any state keeps the faults recorded. -/
theorem step_faults {s t : State} (h : step s = .next t) : s.faults <+: t.faults := by
  rcases step_next_cases h with ⟨c, rest, -, -, rfl⟩ | ⟨took, rest, -, rfl⟩ | ⟨a, v, rest, -, rfl⟩ | ⟨u, hu, hs⟩
  · exact List.prefix_refl _
  · rw [resetInput_faults]; exact List.prefix_refl _
  · exact List.prefix_refl _
  · have hf : u.faults = s.faults := by rw [hu.eq]
    rw [← hf]
    rcases hs with ⟨-, -, rfl⟩ | ⟨-, -, -, rfl⟩ | ⟨c, i, -, -, -, -, hx⟩ | ⟨i, -, -, hx⟩
    · exact List.prefix_refl _
    · exact List.prefix_refl _
    · exact (exec_kept hx).faults
    · exact (note_faults u).2.2.2.trans (exec_kept hx).faults

/-! ### A read of a register that holds no value -/

theorem noteTmp_none {s : State} (h : s.tmp = none) :
    noteTmp s = { s with tmp := some (tmpOf s), faults := s.faults ++ [.tmp] } := by
  simp only [noteTmp, h]; rfl

theorem noteIdx_none {s : State} (h : s.idx = none) :
    noteIdx s = { s with idx := some (idxOf s), faults := s.faults ++ [.idx] } := by
  simp only [noteIdx, h]; rfl

theorem noteCmd_none {s : State} (h : s.cmd = none) :
    noteCmd s = { s with cmd := some (commandOf s), faults := s.faults ++ [.cmd] } := by
  simp only [noteCmd, h]; rfl

theorem lastWrite_answers (a v : Byte) (s : State) : ∃ t, lastWrite a v s = .next t := by
  rcases lastWrite_cases a v s with ⟨mm, -, h⟩ | ⟨-, mm, -, h⟩ | h
  · exact ⟨_, h⟩
  · exact ⟨_, h⟩
  · exact ⟨_, h⟩

theorem opening_answers {ph : Phase} {r : BusRequest} {k : State → Host.Outcome State Fault Refusal} {s : State}
    (hk : ∃ t, k s = .next t) : ∃ t, opening ph r k s = .next t := by
  rcases opening_cases ph r k s with ⟨-, -, h⟩ | h
  · exact ⟨_, h⟩
  · rw [h]; exact hk

theorem following_answers {ph : Phase} {r : BusRequest} {k : State → Host.Outcome State Fault Refusal} {s : State}
    (hk : ∃ t, k s = .next t) : ∃ t, following ph r k s = .next t := by
  rcases following_cases ph r k s with ⟨-, h⟩ | ⟨-, h⟩
  · exact ⟨_, h⟩
  · rw [h]; exact hk

theorem lastRead_answers (a : Byte) (post : Byte → Byte) (s : State) : ∃ t, lastRead a post s = .next t := by
  rcases lastRead_cases a post s with ⟨v, d, h⟩ | ⟨-, h⟩ | h
  · exact ⟨_, h⟩
  · exact ⟨_, h⟩
  · exact ⟨_, h⟩

theorem rmwReadHalf_answers (a : Byte) (f : Byte → Byte) (s : State) : ∃ t, rmwReadHalf a f s = .next t := by
  rcases rmwReadHalf_cases a f s with ⟨v, d, h⟩ | ⟨-, h⟩ | h
  · rw [h]; exact following_answers (lastWrite_answers _ _ _)
  · exact ⟨_, h⟩
  · exact ⟨_, h⟩

/-- The script of a command that has a transaction answers a next state. -/
theorem scriptOf_answers {i : Instr} {m : BankMode} {s : State}
    (ht : (readAddress s.config m i).isSome = true ∨ (writeAddress s.config m i).isSome = true) :
    ∃ t, scriptOf i m s = .next t := by
  cases hr : readAddress s.config m i with
  | none =>
    obtain ⟨a, hw⟩ : ∃ a, writeAddress s.config m i = some a := by simpa [hr, Option.isSome_iff_exists] using ht
    rw [scriptOf_write hr hw]
    exact opening_answers (lastWrite_answers _ _ _)
  | some a =>
    cases hw : writeAddress s.config m i with
    | none =>
      rw [scriptOf_read hr hw]
      exact opening_answers (lastRead_answers _ _ _)
    | some b =>
      rw [scriptOf_rmw hr hw, rmwScript_eq]
      split
      · exact lastWrite_answers _ _ _
      · exact opening_answers (rmwReadHalf_answers _ _ _)

/-- A script keeps the faults recorded. -/
theorem scriptOf_faults {i : Instr} {m : BankMode} {s t : State} (h : scriptOf i m s = .next t) : s.faults <+: t.faults := by
  obtain ⟨v, hv, hr⟩ := scriptOf_outcome h
  have hf : t.faults = v.faults := hr.elim (·.faults) (·.1.faults)
  rw [hf]
  rcases hv with rfl | ⟨-, -, rfl⟩
  · exact List.prefix_refl _
  · exact (note_faults s).2.1

/-- A CONSTRUCT in progress goes on from the write in progress. -/
theorem exec_construct_pending {a b : PortConfig} {s : State} (hp : s.phase ≠ .idle)
    (hc : s.cmd = some (encode (.construct a b))) : exec (.construct a b) s = constructFromPush a b s := by
  cases hq : s.phase with
  | idle => exact absurd hq hp
  | rdPend | wrPend | cfgPend => simp [exec, execConstruct, constructAdmission, hq, hc]

/-- In a mode that `bank_mode` holds it goes on from the write `idx` reads as. -/
theorem exec_construct_goesOn {a b : PortConfig} {m : BankMode} {s : State} (hp : s.phase ≠ .idle)
    (hc : s.cmd = some (encode (.construct a b))) (hm : s.bankMode = some m) :
    exec (.construct a b) s = pushScript ((pushWrites s.config m a b).drop (idxOf s).val) (idxOf s).val (noteIdx s) := by
  rw [exec_construct_pending hp hc, constructFromPush, withMode, modeOf_some hm, noteMode_some hm]

/-- A command in progress that has a transaction runs its script, in a mode that `bank_mode` holds. -/
theorem exec_pending_of_transaction {i : Instr} {m : BankMode} {s : State} (hp : s.phase ≠ .idle)
    (hc : s.cmd = some (encode i)) (hm : s.bankMode = some m)
    (ht : (readAddress s.config m i).isSome = true ∨ (writeAddress s.config m i).isSome = true) :
    exec i s = scriptOf i m s := by
  obtain ⟨hw, hnc, hnd⟩ := wellFormed_of_transaction ht
  rw [exec_eq_operate hnc hnd hw, operate_inProgress hp hc hm]

/-- An admitted command that is neither CONSTRUCT nor DESTRUCT, run while `bank_mode` holds no value, records the read (U9). -/
theorem exec_records_bankMode {i : Instr} {s : State} (hw : i.wellFormed = true) (hc : ∀ a b, i ≠ .construct a b)
    (hd : i ≠ .destruct) (ha : admission i s = none) (hm : s.bankMode = none) :
    ∃ t, exec i s = .next t ∧ s.faults ++ [.bankMode] <+: t.faults := by
  have hu : noteMode (present i s) = recordFault .bankMode (present i s) :=
    noteMode_none ((present_bankMode i s).trans hm)
  obtain ⟨t, ht⟩ := scriptOf_answers (m := modeOf (present i s)) (s := recordFault .bankMode (present i s))
    (transaction_of_wellFormed hc hd hw _ _)
  refine ⟨t, ?_, ?_⟩
  · simp only [exec_eq_operate hc hd hw, operate, ha, withMode, hu]
    exact ht
  · simpa only [recordFault_faults, present_faults] using scriptOf_faults ht

/-- CONSTRUCT in progress, run while `bank_mode` holds no value, records the read (U9). -/
theorem exec_construct_records_bankMode {a b : PortConfig} {s : State} (hp : s.phase ≠ .idle)
    (hc : s.cmd = some (encode (.construct a b))) (hm : s.bankMode = none) :
    ∃ t, exec (.construct a b) s = .next t ∧ s.faults ++ [.bankMode] <+: t.faults := by
  obtain ⟨t, ht, -⟩ := pushScript_frame ((pushWrites (noteMode s).config (modeOf s) a b).drop (idxOf (noteMode s)).val)
    (idxOf (noteMode s)).val (noteIdx (noteMode s))
  have hpush := pushScript_outcome (pushWrites_length _ _ _ _) (idxOf (noteMode s)).isLt ht
  have hf : (noteMode s).faults = s.faults ++ [.bankMode] := by rw [noteMode_none hm, recordFault_faults]
  refine ⟨t, by rw [exec_construct_pending hp hc, constructFromPush, withMode, ht], ?_⟩
  rw [← hf, hpush.faults]
  exact (note_faults _).2.2.1

/-- A write half that finds no value in `tmp` is the write half that finds the free value there, the fault recorded (U9). -/
theorem exec_records_tmp {i : Instr} {a b : Byte} {m : BankMode} {s : State} (hp : s.phase = .wrPend)
    (hc : s.cmd = some (encode i)) (hm : s.bankMode = some m) (hr : readAddress s.config m i = some a)
    (hw : writeAddress s.config m i = some b) (ht : s.tmp = none) :
    exec i s = exec i { s with tmp := some (tmpOf s), faults := s.faults ++ [.tmp] } := by
  have hn : s.phase ≠ .idle := by simp [hp]
  have hread : (readAddress s.config m i).isSome = true := by simp [hr]
  obtain rfl := writeAddress_of_read hr hw
  rw [exec_pending_of_transaction hn hc hm (.inl hread),
    exec_pending_of_transaction (m := m) (by exact hn) (by exact hc) (by exact hm) (.inl (by exact hread)),
    scriptOf_rmw hr hw, rmwScript_eq, if_pos hp, rmwWriteHalf, noteTmp_none ht]
  exact (scriptOf_atWrite (s := { s with tmp := some (tmpOf s), faults := s.faults ++ [.tmp] }) hp hw fun _ => rfl).symm

/-- CONSTRUCT that goes on and finds no value in `idx` goes on as where it finds the free value there, the fault recorded (U9). -/
theorem exec_records_idx {a b : PortConfig} {m : BankMode} {s : State} (hp : s.phase ≠ .idle)
    (hc : s.cmd = some (encode (.construct a b))) (hm : s.bankMode = some m) (hi : s.idx = none) :
    exec (.construct a b) s =
      exec (.construct a b) { s with idx := some (idxOf s), faults := s.faults ++ [.idx] } := by
  rw [exec_construct_goesOn hp hc hm, noteIdx_none hi,
    exec_construct_goesOn (m := m) (by exact hp) (by exact hc) (by exact hm)]
  rfl

/-- A move that goes on with a command while `cmd` holds none runs a free command, put into `cmd`, the fault recorded (U9). -/
theorem step_records_cmd {s u : State} (h : BlockMoves s u) (hp : s.phase ≠ .idle) (hc : s.cmd = none) :
    ∃ i, step s = exec i { u with cmd := some (encode i), faults := s.faults ++ [.cmd] } := by
  have he := h.eq
  have hfaults : u.faults = s.faults := by rw [he]
  have hcmd : u.cmd = none := by rw [he]; exact hc
  have hs : commandOf s = encode (Config.unwrittenCommand s.faults.length) := by simp only [commandOf, hc]
  have hu : commandOf u = commandOf s := by simp only [commandOf, hcmd, hc, hfaults]
  refine ⟨Config.unwrittenCommand s.faults.length, ?_⟩
  rcases goesOn_pending hp h with ⟨why, hd, -⟩ | ⟨i, hd, hx⟩ <;> rw [hs, decode_encode] at hd
  · cases hd
  · obtain rfl := Except.ok.inj hd
    rw [hx, noteCmd_none hcmd, hu, hs, hfaults]

end Sys2Proof.Machine

namespace Sys2Proof.Proofs

open Sys2Proof Sys2Proof.Machine

/-- Settles O58: under the invariant every register a step reads holds its value, and each of the four reads that finds none
records its fault. -/
theorem noStepReadsAnUnwrittenRegister : Obligations.NoStepReadsAnUnwrittenRegister := by
  unfold Obligations.NoStepReadsAnUnwrittenRegister
  refine ⟨fun s t h ht => h.faults_of_step ht, fun s t => step_faults, fun i s hw hd hidle hpend hm => ?_,
    fun s u h hp hc => step_records_cmd h hp hc, fun i a b m s hp hc hm hr hwa ht => ⟨_, exec_records_tmp hp hc hm hr hwa ht⟩,
    fun cfgA cfgB m s hp hc hm hi => ⟨_, exec_records_idx hp hc hm hi⟩⟩
  by_cases hp : s.phase = .idle
  · obtain ⟨hdue, hi, hc⟩ := hidle hp
    exact exec_records_bankMode hw hc hd (by simp [admission_idle hp hdue, hi]) hm
  · have hcmd := hpend hp
    by_cases hc : ∃ a b, i = .construct a b
    · obtain ⟨a, b, rfl⟩ := hc
      exact exec_construct_records_bankMode hp hcmd hm
    · exact exec_records_bankMode hw (fun a b he => hc ⟨a, b, he⟩) hd (by simp [admission_pending hp, hcmd]) hm

end Sys2Proof.Proofs
end

section
/-! PROOF. The address maps of the two modes, the addresses the block emits, and the growth of the history (R30, R31, R33 to R35,
R40, R49). -/

namespace Sys2Proof.Machine

/-! ### Emittable addresses (R35) -/

theorem baseAddress_documented_le (k : RegKind) : (baseAddress Config.documented.base k).toNat ≤ 10 := by
  cases k <;> decide

theorem portOffset_documented_le (p : Port) (m : BankMode) : (portOffset Config.documented p m).toNat ≤ 10 := by
  cases p <;> cases m <;> decide

/-- Every address of a register may be emitted. -/
theorem emittable_address (c : Config) (p : Port) (k : RegKind) (m : BankMode) : Emittable c (address c p k m) := by
  refine ⟨⟨p, k, m, rfl⟩, ?_⟩
  rintro rfl
  have hb := baseAddress_documented_le k
  have ho := portOffset_documented_le p m
  rw [address, BitVec.toNat_add]
  omega

/-- A command other than CONSTRUCT reads and writes at addresses of registers only. -/
theorem OwnAddress.emittable {i : Instr} {m : BankMode} {c : Config} {x : Byte} (h : OwnAddress i m c x) :
    Emittable c x := by
  suffices hreg : ∃ p k, address c p k m = x by
    obtain ⟨p, k, rfl⟩ := hreg
    exact emittable_address c p k m
  cases i <;> simp only [OwnAddress, readAddress, writeAddress, Option.ite_none_right_eq_some, Option.some.injEq,
    reduceCtorEq, or_false, false_or, or_self] at h
  case getPinState | setPinState | setPin | resetPin | togglePin => exact ⟨_, _, h.2⟩
  case resetPins => exact ⟨_, _, h.elim (·.2) id⟩
  all_goals exact ⟨_, _, h⟩

theorem portPushes_emittable {c : Config} {m : BankMode} {p : Port} {cfg : PortConfig} {w : PushWrite}
    (h : w ∈ portPushes c m p cfg) : Emittable c w.addr := by
  obtain ⟨k, -, rfl⟩ := List.mem_map.mp h
  exact emittable_address c p (configKind k) m

theorem pushWrites_emittable {c : Config} {m : BankMode} {cfgA cfgB : PortConfig} {w : PushWrite}
    (h : w ∈ pushWrites c m cfgA cfgB) : Emittable c w.addr := by
  unfold pushWrites at h
  cases ho : c.cfgPortOrder <;> simp only [ho, List.mem_append] at h <;>
    exact h.elim portPushes_emittable portPushes_emittable

theorem PushAddress.emittable {c : Config} {m : BankMode} {cfgA cfgB : PortConfig} {x : Byte}
    (h : PushAddress (pushWrites c m cfgA cfgB) x) : Emittable c x := by
  obtain ⟨w, hw, rfl⟩ := h
  exact pushWrites_emittable hw

/-- The request outstanding while a command is in progress is at an address of its rule. -/
theorem InProgress.emittable {i : Instr} {m : BankMode} {s : State} (h : InProgress i m s) {r : BusRequest}
    (hr : s.bus = some r) : Emittable s.config (requestAddr r) := by
  cases hp : s.phase with
  | idle => exact absurd hp h.pending
  | rdPend =>
    obtain ⟨-, a, ha, hb⟩ := h.atRead hp
    obtain rfl := Option.some.inj (hb.symm.trans hr)
    exact OwnAddress.emittable (.inl ha)
  | wrPend =>
    obtain ⟨-, a, x, ha, -, hb⟩ := h.atWrite hp
    obtain rfl := Option.some.inj (hb.symm.trans hr)
    exact OwnAddress.emittable (.inr ha)
  | cfgPend =>
    obtain ⟨-, cfgA, cfgB, n, w, -, -, hw, hb⟩ := h.atPush hp
    obtain rfl := Option.some.inj (hb.symm.trans hr)
    exact pushWrites_emittable (List.mem_of_getElem? hw)

/-- Under the invariant every outstanding request is at an address of a register. -/
theorem Inv.bus_emittable {s : State} (h : Inv s) {r : BusRequest} (hr : s.bus = some r) :
    Emittable s.config (requestAddr r) := by
  by_cases hp : s.phase = .idle
  · simp [(h.idle_resting hp).bus] at hr
  · obtain ⟨-, -, i, m, hc, hm, hpos⟩ := h.in_progress hp
    exact InProgress.emittable ⟨hp, hc, hm, hpos⟩ hr

/-! ### The transactions a step adds (R40, R49) -/

/-- From `s` to `t` the parameters stay, and the transactions added to the history, behind those of `s`, are at emittable
addresses. -/
structure Emits (s t : State) : Prop where
  config : t.config = s.config
  history : ∃ l, t.history = s.history ++ l ∧ ∀ tr ∈ l, Emittable s.config (transactionAddr tr)

theorem Emits.nothing {s t : State} (hc : t.config = s.config) (hh : t.history = s.history) : Emits s t :=
  ⟨hc, [], by simpa using hh, by simp⟩

theorem Emits.from {s u t : State} (h : Emits u t) (hc : u.config = s.config) (hh : u.history = s.history) : Emits s t := by
  obtain ⟨h1, h2⟩ := h
  rw [hc] at h1 h2
  rw [hh] at h2
  exact ⟨h1, h2⟩

theorem Emits.history_prefix {s t : State} (h : Emits s t) : s.history <+: t.history := by
  obtain ⟨l, hl, -⟩ := h.history
  exact ⟨l, hl.symm⟩

theorem Emits.mem {s t : State} (h : Emits s t) {tr : Transaction} (htr : tr ∈ t.history) :
    tr ∈ s.history ∨ Emittable s.config (transactionAddr tr) := by
  obtain ⟨l, hl, hA⟩ := h.history
  rw [hl] at htr
  exact (List.mem_append.mp htr).imp id (hA tr)

theorem Went.emits {A : Byte → Prop} {s u : State} (h : Went A s u) (hA : ∀ x, A x → Emittable s.config x) : Emits s u := by
  obtain ⟨l, hl, hl', -⟩ := h.history
  exact ⟨h.config, l, hl, fun tr htr => hA _ (hl' tr htr)⟩

theorem Ends.emits {A : Byte → Prop} {s t : State} (h : Ends A s t) (hA : ∀ x, A x → Emittable s.config x) : Emits s t := by
  obtain ⟨u, v, st, rfl, hw, -⟩ := h
  obtain ⟨hc, hh⟩ := hw.emits hA
  exact ⟨hc, hh⟩

theorem Pushed.emits {ws : List PushWrite} {s t : State} (h : Pushed ws s t)
    (hA : ∀ x, PushAddress ws x → Emittable s.config x) : Emits s t := by
  rcases h with ⟨u, rfl, hw, -⟩ | ⟨u, rfl, hw, -⟩ | ⟨hw, -⟩
  · obtain ⟨hc, hh⟩ := hw.emits hA
    exact ⟨hc, hh⟩
  · obtain ⟨hc, hh⟩ := hw.emits hA
    exact ⟨hc, hh⟩
  · exact hw.emits hA

theorem present_history (i : Instr) (s : State) : (present i s).history = s.history := by
  unfold present
  cases s.phase <;> rfl

theorem resetInput_config (took : Bool) (s : State) : (resetInput took s).config = s.config := by
  obtain ⟨mm, he, -⟩ := tornWrite_cases took s
  rw [resetInput, clearRegisters_config, he]

/-- A command adds transactions at addresses of its own only. -/
theorem exec_emits {i : Instr} {s t : State} (h : exec i s = .next t) : Emits s t := by
  rcases exec_outcome h with ⟨-, -, rfl⟩ | ⟨-, -, -, -, rfl⟩ |
      ⟨a, b, -, ⟨-, -, -, rfl⟩ | ⟨-, hp⟩ | ⟨n, u, -, -, hu, hp⟩⟩ | ⟨-, -, -, v, hv, hr⟩
  · exact .nothing (exec_kept h).config (present_history i s)
  · exact .nothing rfl rfl
  · exact .nothing rfl rfl
  · exact (hp.emits fun x hx => hx.emittable).from rfl rfl
  · have hc : u.config = s.config := by rw [hu.eq]
    have hh : u.history = s.history := by rw [hu.eq]
    exact (hp.emits fun x hx => hc ▸ hx.emittable).from hc hh
  · have hc : v.config = s.config := by rw [hv.eq]
    have hh : v.history = s.history := by rw [hv.eq]
    have hA : ∀ x, OwnAddress i (modeOf s) s.config x → Emittable v.config x := fun x hx => hc ▸ hx.emittable
    exact (hr.elim (·.emits hA) (·.1.emits hA)).from hc hh

/-- A step adds transactions by the command it runs only. -/
theorem step_emits {s t : State} (h : step s = .next t) : Emits s t := by
  rcases step_next_cases h with ⟨c, rest, -, -, rfl⟩ | ⟨took, rest, -, rfl⟩ | ⟨a, v, rest, -, rfl⟩ | ⟨u, hu, hs⟩
  · exact .nothing rfl rfl
  · exact .nothing (resetInput_config took _) (resetInput_history took _)
  · exact .nothing rfl rfl
  · have hc : u.config = s.config := by rw [hu.eq]
    have hh : u.history = s.history := by rw [hu.eq]
    rcases hs with ⟨-, -, rfl⟩ | ⟨-, -, -, rfl⟩ | ⟨c, i, -, -, -, -, hx⟩ | ⟨i, -, -, hx⟩
    · exact .nothing hc hh
    · exact .nothing hc hh
    · exact (exec_emits hx).from hc hh
    · exact (exec_emits hx).from (by rw [noteCmd_eq]; exact hc) (by rw [noteCmd_eq]; exact hh)

end Sys2Proof.Machine

namespace Sys2Proof.Proofs

open Sys2Proof Sys2Proof.Machine

/-- Settles O3: the forty-four sums of base and offset, evaluated. -/
theorem addressMapsOfBothModes : Obligations.AddressMapsOfBothModes := by
  unfold Obligations.AddressMapsOfBothModes
  decide

/-- Settles O6: what a step adds is at addresses of the command it runs, and the invariant after the step fixes the outstanding
request. -/
theorem onlyAddressesInTheImageAreEmitted : Obligations.OnlyAddressesInTheImageAreEmitted := by
  unfold Obligations.OnlyAddressesInTheImageAreEmitted
  intro s t h
  have he := step_emits h
  exact ⟨fun tr htr => he.mem htr, fun hI r hr => he.config ▸ (hI.of_step h).bus_emittable hr⟩

/-- Settles O55: whatever a step is, the transactions it adds stand behind those before it. -/
theorem historyOnlyGrows : Obligations.HistoryOnlyGrows := by
  unfold Obligations.HistoryOnlyGrows
  exact fun s t h => (step_emits h).history_prefix

end Sys2Proof.Proofs
end

section
/-! PROOF. The register space a command leaves: no byte but the one stored to, and those ENV changes on its own (R38, R40). -/

namespace Sys2Proof.Machine

theorem present_memory (i : Instr) (s : State) : (present i s).memory = s.memory := by
  unfold present
  cases s.phase <;> rfl

/-- A command other than CONSTRUCT changes no byte but the one at its write address in the mode `bank_mode` reads as. -/
theorem exec_memory {i : Instr} {s t : State} {x : Byte} (h : exec i s = .next t) (hc : ∀ a b, i ≠ .construct a b)
    (hw : Memory.wf s.memory) (hu : Untouched x s) (hx : ∀ a, writeAddress s.config (modeOf s) i = some a → x ≠ a) :
    Memory.read t.memory x = Memory.read s.memory x := by
  by_cases hd : i = .destruct
  · subst hd
    rcases exec_destruct_cases s with ⟨r, ho⟩ | ⟨-, -, -, ho⟩ <;> rw [ho] at h <;> cases h
    rfl
  cases hwf : i.wellFormed with
  | false =>
    rw [exec_illFormed hwf] at h
    obtain ⟨rfl, -⟩ := illFormedEnd_next h
    rw [respond_memory, present_memory]
  | true =>
    rw [exec_eq_operate hc hd hwf] at h
    rcases operate_cases i (scriptOf i) s with ⟨-, -, -, ho⟩ | ⟨-, ho⟩ | ⟨u, htook, ho⟩ <;> rw [ho] at h
    · cases h
    · cases h
    · have hm : u.memory = s.memory := by rw [htook.eq]
      rw [← hm]
      exact scriptOf_memory h (hm ▸ hw) (by rw [htook.eq]; exact hu) (by rw [htook.eq]; exact hx)

end Sys2Proof.Machine

namespace Sys2Proof.Proofs

open Sys2Proof Sys2Proof.Machine

/-- Settles O35: DESTRUCT and an index above 7 issue no transaction, and a script stores at its write address only. -/
theorem registerSpaceFrame : Obligations.RegisterSpaceFrame := by
  unfold Obligations.RegisterSpaceFrame
  exact fun i s t x hc h hw hu hx => exec_memory h hc hw hu hx

end Sys2Proof.Proofs
end

section
/-! PROOF. An attempt at which the transport completes nothing: late, which delays the command, or never, which leaves the block
stuck (R42, R47, R169; log 1, log 8). -/

namespace Sys2Proof.Machine

/-! ### A transaction that does not complete -/

/-- At the coming attempt the transport completes nothing. -/
def Unanswered (s : State) : Prop := (takeTurn s).1 = .late ∨ (takeTurn s).1 = .never

theorem unanswered_late {pk : List (Byte × Byte)} {rest : List BusTurn} {s : State} (h : s.turns = ⟨pk, .late⟩ :: rest) :
    Unanswered s ∧ (takeTurn s).2 = { s with memory := pokeAll pk s.memory, turns := rest } := by
  have ht := takeTurn_of_cons h (by simp)
  exact ⟨.inl (by rw [ht]), by rw [ht]⟩

theorem unanswered_hung {rest : List BusTurn} {s : State} (h : s.turns = ⟨[], .never⟩ :: rest) :
    Unanswered s ∧ (takeTurn s).2 = s := by
  have ht := takeTurn_of_hung h
  exact ⟨.inr (by rw [ht]), by rw [ht]⟩

/-- A request that is outstanding already is held as it was, whatever ENV does at its turn. -/
theorem hold_takeTurn {ph : Phase} {r : BusRequest} {s : State} (hp : s.phase = ph) (hr : s.bus = some r) :
    hold ph r (takeTurn s).2 = (takeTurn s).2 := by
  rw [takeTurn_frame, ← hp, hold, ← hr]

theorem readByte_unanswered {a : Byte} {s : State} (h : Unanswered s) (hp : s.phase = .rdPend)
    (hr : s.bus = some (.read a)) : readByte a s = .waiting (takeTurn s).2 := by
  rw [← hold_takeTurn hp hr]
  unfold readByte
  rcases h with h | h <;> rw [takeTurn_hold, h]

theorem writeByte_unanswered {ph : Phase} {a v : Byte} {s : State} (h : Unanswered s) (hp : s.phase = ph)
    (hr : s.bus = some (.write a v)) : writeByte ph a v s = .waiting (takeTurn s).2 := by
  rw [← hold_takeTurn hp hr]
  unfold writeByte
  rcases h with h | h <;> rw [takeTurn_hold, h]

/-- The write in progress is counted already. -/
theorem countPush_of_idx {n : Fin 14} {s : State} (h : s.idx = some n) : countPush n.val s = s := by
  have hn : Fin.ofNat 14 n.val = n := by simp
  rw [countPush, hn, ← h]

/-- A command in progress, at any of its transactions, stands where it stood if the transport does not complete it: nothing has
happened but ENV's turn. -/
theorem InProgress.exec_unanswered {i : Instr} {m : BankMode} {s : State} (h : InProgress i m s) (hu : Unanswered s) :
    exec i s = .next (takeTurn s).2 := by
  cases hp : s.phase with
  | idle => exact absurd hp h.pending
  | rdPend =>
    obtain ⟨-, a, hr, hb⟩ := h.atRead hp
    have hread := readByte_unanswered hu hp hb
    rw [h.exec_eq_scriptOf (by simp [hp])]
    cases hw : writeAddress s.config m i with
    | none => rw [scriptOf_atRead hp hr hw, lastRead, hread]
    | some b => rw [scriptOf_atReadHalf hp hr hw, rmwReadHalf, hread]
  | wrPend =>
    obtain ⟨-, a, x, hw, hx, hb⟩ := h.atWrite hp
    rw [h.exec_atWrite hp hw hx, lastWrite, writeByte_unanswered hu hp hb]
  | cfgPend =>
    obtain ⟨-, cfgA, cfgB, n, w, rfl, hn, hget, hb⟩ := h.atPush hp
    obtain ⟨hlt, rfl⟩ := List.getElem?_eq_some_iff.mp hget
    rw [h.exec_eq_pushScript hn, List.drop_eq_getElem_cons hlt, pushScript, countPush_of_idx hn,
      writeByte_unanswered hu hp hb]

/-- The block's move at such an attempt. -/
theorem Inv.step_unanswered {s u : State} (h : Inv s) (hp : s.phase ≠ .idle) (hu : BlockMoves s u) (ha : Unanswered u) :
    step s = .next (takeTurn u).2 := by
  obtain ⟨-, -, i, m, hc, hm, hpos⟩ := h.in_progress hp
  have hpend : InProgress i m u := by
    rw [hu.eq]
    exact ⟨hp, hc, hm, hpos⟩
  rw [step_inProgress hp hc hu, hpend.exec_unanswered ha]

/-! ### A first transaction that is late -/

/-- The state in which ENV has made its changes and gone on to its next turn, and the move of the block has been taken. -/
def afterTurn (pk : List (Byte × Byte)) (rest : List BusTurn) (more : List Input) (s : State) : State :=
  { s with inputs := more, memory := pokeAll pk s.memory, turns := rest }

/-- A command whose first transaction is late waits, and the next move of the block, of the grain of commands, goes on as the
command would have gone had ENV made its changes before. -/
def OnlyDelayed (i : Instr) (pk : List (Byte × Byte)) (rest : List BusTurn) (more : List Input) (s : State) : Prop :=
  ∃ t, exec i s = .next t ∧ t.phase ≠ .idle ∧ t.rsp = none ∧ t.history = s.history ∧
    step t = exec i (afterTurn pk rest more s)

section Delayed
variable {i : Instr} {m : BankMode} {pk : List (Byte × Byte)} {rest : List BusTurn} {more : List Input} {s p : State}

/-- Let `p` be the state after the acceptance of the command with its first request issued, and let the command, run from there or
from before, do the same, now and after ENV's turn. Then it is only delayed. -/
theorem InProgress.onlyDelayed (hp : InProgress i m p) (hs : exec i p = exec i s) (hr : p.rsp = none)
    (hh : p.history = s.history) (hg : p.grain = .command) (ht : p.turns = ⟨pk, .late⟩ :: rest)
    (hi : p.inputs = .seq .command :: more)
    (hlater : exec i (afterTurn pk rest more p) = exec i (afterTurn pk rest more s)) : OnlyDelayed i pk rest more s := by
  obtain ⟨ha, he⟩ := unanswered_late ht
  refine ⟨(takeTurn p).2, by rw [← hs, hp.exec_unanswered ha], ?_⟩
  rw [he]
  have hmove : BlockMoves { p with memory := pokeAll pk p.memory, turns := rest } (afterTurn pk rest more p) :=
    .inr (.inl ⟨.command, more, hi, by rw [giveMove, afterTurn, ← hg]⟩)
  have hstep := step_inProgress (i := i) (by exact hp.pending) (by exact hp.cmd) hmove
  exact ⟨hp.pending, hr, hh, hstep.trans hlater⟩

theorem ReadyIn.onlyDelayed (h : ReadyIn m s) (hg : s.grain = .command)
    (htr : (readAddress s.config m i).isSome = true ∨ (writeAddress s.config m i).isSome = true)
    (ht : s.turns = ⟨pk, .late⟩ :: rest) (hi : s.inputs = .seq .command :: more) : OnlyDelayed i pk rest more s := by
  have h' : ReadyIn m (afterTurn pk rest more s) := h
  cases hr : readAddress s.config m i with
  | some a =>
    obtain ⟨hp, hs⟩ := accepted_read h hr
    exact hp.onlyDelayed (hs hg) rfl rfl hg ht hi ((accepted_read h' hr).2 hg)
  | none =>
    obtain ⟨a, hw⟩ : ∃ a, writeAddress s.config m i = some a := by simpa [hr, Option.isSome_iff_exists] using htr
    obtain ⟨hp, hs⟩ := accepted_write h hr hw
    exact hp.onlyDelayed (hs hg) rfl rfl hg ht hi ((accepted_write h' hr hw).2 hg)

theorem Fresh.onlyDelayed {cfgA cfgB : PortConfig} (h : Fresh s) (hg : s.grain = .command)
    (hb : s.config.bankMismatchCheck = true → bankBitsDiffer s.config cfgA cfgB = false)
    (ht : s.turns = ⟨pk, .late⟩ :: rest) (hi : s.inputs = .seq .command :: more) :
    OnlyDelayed (.construct cfgA cfgB) pk rest more s := by
  have h' : Fresh (afterTurn pk rest more s) := h
  have hlen := pushWrites_length s.config (derivedMode s.config cfgA cfgB) cfgA cfgB
  obtain ⟨w, hw⟩ : ∃ w, (pushWrites s.config (derivedMode s.config cfgA cfgB) cfgA cfgB)[0]? = some w :=
    ⟨_, List.getElem?_eq_getElem (by omega)⟩
  obtain ⟨hp, hs⟩ := constructAccepted_push h hb hw
  exact hp.onlyDelayed (hs hg) rfl rfl hg ht hi ((constructAccepted_push h' hb hw).2 hg)

end Delayed

end Sys2Proof.Machine

namespace Sys2Proof.Proofs

open Sys2Proof Sys2Proof.Machine

/-- Settles O48: a late attempt leaves a command in progress where it stood, and an accepted command is in progress at its first
transaction, from where it goes on as in one piece. -/
theorem lateCompletionOnlyDelays : Obligations.LateCompletionOnlyDelays := by
  unfold Obligations.LateCompletionOnlyDelays
  refine ⟨fun pk rest s u h hp hu ht => ?_, fun i pk rest more s ht hi hg hadm => ?_⟩
  · obtain ⟨ha, he⟩ := unanswered_late (s := u) (pk := pk) (rest := rest) (by rw [hu.eq]; exact ht)
    have hm : u.memory = s.memory := by rw [hu.eq]
    rw [h.step_unanswered hp hu ha, he, hm]
  · rcases hadm with ⟨m, h, htr⟩ | ⟨h, cfgA, cfgB, rfl, hb⟩
    · exact h.onlyDelayed hg htr ht hi
    · exact h.onlyDelayed hg hb ht hi

/-- Settles O50: at an attempt that hangs ENV's turn changes nothing and stays, so a move of the block is only taken from the
inputs. -/
theorem hungTransportLeavesTheBlockStuck : Obligations.HungTransportLeavesTheBlockStuck := by
  unfold Obligations.HungTransportLeavesTheBlockStuck
  rintro s u h ⟨hp, rest, ht⟩ hu
  have htu : u.turns = ⟨[], .never⟩ :: rest := by rw [hu.eq]; exact ht
  obtain ⟨ha, he⟩ := unanswered_hung htu
  refine ⟨by rw [h.step_unanswered hp hu ha, he], ?_, rest, htu⟩
  rw [hu.eq]
  exact hp

end Sys2Proof.Proofs
end

section
/-! PROOF. The configuration block of CONSTRUCT: the byte of each kind at its bits, and a block as its two snapshots (R54). -/

namespace Sys2Proof

/-- The bit at which the byte of a kind stands in its half of the block, `8k` for kind code `k` (R54). -/
def CfgKind.bit (k : CfgKind) : Nat := 8 * (Machine.configKind k).code.toNat

theorem CfgKind.bit_le (k : CfgKind) : k.bit ≤ 48 := by cases k <;> decide

theorem PortConfig.configByte_unpack (v : BitVec 56) (k : CfgKind) :
    Machine.configByte (unpack v) k = v.extractLsb' k.bit 8 := by
  cases k <;> rfl

theorem PortConfig.extractLsb'_pack (c : PortConfig) (k : CfgKind) : c.pack.extractLsb' k.bit 8 = Machine.configByte c k := by
  rw [← configByte_unpack, unpack_pack]

/-- Two halves of a block with the same seven bytes are the same. -/
theorem PortConfig.unpack_injective : Function.Injective unpack := by
  intro v w h
  refine BitVec.eq_of_getLsbD_eq fun i hi => ?_
  obtain ⟨k, hk⟩ : ∃ k : CfgKind, k.bit = 8 * (i / 8) := by
    have hb : i / 8 < 7 := by omega
    generalize i / 8 = b at hb
    interval_cases b
    exacts [⟨.direction, rfl⟩, ⟨.polarity, rfl⟩, ⟨.interruptEnable, rfl⟩, ⟨.defaultCompare, rfl⟩, ⟨.interruptControl, rfl⟩,
      ⟨.peripheralConfig, rfl⟩, ⟨.pullUp, rfl⟩]
  have hbyte : v.extractLsb' k.bit 8 = w.extractLsb' k.bit 8 := by rw [← configByte_unpack, h, configByte_unpack]
  have hbit := congrArg (fun x => BitVec.getLsbD x (i % 8)) hbyte
  simpa [Nat.mod_lt, hk, Nat.div_add_mod] using hbit

theorem PortConfig.pack_unpack (v : BitVec 56) : (unpack v).pack = v :=
  unpack_injective (unpack_pack _)

/-- Bits within a half of the configuration block are bits of the block. -/
theorem ConfigBlock.extractLsb'_half (b : ConfigBlock) {base start len : Nat} (h : start + len ≤ 56) :
    (b.extractLsb' base 56).extractLsb' start len = b.extractLsb' (base + start) len := by
  ext i hi
  have hb : start + i < 56 := by omega
  simp [hb, Nat.add_assoc]

theorem ConfigBlock.eq_of_halves {x y : ConfigBlock} (hl : x.extractLsb' 0 56 = y.extractLsb' 0 56)
    (hh : x.extractLsb' 56 56 = y.extractLsb' 56 56) : x = y := by
  refine BitVec.eq_of_getLsbD_eq fun i hi => ?_
  by_cases h : i < 56
  · simpa [h] using congrArg (fun v => BitVec.getLsbD v i) hl
  · have hs : i - 56 < 56 := by omega
    have hi : 56 + (i - 56) = i := by omega
    simpa [hs, hi] using congrArg (fun v => BitVec.getLsbD v (i - 56)) hh

theorem ConfigBlock.portA_byte (a b : PortConfig) (k : CfgKind) :
    (ofConfigs a b).extractLsb' k.bit 8 = Machine.configByte a k := by
  have hk := k.bit_le
  rw [← a.extractLsb'_pack, ← low_ofConfigs a b, extractLsb'_half _ (by omega), Nat.zero_add]

theorem ConfigBlock.portB_byte (a b : PortConfig) (k : CfgKind) :
    (ofConfigs a b).extractLsb' (56 + k.bit) 8 = Machine.configByte b k := by
  have hk := k.bit_le
  rw [← b.extractLsb'_pack, ← high_ofConfigs a b, extractLsb'_half _ (by omega)]

/-- A block is made of the two snapshots it unpacks to. -/
theorem ConfigBlock.ofConfigs_ports (b : ConfigBlock) : ofConfigs (portA b) (portB b) = b :=
  eq_of_halves (by rw [low_ofConfigs, portA, PortConfig.pack_unpack]) (by rw [high_ofConfigs, portB, PortConfig.pack_unpack])

end Sys2Proof

namespace Sys2Proof.Proofs

open Sys2Proof

/-- Settles O9: the bytes of the packed halves, and the halves of the block unpacked. -/
theorem configurationBlockPacksBothSnapshots : Obligations.ConfigurationBlockPacksBothSnapshots := by
  unfold Obligations.ConfigurationBlockPacksBothSnapshots
  exact fun a b => ⟨fun k => ⟨ConfigBlock.portA_byte a b k, ConfigBlock.portB_byte a b k⟩,
    ConfigBlock.portA_ofConfigs a b, ConfigBlock.portB_ofConfigs a b⟩

end Sys2Proof.Proofs
end

section
/-! PROOF. What each format of a command word decodes to, the word of a decoded command, and which words are commands (R51 to R53,
R56, R57). -/

namespace Sys2Proof

/-! ### Codes (R51) -/

@[simp] theorem Port.code_ofCode (c : BitVec 1) : (Port.ofCode c).code = c := by
  revert c; decide

theorem portCode_eq_one {c : BitVec 1} : c = 1 ↔ c ≠ 0 := by
  revert c; decide

theorem RegKind.ofCode_eq_some {n : Nat} {k : RegKind} : RegKind.ofCode n = some k ↔ n = k.code.toNat := by
  refine ⟨fun h => ?_, fun h => h ▸ ofCode_code k⟩
  unfold RegKind.ofCode at h
  split at h <;> cases h <;> rfl

theorem RegKind.code_le (k : RegKind) : k.code.toNat ≤ 10 := by cases k <;> decide

theorem RegKind.exists_code {n : Nat} (h : n ≤ 10) : ∃ k : RegKind, n = k.code.toNat := by
  obtain ⟨k, hk⟩ : ∃ k, RegKind.ofCode n = some k := by interval_cases n <;> exact ⟨_, rfl⟩
  exact ⟨k, ofCode_eq_some.mp hk⟩

theorem PinState.code_ofBit {data : Byte} (h : data &&& 0xFE = 0) : (PinState.ofBit (data.getLsbD 0)).code = data := by
  revert data; decide

/-! ### The formats (R52) -/

/-- A check before a result: it answers the result exactly when the check passes. -/
theorem ite_error_eq_ok {P : Prop} [Decidable P] {x : Except Reserved Instr} {why : Reserved} {i : Instr} :
    (if P then x else .error why) = .ok i ↔ P ∧ x = .ok i := by
  by_cases h : P <;> simp [h]

section Formats
variable {p : Port} {port : BitVec 1} {sel data : Byte} {i j : Instr}

theorem decodeGet_eq_ok :
    decodeGet p sel data = .ok i ↔ ∃ k : RegKind, sel.toNat = k.code.toNat ∧ data = 0 ∧ .get p k = i := by
  simp only [decodeGet, ← RegKind.ofCode_eq_some]
  cases RegKind.ofCode sel.toNat <;> simp [ite_error_eq_ok]

theorem decodeSet_eq_ok :
    decodeSet p sel data = .ok i ↔ ∃ k : RegKind, sel.toNat = k.code.toNat ∧ Instr.set p data k = some i := by
  simp only [decodeSet, ← RegKind.ofCode_eq_some, ← Option.bind_eq_some_iff]
  cases (RegKind.ofCode sel.toNat).bind (Instr.set p data) <;> simp

theorem decodePin_eq_ok {f : Byte → Instr} : decodePin f sel data = .ok i ↔ data = 0 ∧ f sel = i := by
  rw [decodePin, ite_error_eq_ok, Except.ok.injEq]

theorem decodePinState_eq_ok : decodePinState p sel data = .ok i ↔
    data &&& 0xFE = 0 ∧ .setPinState p sel (PinState.ofBit (data.getLsbD 0)) = i := by
  rw [decodePinState, ite_error_eq_ok, Except.ok.injEq]

theorem decodePort_eq_ok : decodePort j sel data = .ok i ↔ sel = 0 ∧ data = 0 ∧ j = i := by
  rw [decodePort, ite_error_eq_ok, ite_error_eq_ok, Except.ok.injEq]

theorem decodePlain_eq_ok : decodePlain j port sel data = .ok i ↔ port = 0 ∧ sel = 0 ∧ data = 0 ∧ j = i := by
  rw [decodePlain, ite_error_eq_ok, decodePort_eq_ok]

theorem encode_get (p : Port) (k : RegKind) : encode (.get p k) = .plain 0x1 p.code (k.code.setWidth 8) 0x00 := by
  cases k <;> rfl

theorem encode_set {v : Byte} {k : RegKind} (h : Instr.set p v k = some i) :
    encode i = .plain 0x2 p.code (k.code.setWidth 8) v := by
  cases k <;> cases h <;> rfl

/-- Three kinds have no `set` (R57). -/
theorem exists_set {v : Byte} {k : RegKind} : (∃ i, Instr.set p v k = some i) ↔
    (k.code.setWidth 8 : Byte) ≠ 7 ∧ (k.code.setWidth 8 : Byte) ≠ 8 ∧ (k.code.setWidth 8 : Byte) ≠ 9 := by
  cases k <;> simp [Instr.set, RegKind.code]

/-- `sel` is the kind code (R51). -/
theorem RegKind.sel_eq {k : RegKind} (h : sel.toNat = k.code.toNat) : k.code.setWidth 8 = sel :=
  BitVec.eq_of_toNat_eq (by have := k.code_le; simp [h]; omega)

end Formats

/-! ### The word of a decoded command (R53) -/

@[simp] theorem Command.plain_word (op : BitVec 4) (port : BitVec 1) (sel data : Byte) :
    (plain op port sel data).word = .ofFields op port sel data := rfl

/-- A word whose reserved bits are 0, with its `op` read off. -/
theorem CommandWord.eq_ofFields {w : CommandWord} {n : Nat} (hr : CommandWord.rsv w = 0)
    (hop : (CommandWord.op w).toNat = n) :
    w = .ofFields (BitVec.ofNat 4 n) (CommandWord.port w) (CommandWord.sel w) (CommandWord.data w) := by
  rw [← hop, BitVec.ofNat_toNat, BitVec.setWidth_eq, CommandWord.ofFields_fields _ hr]

/-- A decoded command has the word it was decoded from, in every format. -/
theorem encode_word_of_decode {c : Command} {i : Instr} (h : decode c = .ok i) : (encode i).word = c.word := by
  unfold decode at h
  rw [ite_error_eq_ok] at h
  obtain ⟨hr, h⟩ := h
  have hw {n : Nat} := CommandWord.eq_ofFields (n := n) hr
  generalize (CommandWord.op c.word).toNat = n at h hw
  rw [hw rfl]
  split at h
  case h_1 =>
    obtain ⟨k, hk, hd, rfl⟩ := decodeGet_eq_ok.mp h
    simp [encode_get, RegKind.sel_eq hk, hd]
  case h_2 =>
    obtain ⟨k, hk, hi⟩ := decodeSet_eq_ok.mp h
    simp [encode_set hi, RegKind.sel_eq hk]
  case h_4 =>
    obtain ⟨hd, rfl⟩ := decodePinState_eq_ok.mp h
    simp [encode, -BitVec.getLsbD_eq_getElem, PinState.code_ofBit hd]
  case h_3 | h_5 | h_6 | h_7 =>
    obtain ⟨hd, rfl⟩ := decodePin_eq_ok.mp h
    simp [encode, hd]
  case h_8 | h_9 | h_10 =>
    obtain ⟨hs, hd, rfl⟩ := decodePort_eq_ok.mp h
    simp [encode, hs, hd]
  case h_11 | h_12 =>
    obtain ⟨hp, hs, hd, rfl⟩ := decodePlain_eq_ok.mp h
    simp [encode, hp, hs, hd]
  case h_13 => cases h

/-! ### Which words are commands (R52, R56) -/

/-- What the format of its `op` asks of the other fields of a word (R52, R56, R57). -/
def CommandWord.FitsFormat (w : CommandWord) : Prop :=
  match (CommandWord.op w).toNat with
  | 0x1 => (CommandWord.sel w).toNat ≤ 10 ∧ CommandWord.data w = 0
  | 0x2 => (CommandWord.sel w).toNat ≤ 10 ∧ CommandWord.sel w ≠ 7 ∧ CommandWord.sel w ≠ 8 ∧ CommandWord.sel w ≠ 9
  | 0x3 | 0x5 | 0x6 | 0x7 => CommandWord.data w = 0
  | 0x4 => CommandWord.data w &&& 0xFE = 0
  | 0x8 | 0x9 | 0xA => CommandWord.sel w = 0 ∧ CommandWord.data w = 0
  | 0xB | 0xC => CommandWord.port w = 0 ∧ CommandWord.sel w = 0 ∧ CommandWord.data w = 0
  | _ => False

theorem decodeGet_isOk {p : Port} {sel data : Byte} :
    (∃ i, decodeGet p sel data = .ok i) ↔ sel.toNat ≤ 10 ∧ data = 0 := by
  simp only [decodeGet_eq_ok]
  constructor
  · rintro ⟨i, k, hk, hd, -⟩
    exact ⟨hk ▸ k.code_le, hd⟩
  · rintro ⟨hs, hd⟩
    obtain ⟨k, hk⟩ := RegKind.exists_code hs
    exact ⟨_, k, hk, hd, rfl⟩

theorem decodeSet_isOk {p : Port} {sel data : Byte} :
    (∃ i, decodeSet p sel data = .ok i) ↔ sel.toNat ≤ 10 ∧ sel ≠ 7 ∧ sel ≠ 8 ∧ sel ≠ 9 := by
  simp only [decodeSet_eq_ok]
  constructor
  · rintro ⟨i, k, hk, hi⟩
    exact ⟨hk ▸ k.code_le, RegKind.sel_eq hk ▸ exists_set.mp ⟨i, hi⟩⟩
  · rintro ⟨hs, hset⟩
    obtain ⟨k, hk⟩ := RegKind.exists_code hs
    rw [← RegKind.sel_eq hk] at hset
    obtain ⟨i, hi⟩ := exists_set.mpr hset
    exact ⟨i, k, hk, hi⟩

/-- A word is a command exactly when its reserved bits are 0 and it fits the format of its `op`. -/
theorem decode_isOk (c : Command) :
    (∃ i, decode c = .ok i) ↔ CommandWord.rsv c.word = 0 ∧ CommandWord.FitsFormat c.word := by
  unfold decode CommandWord.FitsFormat
  simp only [ite_error_eq_ok, exists_and_left]
  refine and_congr_right fun _ => ?_
  generalize (CommandWord.op c.word).toNat = n
  split
  case h_1 => exact decodeGet_isOk
  case h_2 => exact decodeSet_isOk
  case h_4 => simp [decodePinState_eq_ok]
  case h_3 | h_5 | h_6 | h_7 => simp [decodePin_eq_ok]
  case h_8 | h_9 | h_10 => simp [decodePort_eq_ok]
  case h_11 | h_12 => simp [decodePlain_eq_ok]
  case h_13 => simp

theorem decode_isError (c : Command) : (∃ why, decode c = .error why) ↔ ¬ ∃ i, decode c = .ok i := by
  cases decode c <;> simp

end Sys2Proof

namespace Sys2Proof.Proofs

open Sys2Proof Sys2Proof.Machine

/-- Settles O10, by the case of each command. -/
theorem decodeOfEncodeIsTheCommand : Obligations.DecodeOfEncodeIsTheCommand := by
  unfold Obligations.DecodeOfEncodeIsTheCommand
  exact decode_encode

/-- Settles O11: the word by its format; CONSTRUCT has one word, which is decoded with the snapshots of its block. -/
theorem encodeOfDecodeIsTheWord : Obligations.EncodeOfDecodeIsTheWord := by
  unfold Obligations.EncodeOfDecodeIsTheWord
  intro c i h
  have hw := encode_word_of_decode h
  refine ⟨hw, ?_⟩
  rintro a b rfl
  obtain ⟨w, blk⟩ := c
  obtain rfl : _ = w := hw
  obtain ⟨rfl, rfl⟩ : blk.portA = a ∧ blk.portB = b := by
    simpa [decode, encode, decodePlain, decodePort] using h
  exact ConfigBlock.ofConfigs_ports blk

/-- Settles O13: a word is reserved if it fits no format, `op` by `op`; in IDLE the block's move is the refusal. -/
theorem reservedWordsAreExactlyTheListedOnes : Obligations.ReservedWordsAreExactlyTheListedOnes := by
  unfold Obligations.ReservedWordsAreExactlyTheListedOnes
  refine ⟨fun c => ?_, fun s u c why hu hp hd hq hc => ?_⟩
  · rw [decode_isError, decode_isOk]
    simp only [CommandWord.FitsFormat, CommandWord.op, CommandWord.port, CommandWord.rsv, CommandWord.sel, CommandWord.data,
      portCode_eq_one]
    have hop := (c.word.extractLsb' 20 4).isLt
    generalize (c.word.extractLsb' 20 4).toNat = op at hop
    interval_cases op <;> simp [imp_iff_not_or] <;> tauto
  · rcases step_idle hu hp hd with ⟨hq', -⟩ | ⟨c', why', hq', hc', hs⟩ | ⟨c', i, hq', hc', -⟩
    · simp [hq] at hq'
    · obtain rfl : c = c' := by simpa [hq] using hq'
      obtain rfl : why = why' := by simpa [hc] using hc'
      exact hs
    · obtain rfl : c = c' := by simpa [hq] using hq'
      simp [hc] at hc'

/-- Settles O14: the eight words, decoded. -/
theorem sampleWordsDecode : Obligations.SampleWordsDecode := by
  unfold Obligations.SampleWordsDecode
  decide

end Sys2Proof.Proofs
end

section
/-! PROOF. The opcode map: its rows are disjoint, and select exactly the words of the commands (R53, R62). -/

namespace Sys2Proof

/-- A word that selects a row has the row's fields under the fields of its mask. -/
theorem Pattern.selects_fields {r : Pattern} {w : CommandWord} (h : r.selects w) :
    CommandWord.op w &&& CommandWord.op r.mask = CommandWord.op r.bits ∧
    CommandWord.port w &&& CommandWord.port r.mask = CommandWord.port r.bits ∧
    CommandWord.rsv w &&& CommandWord.rsv r.mask = CommandWord.rsv r.bits ∧
    CommandWord.sel w &&& CommandWord.sel r.mask = CommandWord.sel r.bits ∧
    CommandWord.data w &&& CommandWord.data r.mask = CommandWord.data r.bits := by
  simp only [← show w &&& r.mask = r.bits from h, CommandWord.op, CommandWord.port, CommandWord.rsv, CommandWord.sel,
    CommandWord.data, BitVec.extractLsb'_and, and_self]

/-- Rows that differ in a bit both their masks keep have no word in common. -/
theorem Pattern.disjoint {r q : Pattern} (h : r.bits &&& q.mask ≠ q.bits &&& r.mask) (w : CommandWord) :
    ¬ (r.selects w ∧ q.selects w) := by
  rintro ⟨hr, hq⟩
  refine h ?_
  rw [← show w &&& r.mask = r.bits from hr, ← show w &&& q.mask = q.bits from hq]
  ac_rfl

/-- Any two rows differ in a bit both their masks keep. -/
theorem opcodeMap_pairwise : opcodeMap.Pairwise fun r q => r.bits &&& q.mask ≠ q.bits &&& r.mask := by
  decide

/-- A word that selects one of the 29 rows is a command: what the row's mask keeps is what its format asks. -/
theorem fits_of_selects {r : Pattern} (hr : r ∈ opcodeMap) {w : CommandWord} (h : r.selects w) :
    CommandWord.rsv w = 0 ∧ CommandWord.FitsFormat w := by
  have h1 : ∀ x : BitVec 1, x &&& 1#1 = x := by decide
  have h3 : ∀ x : BitVec 3, x &&& 7#3 = x := by decide
  have h4 : ∀ x : BitVec 4, x &&& 15#4 = x := by decide
  have h8 : ∀ x : Byte, x &&& 255#8 = x := by decide
  obtain ⟨ho, hp, hv, hs, hd⟩ := r.selects_fields h
  clear h
  simp only [CommandWord.FitsFormat, CommandWord.op, CommandWord.port, CommandWord.rsv, CommandWord.sel, CommandWord.data]
    at ho hp hv hs hd ⊢
  fin_cases hr
  all_goals
    simp [h1, h3, h4, h8] at ho hp hv hs hd
    simp [*, -BitVec.extractLsb'_toNat]

/-- The word of a command selects the command's own row. -/
theorem pattern_selects_encode (i : Instr) : i.pattern.selects (encode i).word :=
  match i with
  | .getDirection p => Laws.OpcodeRow.getDirection p
  | .getPolarity p => Laws.OpcodeRow.getPolarity p
  | .getInterruptEnable p => Laws.OpcodeRow.getInterruptEnable p
  | .getDefaultCompare p => Laws.OpcodeRow.getDefaultCompare p
  | .getInterruptControl p => Laws.OpcodeRow.getInterruptControl p
  | .getPeripheralConfig p => Laws.OpcodeRow.getPeripheralConfig p
  | .getPullUp p => Laws.OpcodeRow.getPullUp p
  | .getInterruptFlag p => Laws.OpcodeRow.getInterruptFlag p
  | .getInterruptCapture p => Laws.OpcodeRow.getInterruptCapture p
  | .getCurrentValue p => Laws.OpcodeRow.getCurrentValue p
  | .getOutputLatch p => Laws.OpcodeRow.getOutputLatch p
  | .setDirection p v => Laws.OpcodeRow.setDirection p v
  | .setPolarity p v => Laws.OpcodeRow.setPolarity p v
  | .setInterruptEnable p v => Laws.OpcodeRow.setInterruptEnable p v
  | .setDefaultCompare p v => Laws.OpcodeRow.setDefaultCompare p v
  | .setInterruptControl p v => Laws.OpcodeRow.setInterruptControl p v
  | .setPeripheralConfig p v => Laws.OpcodeRow.setPeripheralConfig p v
  | .setPullUp p v => Laws.OpcodeRow.setPullUp p v
  | .setOutputLatch p v => Laws.OpcodeRow.setOutputLatch p v
  | .getPinState p v => Laws.OpcodeRow.getPinState p v
  | .setPinState p v s => Laws.OpcodeRow.setPinState p v s
  | .setPin p v => Laws.OpcodeRow.setPin p v
  | .resetPin p v => Laws.OpcodeRow.resetPin p v
  | .togglePin p v => Laws.OpcodeRow.togglePin p v
  | .setPins p => Laws.OpcodeRow.setPins p
  | .resetPins p => Laws.OpcodeRow.resetPins p
  | .togglePins p => Laws.OpcodeRow.togglePins p
  | .construct p v => Laws.OpcodeRow.construct p v
  | .destruct => Laws.OpcodeRow.destruct

theorem pattern_mem_opcodeMap (i : Instr) : i.pattern ∈ opcodeMap := by
  cases i <;> simp [Instr.pattern, opcodeMap]

theorem pattern_selects_of_decode {c : Command} {i : Instr} (h : decode c = .ok i) : i.pattern.selects c.word :=
  encode_word_of_decode h ▸ pattern_selects_encode i

end Sys2Proof

namespace Sys2Proof.Proofs

open Sys2Proof

/-- Settles O12: the rows differ where their masks meet; a command selects its own row, and a row selects words of its format
only. -/
theorem decoderAgreesWithTheOpcodeMap : Obligations.DecoderAgreesWithTheOpcodeMap := by
  unfold Obligations.DecoderAgreesWithTheOpcodeMap
  refine ⟨rfl, opcodeMap_pairwise.imp Pattern.disjoint, fun c => ⟨?_, ?_⟩, pattern_mem_opcodeMap,
    fun _ _ => pattern_selects_of_decode⟩
  · rintro ⟨i, h⟩
    exact ⟨_, pattern_mem_opcodeMap i, pattern_selects_of_decode h⟩
  · rintro ⟨r, hr, h⟩
    exact (decode_isOk c).mpr (fits_of_selects hr h)

end Sys2Proof.Proofs
end

section
/-! PROOF. Which commands a block refuses, and why (R56, R86, R131, R150), and the codes of the response (R58, R141). -/

namespace Sys2Proof.Machine

/-! ### Which commands answer a next state -/

theorem pushFromStart_answers (ws : List PushWrite) (s : State) : ∃ t, pushFromStart ws s = .next t := by
  rcases pushFromStart_cases ws s with ⟨w, rest, -, -, h⟩ | ⟨-, h⟩
  · exact ⟨_, h⟩
  · obtain ⟨t, ht, -⟩ := pushScript_frame ws 0 s
    exact ⟨t, h.trans ht⟩

/-- A fresh block answers CONSTRUCT: by the check of the bank bits, or by its push (R80, R84). -/
theorem Fresh.exec_construct_answers {s : State} (h : Fresh s) (a b : PortConfig) :
    ∃ t, exec (.construct a b) s = .next t := by
  obtain ⟨hp, hd, hi⟩ := h
  have hs : exec (.construct a b) s = constructFromStart a b (accept (encode (.construct a b)) s) := by
    simp [exec, execConstruct, constructAdmission, hp, hd, hi]
  rw [hs, constructFromStart]
  split
  · exact ⟨_, rfl⟩
  · exact pushFromStart_answers _ _

/-- A command in progress goes on. -/
theorem InProgress.exec_answers {i : Instr} {m : BankMode} {s : State} (h : InProgress i m s) : ∃ t, exec i s = .next t := by
  rcases h.lifecycle with ⟨-, a, b, rfl⟩ | ⟨-, hw, hc, hd⟩
  · rw [exec_construct_goesOn h.pending h.cmd h.bankMode]
    obtain ⟨t, ht, -⟩ := pushScript_frame ((pushWrites s.config m a b).drop (idxOf s).val) (idxOf s).val (noteIdx s)
    exact ⟨t, ht⟩
  · have ht := transaction_of_wellFormed hc hd hw s.config m
    rw [exec_pending_of_transaction h.pending h.cmd h.bankMode ht]
    exact scriptOf_answers ht

/-- A ready block refuses CONSTRUCT (R86). -/
theorem ReadyIn.exec_construct {m : BankMode} {s : State} (h : ReadyIn m s) (a b : PortConfig) :
    exec (.construct a b) s = .refused .alreadyInitialized := by
  obtain ⟨hp, hd, hi, -⟩ := h
  simp [exec, execConstruct, constructAdmission, hp, hd, hi]

/-- A ready block answers every well-formed command but CONSTRUCT. -/
theorem ReadyIn.exec_answers {i : Instr} {m : BankMode} {s : State} (h : ReadyIn m s) (hc : ∀ a b, i ≠ .construct a b)
    (hw : i.wellFormed = true) : ∃ t, exec i s = .next t := by
  by_cases hd : i = .destruct
  · subst hd
    exact ⟨_, exec_destruct_ready h⟩
  · rw [exec_ready h hc hd hw]
    exact scriptOf_answers (transaction_of_wellFormed hc hd hw _ _)

/-- A ready block refuses a pin index above 7 with `PIN_CHECK` off (R131). -/
theorem ReadyIn.exec_illFormed_refused {i : Instr} {m : BankMode} {s : State} {r : Refusal} (h : ReadyIn m s)
    (hw : i.wellFormed = false) (hx : exec i s = .refused r) : r = .pinIndexOutOfRange ∧ s.config.pinCheck = false := by
  obtain ⟨hp, hd, hi, -⟩ := h
  have hs : exec i s = badPinIndex (accept (encode i) s) := by
    simp [exec_illFormed hw, illFormedEnd, admission_idle hp hd, hi, present_idle hp]
  rw [hs, badPinIndex, accept_config] at hx
  split at hx
  next => cases hx
  next hc =>
    cases hx
    exact ⟨rfl, by simpa using hc⟩

/-- Why a decoded command may be refused: the lifecycle or its pin index (R86, R131). -/
def RefusedFor (i : Instr) (s : State) (r : Refusal) : Prop :=
  (r = .notInitialized ∧ s.initialized = false ∧ ∀ a b, i ≠ .construct a b) ∨
  (r = .alreadyInitialized ∧ s.initialized = true ∧ ∃ a b, i = .construct a b) ∨
  (r = .pinIndexOutOfRange ∧ s.initialized = true ∧ i.wellFormed = false ∧ s.config.pinCheck = false)

/-- A command the step runs is refused only on its acceptance. -/
theorem Runs.refused {i : Instr} {s : State} {r : Refusal} (h : Runs i s) (hx : exec i s = .refused r) :
    RefusedFor i s r := by
  have answered : ¬ ∃ t, exec i s = .next t := by simp [hx]
  have hp : s.phase = .idle := by
    by_contra hp
    obtain ⟨m, hm⟩ := h.inProgress hp
    exact answered hm.exec_answers
  have hd := h.due
  cases hi : s.initialized with
  | false =>
    by_cases hc : ∃ a b, i = .construct a b
    · obtain ⟨a, b, rfl⟩ := hc
      exact absurd (Fresh.exec_construct_answers ⟨hp, hd, hi⟩ a b) answered
    · have hc : ∀ a b, i ≠ .construct a b := fun a b he => hc ⟨a, b, he⟩
      rw [exec_uninitialized hp hd hi hc] at hx
      cases hx
      exact .inl ⟨rfl, hi, hc⟩
  | true =>
    obtain ⟨m, hm⟩ := Option.isSome_iff_exists.mp (h.inv.mode_held hi)
    have hr : ReadyIn m s := ⟨hp, hd, hi, hm⟩
    by_cases hc : ∃ a b, i = .construct a b
    · obtain ⟨a, b, rfl⟩ := hc
      rw [hr.exec_construct] at hx
      cases hx
      exact .inr (.inl ⟨rfl, hi, a, b, rfl⟩)
    · have hc : ∀ a b, i ≠ .construct a b := fun a b he => hc ⟨a, b, he⟩
      cases hw : i.wellFormed with
      | true => exact absurd (hr.exec_answers hc hw) answered
      | false =>
        obtain ⟨rfl, hpc⟩ := hr.exec_illFormed_refused hw hx
        exact .inr (.inr ⟨rfl, hi, hw, hpc⟩)

/-- While a command is in progress the block's move is not refused. -/
theorem Inv.step_pending_answers {s u : State} (h : Inv s) (hp : s.phase ≠ .idle) (hu : BlockMoves s u) :
    ∃ t, step s = .next t := by
  obtain ⟨-, -, i, m, hc, hm, hpos⟩ := h.in_progress hp
  have hi : InProgress i m u := by
    rw [hu.eq]
    exact ⟨hp, hc, hm, hpos⟩
  rw [step_inProgress hp hc hu]
  exact hi.exec_answers

/-- Everything a refused step can be, from the invariant (R150). -/
theorem Inv.step_refused {s : State} {r : Refusal} (h : Inv s) (hs : step s = .refused r) :
    s.phase = .idle ∧ s.due = none ∧ ∃ c, s.presented = some c ∧
      ((∃ why, decode c = .error why ∧ r = .reservedWord why) ∨ ∃ i, decode c = .ok i ∧ RefusedFor i s r) := by
  have answered : ¬ ∃ t, step s = .next t := by simp [hs]
  obtain ⟨u, hu⟩ : ∃ u, BlockMoves s u := by
    rcases next_cases s with ⟨c, rest, -, -, hn⟩ | ⟨took, rest, -, hn⟩ | ⟨a, v, rest, -, hn⟩ | hu
    · exact absurd ⟨_, hn⟩ answered
    · exact absurd ⟨_, hn⟩ answered
    · exact absurd ⟨_, hn⟩ answered
    · exact hu
  have he := hu.eq
  rcases step_blockMoves hu with ⟨-, -, hn⟩ | ⟨hp, hd, ⟨-, hn⟩ | ⟨c, why, hq, hc, hn⟩ | ⟨c, i, hq, hc, hn⟩⟩ | ⟨hp, -⟩
  · exact absurd ⟨_, hn⟩ answered
  · exact absurd ⟨_, hn⟩ answered
  · rw [hn] at hs
    cases hs
    exact ⟨hp, hd, c, hq, .inl ⟨why, hc, rfl⟩⟩
  · have hr : Runs i (takePresented u) :=
      (h.of_blockMoves hu).runs_presented (c := c) (by rw [he]; exact hp) (by rw [he]; exact hd) (by rw [he]; exact hq)
    rw [hn] at hs
    have hf := hr.refused hs
    rw [he] at hf
    exact ⟨hp, hd, c, hq, .inr ⟨i, hc, hf⟩⟩
  · exact absurd (h.step_pending_answers hp hu) answered

end Sys2Proof.Machine

namespace Sys2Proof.Proofs

open Sys2Proof Sys2Proof.Machine

/-- Settles O59: only a command presented to the block in IDLE is refused, as a reserved word or by its execution. -/
theorem onlyAPresentedCommandIsRefused : Obligations.OnlyAPresentedCommandIsRefused := by
  unfold Obligations.OnlyAPresentedCommandIsRefused
  exact fun _ _ h hs => h.step_refused hs

/-- Settles O43: the codes, and `initialized_o` in each value of the flag. -/
theorem responseCodes : Obligations.ResponseCodes := by
  unfold Obligations.ResponseCodes
  refine ⟨rfl, rfl, rfl, fun s => ?_⟩
  cases h : s.initialized <;> simp [initializedOut, h]

end Sys2Proof.Proofs
end

section
/-! PROOF. The base table and the address function by kind code, the registers that share an address, and the bits of the pin mask
(R70 to R77). -/

namespace Sys2Proof

theorem RegKind.code_toNat_inj {k l : RegKind} : k.code.toNat = l.code.toNat ↔ k = l := by
  refine ⟨fun h => Option.some.inj ?_, fun h => h ▸ rfl⟩
  rw [← RegKind.ofCode_code k, ← RegKind.ofCode_code l, h]

end Sys2Proof

namespace Sys2Proof.Machine

/-! ### The base table (R71) -/

theorem baseAddress_documented (k : RegKind) : baseAddress BaseTable.documented k = k.code.setWidth 8 := by
  cases k <;> rfl

theorem baseAddress_documented_toNat (k : RegKind) : (baseAddress BaseTable.documented k).toNat = k.code.toNat := by
  have hk := RegKind.code_le k
  rw [baseAddress_documented, BitVec.toNat_setWidth]
  omega

/-! ### The address as a sum (R72 to R74) -/

@[simp] theorem portOffset_a (c : Config) (m : BankMode) : portOffset c .a m = 0 := rfl

@[simp] theorem portOffset_b_separate (c : Config) : portOffset c .b .separate = c.offSeparate := rfl

@[simp] theorem portOffset_b_common (c : Config) : portOffset c .b .common = c.offCommon := rfl

theorem portOffset_toNat (c : Config) (p : Port) (m : BankMode) : (portOffset c p m).toNat =
    if p = .a then 0 else if m = .separate then c.offSeparate.toNat else c.offCommon.toNat := by
  cases p with
  | a => rfl
  | b => cases m <;> rfl

theorem address_toNat (c : Config) (p : Port) (k : RegKind) (m : BankMode) :
    (address c p k m).toNat = ((baseAddress c.base k).toNat + (portOffset c p m).toNat) % 256 :=
  BitVec.toNat_add _ _

theorem address_a (c : Config) (k : RegKind) (m : BankMode) : address c .a k m = baseAddress c.base k :=
  BitVec.add_zero _

theorem address_b_sub_a (c : Config) (k : RegKind) (m : BankMode) :
    address c .b k m - address c .a k m = portOffset c .b m := by
  rw [address_a, address, add_sub_cancel_left]

/-- With the documented constants the sum never wraps (R72). -/
theorem address_documented_toNat (p : Port) (k : RegKind) (m : BankMode) :
    (address Config.documented p k m).toNat = k.code.toNat + (portOffset Config.documented p m).toNat := by
  have hk := RegKind.code_le k
  have ho := portOffset_documented_le p m
  have hb : (baseAddress Config.documented.base k).toNat = k.code.toNat := baseAddress_documented_toNat k
  rw [address_toNat, hb]
  omega

/-- Equal addresses of two ports: the kind codes differ by the difference of the offsets. -/
theorem address_documented_eq_iff {p q : Port} {k l : RegKind} {m : BankMode} :
    address Config.documented p k m = address Config.documented q l m ↔
      k.code.toNat + (portOffset Config.documented p m).toNat =
        l.code.toNat + (portOffset Config.documented q m).toNat := by
  rw [← BitVec.toNat_inj, address_documented_toNat, address_documented_toNat]

theorem address_documented_inj {p : Port} {k l : RegKind} {m : BankMode} :
    address Config.documented p k m = address Config.documented p l m ↔ k = l := by
  rw [address_documented_eq_iff, Nat.add_right_cancel_iff, RegKind.code_toNat_inj]

/-- The addresses of a port in a mode are consecutive in the kind code (R74). -/
theorem address_documented_consecutive (p : Port) (k : RegKind) (m : BankMode) :
    address Config.documented p k m = address Config.documented p .direction m + k.code.setWidth 8 := by
  have hk : baseAddress Config.documented.base k = k.code.setWidth 8 := baseAddress_documented k
  have hd : baseAddress Config.documented.base .direction = 0 := rfl
  rw [address, address, hk, hd, zero_add, add_comm]

/-- The decoder block on the codes of a port, a kind and a mode (R76). -/
@[simp] theorem addressDecoder_code (c : Config) (p : Port) (k : RegKind) (m : BankMode) :
    addressDecoder c p.code k.code m.code = address c p k m := by
  simp [addressDecoder, RegKind.ofCode_code]

/-! ### Shared addresses (R75) -/

theorem not_aliased_samePort {p : Port} {k l : RegKind} {m : BankMode} : ¬ Aliased Config.documented m p p k l :=
  fun ⟨hne, h⟩ => hne ⟨rfl, address_documented_inj.mp h⟩

theorem Aliased.comm {c : Config} {m : BankMode} {p q : Port} {k l : RegKind} :
    Aliased c m p q k l ↔ Aliased c m q p l k := by
  simp only [Aliased, eq_comm]

/-- Kind `k` of port A and kind `l` of port B share an address exactly if their codes differ by the offset of the mode. -/
theorem aliased_a_b_iff {k l : RegKind} {m : BankMode} : Aliased Config.documented m .a .b k l ↔
    k.code.toNat = l.code.toNat + (portOffset Config.documented .b m).toNat := by
  simp [Aliased, address_documented_eq_iff]

theorem aliased_separate_a_b {k l : RegKind} :
    Aliased Config.documented .separate .a .b k l ↔ k = .outputLatch ∧ l = .direction := by
  have hk := RegKind.code_le k
  rw [aliased_a_b_iff, ← RegKind.code_toNat_inj, ← RegKind.code_toNat_inj]
  change k.code.toNat = l.code.toNat + 10 ↔ k.code.toNat = 10 ∧ l.code.toNat = 0
  omega

theorem aliased_common_a_b {k l : RegKind} :
    Aliased Config.documented .common .a .b k l ↔ k.code.toNat = l.code.toNat + 1 :=
  aliased_a_b_iff

/-! ### The pin mask (R70, R77) -/

theorem pinMask_eq_some {pin m : Byte} : pinMask pin = some m ↔ pin.toNat ≤ 7 ∧ BitVec.twoPow 8 pin.toNat = m := by
  rw [pinMask, Option.ite_none_right_eq_some, Option.some.injEq, BitVec.twoPow]

theorem pinMask_toNat {pin m : Byte} (h : pinMask pin = some m) : m.toNat = 2 ^ pin.toNat := by
  obtain ⟨hp, rfl⟩ := pinMask_eq_some.mp h
  rw [BitVec.toNat_twoPow, Nat.mod_eq_of_lt (Nat.pow_lt_pow_right (by decide) (Nat.lt_succ_of_le hp))]

/-- The bit of the index is the only bit set. -/
theorem pinMask_bit {pin m : Byte} (h : pinMask pin = some m) (b : Nat) : m.getLsbD b = true ↔ b = pin.toNat := by
  obtain ⟨hp, rfl⟩ := pinMask_eq_some.mp h
  simp only [BitVec.getLsbD_twoPow, Bool.and_eq_true, decide_eq_true_eq]
  omega

theorem pinMask_complement_bit {pin m : Byte} (h : pinMask pin = some m) (b : Fin 8) :
    (~~~m).getLsbD b.val = false ↔ b.val = pin.toNat := by
  rw [← pinMask_bit h]
  simp

theorem pinMask_inj {i j m : Byte} (hi : pinMask i = some m) (hj : pinMask j = some m) : i = j :=
  BitVec.eq_of_toNat_eq ((pinMask_bit hj _).mp ((pinMask_bit hi _).mpr rfl))

/-- Masks of two indices have no bit in common. -/
theorem pinMask_disjoint {i j m n : Byte} (hi : pinMask i = some m) (hj : pinMask j = some n) (h : i ≠ j) :
    m &&& n = 0 := by
  refine BitVec.eq_of_getLsbD_eq fun b _ => ?_
  suffices hb : ¬ (m.getLsbD b = true ∧ n.getLsbD b = true) by simpa using hb
  rintro ⟨hm, hn⟩
  exact h (BitVec.eq_of_toNat_eq (((pinMask_bit hi b).mp hm).symm.trans ((pinMask_bit hj b).mp hn)))

end Sys2Proof.Machine

namespace Sys2Proof.Proofs

open Sys2Proof Sys2Proof.Machine

/-- Settles O1: the base of a kind is its code, and no two kinds have the same code. -/
theorem baseTableOfElevenKinds : Obligations.BaseTableOfElevenKinds := by
  unfold Obligations.BaseTableOfElevenKinds
  refine ⟨rfl, fun k l h => RegKind.code_toNat_inj.mp ?_⟩
  rw [← baseAddress_documented_toNat, h, baseAddress_documented_toNat]

/-- Settles O2: the sum of base and offset, its bound with the documented constants, and the decoder block. -/
theorem addressIsBasePlusOffset : Obligations.AddressIsBasePlusOffset := by
  unfold Obligations.AddressIsBasePlusOffset
  simp only [← portOffset_toNat]
  exact ⟨address_toNat, fun p k m => Nat.add_le_add (baseAddress_documented_le k) (portOffset_documented_le p m),
    rfl, rfl, rfl, rfl, addressDecoder_code⟩

/-- Settles O4: each law follows from the address as the sum of the kind's code and the offset of port and mode. -/
theorem addressLawsThatHold : Obligations.AddressLawsThatHold := by
  unfold Obligations.AddressLawsThatHold
  exact fun k => ⟨address_a _ k _, address_a _ k _, address_b_sub_a _ k _, address_b_sub_a _ k _,
    fun p m => ⟨address_documented_consecutive p k m, fun l => address_documented_inj.mp⟩⟩

/-- Settles O5: within a port no address is shared, and port A and port B share one where the codes differ by the offset. -/
theorem sharedAddressesAreExactlyTheListedPairs : Obligations.SharedAddressesAreExactlyTheListedPairs := by
  unfold Obligations.SharedAddressesAreExactlyTheListedPairs
  refine ⟨fun p q k l => ?_, fun p q k l => ?_, rfl, fun k _ => ?_⟩
  · cases p <;> cases q
    case a.b => simp [aliased_separate_a_b]
    case b.a => simp [Aliased.comm (p := .b), aliased_separate_a_b, and_comm]
    all_goals simp [not_aliased_samePort]
  · cases p <;> cases q
    case a.b => simp [aliased_common_a_b]
    case b.a => simp [Aliased.comm (p := .b), aliased_common_a_b]
    all_goals simp [not_aliased_samePort]
  · exact (address_a _ k _).trans (baseAddress_documented k)

/-- Settles O8: a mask has the bit of its index and no other. -/
theorem pinMasksAreTheEightSingleBits : Obligations.PinMasksAreTheEightSingleBits := by
  unfold Obligations.PinMasksAreTheEightSingleBits
  refine ⟨fun pin => ?_, by decide, fun i j m n hi hj h => ⟨?_, pinMask_disjoint hi hj h⟩, by decide⟩
  · rcases Nat.lt_or_ge 7 pin.toNat with hp | hp
    · exact .inr ⟨hp, pinMask_outOfRange (decide_eq_false (Nat.not_le.mpr hp))⟩
    · have hm := pinMask_eq_some.mpr ⟨hp, rfl⟩
      exact .inl ⟨hp, _, hm, pinMask_toNat hm, fun b => ⟨pinMask_bit hm b, pinMask_complement_bit hm b⟩⟩
  · rintro rfl
    exact h (pinMask_inj hi hj)

end Sys2Proof.Proofs
end

section
/-! PROOF. Which commands the lifecycle admits, and the two ends of a lifecycle command that issues no transaction (R84 to
R86). -/

namespace Sys2Proof.Machine

/-! ### Admission (R86) -/

/-- The block is not done with another command: its response is still due, or it is in progress (R40, R86). -/
def BusyFor (i : Instr) (s : State) : Prop :=
  (s.phase = .idle ∧ s.due ≠ none) ∨ (s.phase ≠ .idle ∧ s.cmd ≠ some (encode i))

theorem BusyFor.admission_refuses {i : Instr} {s : State} (h : BusyFor i s) : admission i s = some .commandInProgress := by
  rcases h with ⟨hp, hd⟩ | ⟨hp, hc⟩
  · obtain ⟨r, hr⟩ := Option.ne_none_iff_exists'.mp hd
    exact admission_due hp hr
  · rw [admission_pending hp, if_neg hc]

/-- A command in progress holds up CONSTRUCT as it holds up any other command. -/
theorem BusyFor.constructAdmission_refuses {i : Instr} {s : State} (h : BusyFor i s) :
    constructAdmission i s = some .commandInProgress := by
  rw [← h.admission_refuses, constructAdmission, admission]
  rcases h with ⟨hp, hd⟩ | ⟨hp, -⟩
  · obtain ⟨r, hr⟩ := Option.ne_none_iff_exists'.mp hd
    simp only [hp, hr]
  · cases hq : s.phase with
    | idle => exact absurd hq hp
    | rdPend | wrPend | cfgPend => rfl

/-- A command that is neither CONSTRUCT nor DESTRUCT is refused where its admission refuses it. -/
theorem exec_of_admission {i : Instr} {s : State} {r : Refusal} (hc : ∀ a b, i ≠ .construct a b) (hd : i ≠ .destruct)
    (ha : admission i s = some r) : exec i s = .refused r := by
  cases hw : i.wellFormed with
  | false => simp only [exec_illFormed hw, illFormedEnd, ha]
  | true => simp only [exec_eq_operate hc hd hw, operate, ha]

/-- `destruct` is never the command in progress (R85). -/
theorem BusyFor.execDestruct_refused {i : Instr} {s : State} (h : BusyFor i s) :
    execDestruct s = .refused .commandInProgress := by
  unfold execDestruct
  rcases h with ⟨hp, hd⟩ | ⟨hp, -⟩
  · obtain ⟨r, hr⟩ := Option.ne_none_iff_exists'.mp hd
    simp only [hp, hr]
  · cases hq : s.phase with
    | idle => exact absurd hq hp
    | rdPend | wrPend | cfgPend => rfl

theorem BusyFor.exec_refused {i : Instr} {s : State} (h : BusyFor i s) : exec i s = .refused .commandInProgress := by
  by_cases hc : ∃ a b, i = .construct a b
  · obtain ⟨a, b, rfl⟩ := hc
    simp only [exec, execConstruct, h.constructAdmission_refuses]
  by_cases hd : i = .destruct
  · subst hd
    exact h.execDestruct_refused
  · exact exec_of_admission (fun a b he => hc ⟨a, b, he⟩) hd h.admission_refuses

/-- An initialized block in IDLE refuses CONSTRUCT, whatever bank mode it holds (R86). -/
theorem exec_construct_initialized {s : State} (hp : s.phase = .idle) (hd : s.due = none) (hi : s.initialized = true)
    (a b : PortConfig) : exec (.construct a b) s = .refused .alreadyInitialized := by
  simp [exec, execConstruct, constructAdmission, hp, hd, hi]

/-! ### A command that ends with its acceptance (R84, R85) -/

section Ends
variable {c : Command} {v : Byte} {st : Status} {s : State}

/-- At the grain of commands a command that ends with its acceptance leaves its response at the port. -/
theorem respond_accept_command (hp : s.phase = .idle) (hd : s.due = none) (hg : s.grain = .command) :
    respond v st (accept c s) = { s with
      cmd := none, tmp := none, idx := none, rsp := some ⟨v, st⟩, awaited := false } := by
  rw [respond_command (by exact hg), ← hp, ← hd, accept]

/-- At the grain of events its response is due, and the one before is gone from the port. -/
theorem respond_accept_event (hp : s.phase = .idle) (hg : s.grain = .event) :
    respond v st (accept c s) = { s with
      cmd := none, tmp := none, idx := none, rsp := none, due := some ⟨v, st⟩ } := by
  rw [respond_event (by exact hg), ← hp, accept]

end Ends

/-- With the check on, a fresh block ends CONSTRUCT of snapshots with different bank bits in an error (R84). -/
theorem exec_construct_mismatch {a b : PortConfig} {s : State} (h : Fresh s) (hk : s.config.bankMismatchCheck = true)
    (hb : bankBitsDiffer s.config a b = true) : exec (.construct a b) s =
      .next (respond 0x00 .bankMismatch (accept (encode (.construct a b)) s)) := by
  obtain ⟨hp, hd, hi⟩ := h
  simp [exec, execConstruct, constructAdmission, constructFromStart, hp, hd, hi, hk, hb]

/-- An initialized block in IDLE accepts `destruct`, clears the flag and responds, whatever bank mode it holds (R85). -/
theorem exec_destruct_initialized {s : State} (hp : s.phase = .idle) (hd : s.due = none) (hi : s.initialized = true) :
    exec .destruct s = .next (respond 0x00 .ok (accept (encode .destruct) (setLifecycle false s))) := by
  simp only [exec, execDestruct, hp, hd, hi]
  rfl

end Sys2Proof.Machine

namespace Sys2Proof.Proofs

open Sys2Proof Sys2Proof.Machine

/-- Settles O18: in IDLE the lifecycle flag refuses, and a block that is not done with another command refuses every one. -/
theorem admissionFollowsTheLifecycle : Obligations.AdmissionFollowsTheLifecycle := by
  unfold Obligations.AdmissionFollowsTheLifecycle
  refine fun s i => ⟨exec_uninitialized, fun a b hp hd hi he => ?_, fun hp hc => ?_, fun hp hd => ?_⟩
  · exact he ▸ exec_construct_initialized hp hd hi a b
  · exact BusyFor.exec_refused (.inr ⟨hp, hc⟩)
  · exact BusyFor.exec_refused (.inl ⟨hp, hd⟩)

/-- Settles O31: CONSTRUCT ends with its acceptance, and its response is delivered or due by the grain. -/
theorem mismatchedBankBitsAreRejectedWhenChecked : Obligations.MismatchedBankBitsAreRejectedWhenChecked := by
  unfold Obligations.MismatchedBankBitsAreRejectedWhenChecked
  intro cfgA cfgB s h hk hne
  have hb : bankBitsDiffer s.config cfgA cfgB = true := bne_iff_ne.mpr hne
  rw [exec_construct_mismatch h hk hb]
  obtain ⟨hp, hd, -⟩ := h
  exact ⟨fun hg => by rw [respond_accept_command hp hd hg], fun hg => by rw [respond_accept_event hp hg]⟩

/-- Settles O32: `destruct` ends with its acceptance, the flag cleared, and its response is delivered or due by the grain. -/
theorem destructClearsTheFlagOnly : Obligations.DestructClearsTheFlagOnly := by
  unfold Obligations.DestructClearsTheFlagOnly
  intro s hp hd hi
  rw [exec_destruct_initialized hp hd hi]
  exact ⟨fun hg => by rw [respond_accept_command (by exact hp) (by exact hd) (by exact hg)]; rfl,
    fun hg => by rw [respond_accept_event (by exact hp) (by exact hg)]; rfl⟩

end Sys2Proof.Proofs
end

section
/-! PROOF. The bank mode CONSTRUCT derives, and the order of its fourteen writes (R21, R81, R82). -/

namespace Sys2Proof.Machine

/-! ### The derived mode (R81) -/

theorem derivedMode_eq_separate {c : Config} {cfgA cfgB : PortConfig} : derivedMode c cfgA cfgB = .separate ↔
    (bankBit c cfgA.peripheralConfig && bankBit c cfgB.peripheralConfig) = c.bankSepValue := by
  unfold derivedMode
  split
  next h => exact iff_of_true rfl h
  next h => exact iff_of_false (by simp) h

/-- The documented bank bit is the most significant one (R21). -/
theorem bankBit_documented (v : Byte) : bankBit Config.documented v = true ↔ 128 ≤ v.toNat := by
  have h : bankBit Config.documented v = v.msb := (BitVec.msb_eq_getLsbD_last v).symm
  rw [h, BitVec.msb_eq_decide, decide_eq_true_eq]

/-! ### The fourteen writes (R82) -/

/-- Before peripheral-configuration stand as many kinds as `IOCON_POS` says. -/
theorem length_take_orderedSix (c : Config) : (orderedSix.take c.ioconPos.val).length = c.ioconPos.val :=
  List.length_take_of_le (Nat.le_of_lt_succ c.ioconPos.isLt)

theorem orderedSeven_ioconPos (c : Config) : (orderedSeven c)[c.ioconPos.val]? = some .peripheralConfig := by
  rw [orderedSeven, List.getElem?_append_right (length_take_orderedSix c).le, length_take_orderedSix, Nat.sub_self]
  rfl

/-- Without peripheral-configuration the seven kinds are the six, in their order. -/
theorem orderedSeven_eraseIdx (c : Config) : (orderedSeven c).eraseIdx c.ioconPos.val = orderedSix := by
  rw [orderedSeven, List.eraseIdx_append_of_length_le (length_take_orderedSix c).le, length_take_orderedSix, Nat.sub_self,
    List.eraseIdx_cons_zero, List.take_append_drop]

theorem orderedSeven_length (c : Config) : (orderedSeven c).length = 7 := by
  obtain ⟨h, -⟩ := List.getElem?_eq_some_iff.mp (orderedSeven_ioconPos c)
  rw [← List.length_eraseIdx_add_one h, orderedSeven_eraseIdx]
  rfl

end Sys2Proof.Machine

namespace Sys2Proof.Proofs

open Sys2Proof Sys2Proof.Machine

/-- Settles O28: the AND of the bits decides the mode, and the documented bit is set in the bytes from 128 on. -/
theorem bankModeIsTheAndOfBothBits : Obligations.BankModeIsTheAndOfBothBits := by
  unfold Obligations.BankModeIsTheAndOfBothBits
  refine ⟨fun c cfgA cfgB => derivedMode_eq_separate, fun cfgA cfgB => ?_, fun c cfgA cfgB => ?_⟩
  · rw [derivedMode_eq_separate, ← bankBit_documented, ← bankBit_documented, ← Bool.and_eq_true]
    rfl
  · cases derivedMode c cfgA cfgB
    · exact .inl rfl
    · exact .inr rfl

/-- Settles O29: a port's writes are its seven kinds mapped, so peripheral-configuration stands where it stands among the kinds; with
the defaults the addresses are evaluated. -/
theorem pushOrderOfTheFourteenWrites : Obligations.PushOrderOfTheFourteenWrites := by
  unfold Obligations.PushOrderOfTheFourteenWrites
  refine ⟨fun c m cfgA cfgB => ⟨fun h => ?_, fun h => ?_, pushWrites_length c m cfgA cfgB⟩,
    fun c m p cfg => ⟨?_, ?_, ?_⟩, fun _ _ => rfl, fun _ _ => rfl⟩
  · rw [pushWrites, h]
  · rw [pushWrites, h]
  · rw [portPushes, List.length_map, orderedSeven_length]
  · rw [portPushes, List.getElem?_map, orderedSeven_ioconPos]
    rfl
  · rw [portPushes, List.eraseIdx_map, orderedSeven_eraseIdx]
    rfl

end Sys2Proof.Proofs
end

section
/-! PROOF. CONSTRUCT and the peripheral: what the block does does not depend on the register space, the environment, the draws
or ENV's own changes (R88). -/

namespace Sys2Proof.Machine

/-- A turn of ENV with no change of the register space, that completes the request as the given one does. -/
def quietTurn (t : BusTurn) : BusTurn := ⟨[], t.completion⟩

/-- The state with what is behind the transport forgotten: of the peripheral and ENV only the completions to come are left. -/
def forgetPeripheral (s : State) : State :=
  { s with memory := [], env := .general, draws := 0, turns := s.turns.map quietTurn }

/-- Two states that are the same but for what is behind the transport, and whose turns complete alike. -/
theorem forgetPeripheral_eq_of_alike {s s' : State}
    (h : s' = { s with memory := s'.memory, env := s'.env, draws := s'.draws, turns := s'.turns })
    (ht : s.turns.map (·.completion) = s'.turns.map (·.completion)) : forgetPeripheral s' = forgetPeripheral s := by
  have hq : ∀ l : List BusTurn, l.map quietTurn = (l.map (·.completion)).map (BusTurn.mk []) := fun _ => List.map_map.symm
  rw [forgetPeripheral, hq, ← ht, ← hq, h]
  rfl

/-- What is not behind the transport is kept. -/
theorem alike_of_forgetPeripheral_eq {s s' : State} (h : forgetPeripheral s' = forgetPeripheral s) :
    s' = { s with memory := s'.memory, env := s'.env, draws := s'.draws, turns := s'.turns } := by
  cases s
  cases s'
  simp_all [forgetPeripheral]

/-! ### A write whose peripheral is forgotten -/

theorem takeTurn_forgetPeripheral (s : State) :
    takeTurn (forgetPeripheral s) = ((takeTurn s).1, forgetPeripheral (takeTurn s).2) := by
  unfold takeTurn
  cases h : s.turns with
  | nil => simp [forgetPeripheral, h]
  | cons t rest =>
    by_cases hc : t.completion = .never <;> simp [forgetPeripheral, quietTurn, pokeAll, h, hc]

theorem absorb_forgetPeripheral (a v : Byte) (s : State) :
    absorb a v (forgetPeripheral s) = forgetPeripheral (absorb a v s) := by
  rw [absorb_eq a v s]
  rfl

theorem writeByte_forgetPeripheral (ph : Phase) (a v : Byte) (s : State) :
    writeByte ph a v (forgetPeripheral s) = (writeByte ph a v s).map forgetPeripheral := by
  have hh : hold ph (.write a v) (forgetPeripheral s) = forgetPeripheral (hold ph (.write a v) s) := rfl
  unfold writeByte
  rw [hh, takeTurn_forgetPeripheral]
  obtain ⟨c, u⟩ := takeTurn (hold ph (.write a v) s)
  have hc : (forgetPeripheral u).config = u.config := rfl
  cases c with
  | ok => simp only [absorb_forgetPeripheral]; rfl
  | busErr took =>
    cases took <;> cases h : u.config.transportErrors <;> simp [absorb_eq, hc, h] <;> rfl
  | late => rfl
  | never => rfl

/-! ### The push whose peripheral is forgotten -/

theorem pushPause_forgetPeripheral (ws : List PushWrite) (n : Nat) (s : State) :
    pushPause ws n (forgetPeripheral s) = (pushPause ws n s).map forgetPeripheral := by
  have hg : (forgetPeripheral s).grain = s.grain := rfl
  unfold pushPause
  cases ws with
  | nil => rfl
  | cons w rest => cases h : s.grain <;> simp only [hg, h] <;> rfl

theorem pushScript_forgetPeripheral {ws : List PushWrite} {n : Nat} {s t : State} (h : pushScript ws n s = .next t) :
    pushScript ws n (forgetPeripheral s) = .next (forgetPeripheral t) := by
  induction ws generalizing n s with
  | nil =>
    cases h
    rfl
  | cons w rest ih =>
    have hw : writeByte .cfgPend w.addr w.data (countPush n (forgetPeripheral s)) =
        (writeByte .cfgPend w.addr w.data (countPush n s)).map forgetPeripheral :=
      writeByte_forgetPeripheral .cfgPend w.addr w.data (countPush n s)
    rw [pushScript] at h ⊢
    rw [hw]
    cases hb : writeByte .cfgPend w.addr w.data (countPush n s) with
    | done x u =>
      simp only [hb, Tx.map, pushPause_forgetPeripheral] at h ⊢
      cases hp : pushPause rest (n + 1) u with
      | none => exact ih (by simpa only [hp] using h)
      | some u' =>
        simp only [hp] at h
        cases h
        rfl
    | failed u | waiting u =>
      simp only [hb] at h
      cases h
      rfl

theorem pushFromStart_forgetPeripheral {ws : List PushWrite} {s t : State} (h : pushFromStart ws s = .next t) :
    pushFromStart ws (forgetPeripheral s) = .next (forgetPeripheral t) := by
  unfold pushFromStart at h ⊢
  rw [pushPause_forgetPeripheral]
  cases hp : pushPause ws 0 s with
  | none => exact pushScript_forgetPeripheral (by simpa only [hp] using h)
  | some u =>
    simp only [hp] at h
    cases h
    rfl

/-- A fresh block that knows nothing of the peripheral does what it does with it. -/
theorem Fresh.exec_construct_forgetPeripheral {a b : PortConfig} {s t : State} (hf : Fresh s)
    (h : exec (.construct a b) s = .next t) :
    exec (.construct a b) (forgetPeripheral s) = .next (forgetPeripheral t) := by
  have hf' : Fresh (forgetPeripheral s) := hf
  by_cases hb : s.config.bankMismatchCheck = true → bankBitsDiffer s.config a b = false
  · rw [exec_construct_fresh hf hb] at h
    rw [exec_construct_fresh hf' hb]
    exact pushFromStart_forgetPeripheral h
  · obtain ⟨hk, hd⟩ := Classical.not_imp.mp hb
    have hd : bankBitsDiffer s.config a b = true := by simpa using hd
    rw [exec_construct_mismatch hf hk hd] at h
    rw [exec_construct_mismatch hf' hk hd]
    cases h
    rfl

end Sys2Proof.Machine

namespace Sys2Proof.Proofs

open Sys2Proof Sys2Proof.Machine

/-- Settles O33: both next states are that of the block that has forgotten the peripheral, but for what it has forgotten. -/
theorem constructDoesNotDependOnThePeripheral : Obligations.ConstructDoesNotDependOnThePeripheral := by
  unfold Obligations.ConstructDoesNotDependOnThePeripheral
  intro cfgA cfgB s s' h he hturns
  have h' : Fresh s' := by rw [he]; exact h
  obtain ⟨t, ht⟩ := h.exec_construct_answers cfgA cfgB
  obtain ⟨t', ht'⟩ := h'.exec_construct_answers cfgA cfgB
  have hf := h.exec_construct_forgetPeripheral ht
  have hf' := h'.exec_construct_forgetPeripheral ht'
  rw [forgetPeripheral_eq_of_alike he hturns, hf] at hf'
  exact ⟨t, t', ht, ht', alike_of_forgetPeripheral_eq (Host.Outcome.next.inj hf').symm⟩

end Sys2Proof.Proofs
end

section
/-! PROOF. A ready block's one read or one write over a transport that completes it, at the grain of commands, and the `get` and
`set` commands of a register kind (R49, R90, R91; log 1). -/

namespace Sys2Proof.Machine

/-! ### Commands of one transaction -/

section OneTransaction
variable {i : Instr} {a : Byte} {m : BankMode} {s : State}

/-- Everything a command that only reads leaves. -/
theorem exec_read_completes (h : ReadyIn m s) (hg : s.grain = .command) (hcp : Completes 1 s)
    (hr : readAddress s.config m i = some a) (hw : writeAddress s.config m i = none) :
    ∃ v d, exec i s = .next { s with
        phase := .idle, bus := none, cmd := none, tmp := none, idx := none, rsp := some ⟨responseByte v i, .ok⟩, due := none,
        awaited := false, memory := spaceAt 0 s, turns := s.turns.tail, history := s.history ++ [.read a v], draws := d } ∧
      (s.env = .reference → v = Memory.read (spaceAt 0 s) a) := by
  have hca : Completes 1 (accept (encode i) s) := hcp
  obtain ⟨v, d, hl, he⟩ := lastRead_completes (a := a) (post := fun v => responseByte v i) hca
  rw [spaceAt_accept] at hl he
  refine ⟨v, d, ?_, he⟩
  rw [exec_ready_of_transaction h (.inl (by simp [hr])), scriptOf_read (by exact hr) (by exact hw), readScript,
    opening_command (by exact hg), hl, respond_command (by exact hg)]
  rfl

/-- Everything a command that only writes leaves. -/
theorem exec_write_completes (h : ReadyIn m s) (hg : s.grain = .command) (hcp : Completes 1 s)
    (hr : readAddress s.config m i = none) (hw : writeAddress s.config m i = some a) :
    exec i s = .next { s with
      phase := .idle, bus := none, cmd := none, tmp := none, idx := none, rsp := some ⟨0x00, .ok⟩, due := none,
      awaited := false, memory := spaceAfterWrite s.env (spaceAt 0 s) a (writtenByte 0 i), turns := s.turns.tail,
      history := s.history ++ [.write a (writtenByte 0 i)] } := by
  have hca : Completes 1 (accept (encode i) s) := hcp
  rw [exec_ready_of_transaction h (.inr (by simp [hw])), scriptOf_write (by exact hr) (by exact hw), writeScript,
    opening_command (by exact hg), lastWrite_completes hca, spaceAt_accept, respond_command (by exact hg)]
  rfl

end OneTransaction

/-! ### The commands of a register kind (R90, R91) -/

section RegisterCommands
variable {i : Instr} {v : Byte} {k : RegKind} (c : Config) (m : BankMode) (p : Port)

theorem readAddress_get (k : RegKind) : readAddress c m (.get p k) = some (address c p k m) := by cases k <;> rfl

theorem writeAddress_get (k : RegKind) : writeAddress c m (.get p k) = none := by cases k <;> rfl

theorem responseByte_get (v : Byte) (k : RegKind) : responseByte v (.get p k) = v := by cases k <;> rfl

variable {p}

theorem readAddress_set (h : Instr.set p v k = some i) : readAddress c m i = none := by cases k <;> cases h <;> rfl

theorem writeAddress_set (h : Instr.set p v k = some i) : writeAddress c m i = some (address c p k m) := by
  cases k <;> cases h <;> rfl

/-- The byte is written unchanged, whatever was read. -/
theorem writtenByte_set (x : Byte) (h : Instr.set p v k = some i) : writtenByte x i = v := by cases k <;> cases h <;> rfl

end RegisterCommands

end Sys2Proof.Machine

namespace Sys2Proof.Proofs

open Sys2Proof Sys2Proof.Machine

/-- Settles O19: each command listed is the `get` of its kind, which only reads and responds with the byte read. -/
theorem getsRespondWithTheByteRead : Obligations.GetsRespondWithTheByteRead := by
  unfold Obligations.GetsRespondWithTheByteRead
  intro p m s h hg hcp ik hik
  have hget : ik.1 = .get p ik.2 := by
    revert ik
    simp [Instr.get]
  obtain ⟨v, d, hx, he⟩ := exec_read_completes h hg hcp (readAddress_get s.config m p ik.2)
    (writeAddress_get s.config m p ik.2)
  rw [responseByte_get] at hx
  rw [hget]
  exact ⟨v, _, hx, ⟨rfl, rfl, rfl, rfl, rfl, rfl, rfl, rfl⟩, rfl, he, rfl, ⟨rfl, rfl, rfl, rfl, rfl, rfl, rfl⟩⟩

/-- Settles O20: each command listed is the `set` of its kind, which only writes; what the write stores is decided by the
environment. -/
theorem setsWriteTheByteUnchanged : Obligations.SetsWriteTheByteUnchanged := by
  unfold Obligations.SetsWriteTheByteUnchanged
  intro p v m s h hg hcp ik hik
  have hset : Instr.set p v ik.2 = some ik.1 := by
    revert ik
    simp [Instr.set]
  have hx := exec_write_completes h hg hcp (readAddress_set s.config m hset) (writeAddress_set s.config m hset)
  rw [writtenByte_set 0 hset] at hx
  exact ⟨_, hx, ⟨rfl, rfl, rfl, rfl, rfl, rfl, rfl, rfl⟩, rfl, fun he => by rw [he]; rfl, fun he => by rw [he]; rfl,
    ⟨rfl, rfl, rfl, rfl, rfl, rfl, rfl⟩⟩

end Sys2Proof.Proofs
end

section
/-! PROOF. The pin and port operations of a ready block over a transport that completes them, at the grain of commands: one
read of current-value, or a read-modify-write of it (R120 to R128; log 1). -/

namespace Sys2Proof.Machine

/-! ### One bit under the pin mask (R70, R121) -/

section PinBit
variable {pin : Byte} (h : pinInRange pin = true)
include h

theorem getLsbD_mask : (1#8 <<< pin.toNat).getLsbD pin.toNat = true := (pinMask_bit (pinMask_inRange h) _).mpr rfl

theorem getLsbD_or_mask (x : Byte) : (x ||| (1#8 <<< pin.toNat)).getLsbD pin.toNat = true := by
  rw [BitVec.getLsbD_or, getLsbD_mask h, Bool.or_true]

theorem getLsbD_and_not_mask (x : Byte) : (x &&& ~~~(1#8 <<< pin.toNat)).getLsbD pin.toNat = false := by
  rw [BitVec.getLsbD_and, BitVec.getLsbD_not, getLsbD_mask h, Bool.not_true, Bool.and_false, Bool.and_false]

/-- The mask leaves of a byte the bit of its index, and nothing of a byte whose bit is 0. -/
theorem getLsbD_iff_and_mask (v : Byte) : v.getLsbD pin.toNat = true ↔ v &&& (1#8 <<< pin.toNat) ≠ 0x00 := by
  have hne : 1#8 <<< pin.toNat ≠ 0#8 := fun h0 => by simpa [h0] using getLsbD_mask h
  rw [← BitVec.twoPow_eq, BitVec.and_twoPow, BitVec.twoPow_eq]
  cases v.getLsbD pin.toNat <;> simp [hne]

/-- `get_pin_state` answers 0x01 exactly where the bit of the byte read is 1 (R121). -/
theorem responseByte_getPinState (p : Port) (v : Byte) :
    responseByte v (.getPinState p pin) = if v.getLsbD pin.toNat then 0x01 else 0x00 := by
  rw [responseByte, pinState]
  by_cases hv : v.getLsbD pin.toNat = true
  · rw [if_pos hv, if_neg ((getLsbD_iff_and_mask h v).mp hv)]
    rfl
  · rw [if_neg hv, if_pos (not_not.mp (mt (getLsbD_iff_and_mask h v).mpr hv))]
    rfl

end PinBit

/-! ### What a command does to the byte at its address -/

/-- In mode `m` the command writes at `a`, and the byte it writes is `f` of what it has read, if it reads. -/
structure Stores (i : Instr) (c : Config) (m : BankMode) (a : Byte) (f : Byte → Byte) : Prop where
  write : writeAddress c m i = some a
  byte : ∀ x, writtenByte x i = f x

/-- In mode `m` the command reads at `a` and writes `f` of the byte back: `rmw` (R120). -/
structure Rewrites (i : Instr) (c : Config) (m : BankMode) (a : Byte) (f : Byte → Byte) : Prop extends Stores i c m a f where
  read : readAddress c m i = some a

section Operations
variable (c : Config) (m : BankMode) (p : Port) {pin : Byte}

theorem rewrites_setPin (h : pinInRange pin = true) :
    Rewrites (.setPin p pin) c m (address c p .currentValue m) fun x => x ||| (1#8 <<< pin.toNat) :=
  ⟨⟨if_pos h, fun _ => rfl⟩, if_pos h⟩

theorem rewrites_resetPin (h : pinInRange pin = true) :
    Rewrites (.resetPin p pin) c m (address c p .currentValue m) fun x => x &&& ~~~(1#8 <<< pin.toNat) :=
  ⟨⟨if_pos h, fun _ => rfl⟩, if_pos h⟩

theorem rewrites_togglePin (h : pinInRange pin = true) :
    Rewrites (.togglePin p pin) c m (address c p .currentValue m) fun x => x ^^^ (1#8 <<< pin.toNat) :=
  ⟨⟨if_pos h, fun _ => rfl⟩, if_pos h⟩

theorem rewrites_setPinState_high (h : pinInRange pin = true) :
    Rewrites (.setPinState p pin .high) c m (address c p .currentValue m) fun x => x ||| (1#8 <<< pin.toNat) :=
  ⟨⟨if_pos h, fun _ => rfl⟩, if_pos h⟩

theorem rewrites_setPinState_low (h : pinInRange pin = true) :
    Rewrites (.setPinState p pin .low) c m (address c p .currentValue m) fun x => x &&& ~~~(1#8 <<< pin.toNat) :=
  ⟨⟨if_pos h, fun _ => rfl⟩, if_pos h⟩

theorem rewrites_setPins : Rewrites (.setPins p) c m (address c p .currentValue m) fun _ => 0xFF :=
  ⟨⟨rfl, fun _ => rfl⟩, rfl⟩

theorem rewrites_togglePins : Rewrites (.togglePins p) c m (address c p .currentValue m) fun x => ~~~x :=
  ⟨⟨rfl, fun _ => BitVec.xor_allOnes⟩, rfl⟩

/-- With or without `RESET_PINS_READS` (R127). -/
theorem stores_resetPins : Stores (.resetPins p) c m (address c p .currentValue m) fun _ => 0x00 := ⟨rfl, fun _ => rfl⟩

variable {c}

theorem rewrites_resetPins (h : c.resetPinsReads = true) :
    Rewrites (.resetPins p) c m (address c p .currentValue m) fun _ => 0x00 :=
  ⟨stores_resetPins c m p, if_pos h⟩

end Operations

/-- What a read-modify-write of a ready block leaves, its transport completing both transactions: the read of `x` and the
write of `f x`, the response (0x00, 0), and the frame. -/
theorem Rewrites.completes {i : Instr} {a : Byte} {f : Byte → Byte} {m : BankMode} {s : State}
    (hi : Rewrites i s.config m a f) (h : ReadyIn m s) (hg : s.grain = .command) (hcp : Completes 2 s) :
    ∃ x t, exec i s = .next t ∧ Answers 0x00 .ok t ∧ t.history = s.history ++ [.read a x, .write a (f x)] ∧
      (s.env = .reference → x = Memory.read (spaceAt 0 s) a ∧ t.memory = Memory.write (spaceAt 1 s) a (f x)) ∧
      (s.env = .general → t.memory = spaceAt 1 s) ∧ Framed s t := by
  obtain ⟨x, d, hx, he⟩ := exec_rmw_completes h hg hcp hi.read hi.write
  rw [hi.byte] at hx
  exact ⟨x, _, hx, ⟨rfl, rfl, rfl, rfl, rfl, rfl, rfl, rfl⟩, rfl, fun hr => ⟨he hr, by rw [hr]; rfl⟩,
    fun hr => by rw [hr]; rfl, ⟨rfl, rfl, rfl, rfl, rfl, rfl, rfl⟩⟩

end Sys2Proof.Machine

namespace Sys2Proof.Proofs

open Sys2Proof Sys2Proof.Machine

/-- Settles O21: the command only reads, and its response is the bit of the byte read. -/
theorem getPinStateTestsOneBit : Obligations.GetPinStateTestsOneBit := by
  unfold Obligations.GetPinStateTestsOneBit
  intro p pin m s h hg hcp hn
  have hr : pinInRange pin = true := decide_eq_true hn
  obtain ⟨v, d, hx, he⟩ := exec_read_completes (i := .getPinState p pin) h hg hcp (if_pos hr) rfl
  rw [responseByte_getPinState hr] at hx
  exact ⟨v, _, hx, ⟨rfl, rfl, rfl, rfl, rfl, rfl, rfl, rfl⟩, getLsbD_iff_and_mask hr v, rfl, he, rfl,
    ⟨rfl, rfl, rfl, rfl, rfl, rfl, rfl⟩⟩

/-- Settles O22: each of the three commands rewrites current-value with its own operation on the bit. -/
theorem pinOperationsReadModifyWrite : Obligations.PinOperationsReadModifyWrite := by
  unfold Obligations.PinOperationsReadModifyWrite
  intro p pin m s h hg hcp hn f hf
  have hr : pinInRange pin = true := decide_eq_true hn
  have hi : Rewrites f.1 s.config m (address s.config p .currentValue m) f.2 := by
    simp only [List.mem_cons, List.not_mem_nil, or_false] at hf
    rcases hf with rfl | rfl | rfl
    · exact rewrites_setPin _ m p hr
    · exact rewrites_resetPin _ m p hr
    · exact rewrites_togglePin _ m p hr
  exact hi.completes h hg hcp

/-- Settles O23: on HIGH the bit is set in the byte read, on LOW it is cleared. -/
theorem setPinStateSetsOrClearsTheBit : Obligations.SetPinStateSetsOrClearsTheBit := by
  unfold Obligations.SetPinStateSetsOrClearsTheBit
  intro p pin st m s h hg hcp hn
  have hr : pinInRange pin = true := decide_eq_true hn
  cases st with
  | high =>
    obtain ⟨x, t, hx, ht⟩ := (rewrites_setPinState_high s.config m p hr).completes h hg hcp
    exact ⟨x, _, t, hx, fun _ => rfl, nofun, ht⟩
  | low =>
    obtain ⟨x, t, hx, ht⟩ := (rewrites_setPinState_low s.config m p hr).completes h hg hcp
    exact ⟨x, _, t, hx, nofun, fun _ => rfl, ht⟩

/-- Settles O25: both commands rewrite current-value, `set_pins` with a byte that does not depend on the one read. -/
theorem portOperationsReadModifyWrite : Obligations.PortOperationsReadModifyWrite := by
  unfold Obligations.PortOperationsReadModifyWrite
  intro p m s h hg hcp f hf
  have hi : Rewrites f.1 s.config m (address s.config p .currentValue m) f.2 := by
    simp only [List.mem_cons, List.not_mem_nil, or_false] at hf
    rcases hf with rfl | rfl
    · exact rewrites_setPins _ m p
    · exact rewrites_togglePins _ m p
  exact hi.completes h hg hcp

/-- Settles O26: with `RESET_PINS_READS` off the command only writes, with it on it rewrites current-value with 0x00. -/
theorem resetPinsWritesZero : Obligations.ResetPinsWritesZero := by
  unfold Obligations.ResetPinsWritesZero
  refine fun p m s h hg => ⟨fun hoff hcp => ?_, fun hon hcp => ?_⟩
  · have hr : readAddress s.config m (.resetPins p) = none := if_neg (by simp [hoff])
    exact ⟨_, exec_write_completes h hg hcp hr rfl, ⟨rfl, rfl, rfl, rfl, rfl, rfl, rfl, rfl⟩, rfl,
      fun he => by rw [he]; rfl, fun he => by rw [he]; rfl, ⟨rfl, rfl, rfl, rfl, rfl, rfl, rfl⟩⟩
  · obtain ⟨x, t, hx, ha, hh, href, hgen, hf⟩ := (rewrites_resetPins m p hon).completes h hg hcp
    exact ⟨x, t, hx, ha, hh, fun he => (href he).2, hgen, hf⟩

end Sys2Proof.Proofs
end

section
/-! PROOF. A command accepted in IDLE, whatever bank mode the block holds: the end of a pin index above 7 (R131), and
`set_pin_state` as the operation it dispatches to (R122). -/

namespace Sys2Proof.Machine

/-! ### The acceptance of a command in IDLE (R86) -/

section Idle
variable {i j : Instr} {s : State}

/-- In IDLE the admission does not depend on the command. -/
theorem admission_idle_congr (hp : s.phase = .idle) : admission i s = admission j s := by
  cases hd : s.due with
  | none => rw [admission_idle hp hd, admission_idle hp hd]
  | some r => rw [admission_due hp hd, admission_due hp hd]

theorem admission_idle_eq_none (hp : s.phase = .idle) : admission i s = none ↔ s.due = none ∧ s.initialized = true := by
  cases hd : s.due <;> cases hi : s.initialized <;> simp [admission, hp, hd, hi]

/-- Reading the bank mode does not touch the word in `cmd`. -/
theorem noteMode_accept (c : Command) (s : State) : noteMode (accept c s) = accept c (noteMode s) := by
  unfold noteMode
  rw [accept_bankMode]
  cases s.bankMode <;> rfl

/-- An admitted command that is well formed runs its script from its acceptance, in the mode `bank_mode` reads as. -/
theorem exec_idle_of_wellFormed (hp : s.phase = .idle) (ha : admission i s = none) (hw : i.wellFormed = true)
    (hc : ∀ a b, i ≠ .construct a b) (hd : i ≠ .destruct) :
    exec i s = scriptOf i (modeOf s) (accept (encode i) (noteMode s)) := by
  rw [exec_eq_operate hc hd hw, operate, ha, present_idle hp, ← noteMode_accept]
  rfl

/-- An admitted pin command with an index above 7 ends from its acceptance. -/
theorem exec_idle_of_illFormed (hp : s.phase = .idle) (ha : admission i s = none) (hw : i.wellFormed = false) :
    exec i s = badPinIndex (accept (encode i) s) := by
  rw [exec_illFormed hw, illFormedEnd, ha, present_idle hp]

theorem badPinIndex_unchecked (h : s.config.pinCheck = false) : badPinIndex s = .refused .pinIndexOutOfRange :=
  if_neg (by simp [h])

theorem badPinIndex_checked (h : s.config.pinCheck = true) : badPinIndex s = .next (respond 0x00 .invalidPinIndex s) :=
  if_pos h

/-! ### A command that has ended -/

/-- No word is left in `cmd` once a command has ended (log 15). -/
theorem exec_ended_cmd {t : State} (h : exec i s = .next t) (hp : t.phase = .idle) : t.cmd = none := by
  rcases exec_outcome h with ⟨-, -, rfl⟩ | ⟨-, -, -, -, rfl⟩ |
      ⟨a, b, -, ⟨-, -, -, rfl⟩ | ⟨-, hr⟩ | ⟨n, u, -, -, -, hr⟩⟩ | ⟨-, -, -, v, -, ⟨u, w, st, rfl, -⟩ | ⟨-, hr⟩⟩
  · rfl
  · rfl
  · rfl
  · exact (hr.ended hp).1
  · exact (hr.ended hp).1
  · rfl
  · rcases hr with ⟨hq, -⟩ | ⟨hq, -⟩ <;> simp [hq] at hp

/-! ### Two commands with one script (R122) -/

/-- A script with a transaction, from its acceptance, does not depend on the word in `cmd`. -/
theorem scriptOf_cmdFree {m : BankMode} (hp : s.phase = .idle)
    (ht : (readAddress s.config m i).isSome = true ∨ (writeAddress s.config m i).isSome = true) :
    CmdFree (scriptOf i m) s := by
  unfold CmdFree
  cases hr : readAddress s.config m i with
  | some a =>
    cases hw : writeAddress s.config m i with
    | none =>
      simp only [scriptOf_read (s := accept _ s) (by exact hr) (by exact hw)]
      exact readScript_cmdFree _ _ s
    | some b =>
      simp only [scriptOf_rmw (s := accept _ s) (by exact hr) (by exact hw)]
      exact rmwScript_cmdFree _ _ hp
  | none =>
    obtain ⟨a, hw⟩ := Option.isSome_iff_exists.mp (ht.resolve_left (by simp [hr]))
    simp only [scriptOf_write (s := accept _ s) (by exact hr) (by exact hw)]
    exact writeScript_cmdFree _ _ s

/-- Two commands answer the same next state but for the word in `cmd`, each its own while it is in progress, or the same
refusal. -/
def SameButWord (i j : Instr) (s : State) : Prop :=
  (∃ t c, exec j s = .next t ∧ exec i s = .next { t with cmd := c } ∧
    (t.phase = .idle → t.cmd = none ∧ c = none) ∧
    (t.phase ≠ .idle → t.cmd = some (encode j) ∧ c = some (encode i))) ∨
  (∃ r, exec j s = .refused r ∧ exec i s = .refused r)

/-- Two commands that run one operation, free of the word in `cmd`, from the acceptance of each. -/
theorem CmdFree.sameButWord {k : State → Host.Outcome State Fault Refusal} {u : State} (hk : CmdFree k u)
    (hi : exec i s = k (accept (encode i) u)) (hj : exec j s = k (accept (encode j) u)) : SameButWord i j s := by
  obtain ⟨t, ⟨hp, ht⟩ | ⟨hp, ht⟩⟩ := hk
  · rw [ht] at hi hj
    have hc := exec_ended_cmd hj hp
    exact .inl ⟨t, none, hj, by rw [hi, ← hc], fun _ => ⟨hc, rfl⟩, fun h => absurd hp h⟩
  · rw [ht] at hi hj
    exact .inl ⟨_, _, hj, hi, fun h => absurd h hp, fun _ => ⟨rfl, rfl⟩⟩

/-- In IDLE two commands that are well formed alike and have one script are the same operation. -/
theorem sameButWord_of_script (hp : s.phase = .idle) (hs : scriptOf i = scriptOf j) (hw : i.wellFormed = j.wellFormed)
    (hi : (∀ a b, i ≠ .construct a b) ∧ i ≠ .destruct) (hj : (∀ a b, j ≠ .construct a b) ∧ j ≠ .destruct) :
    SameButWord i j s := by
  obtain ⟨hic, hid⟩ := hi
  obtain ⟨hjc, hjd⟩ := hj
  have hij : admission i s = admission j s := admission_idle_congr hp
  cases ha : admission j s with
  | some r => exact .inr ⟨r, exec_of_admission hjc hjd ha, exec_of_admission hic hid (hij.trans ha)⟩
  | none =>
    have hai := hij.trans ha
    cases hwj : j.wellFormed with
    | true =>
      refine CmdFree.sameButWord (k := scriptOf j (modeOf s)) (u := noteMode s) (scriptOf_cmdFree ?_ ?_)
        (hs ▸ exec_idle_of_wellFormed hp hai (hw.trans hwj) hic hid) (exec_idle_of_wellFormed hp ha hwj hjc hjd)
      · rw [noteMode_eq]; exact hp
      · exact transaction_of_wellFormed hjc hjd hwj _ _
    | false =>
      have hxi := exec_idle_of_illFormed hp hai (hw.trans hwj)
      have hxj := exec_idle_of_illFormed hp ha hwj
      cases hk : s.config.pinCheck with
      | false =>
        rw [badPinIndex_unchecked (by exact hk)] at hxi hxj
        exact .inr ⟨_, hxj, hxi⟩
      | true =>
        rw [badPinIndex_checked (by exact hk)] at hxi hxj
        have hf : CmdFree (fun u => .next (respond 0x00 .invalidPinIndex u)) s :=
          ⟨respond 0x00 .invalidPinIndex (accept (encode j) s), .inl ⟨rfl, fun _ => rfl⟩⟩
        exact hf.sameButWord hxi hxj

end Idle

theorem scriptOf_setPinState_high (p : Port) (pin : Byte) : scriptOf (.setPinState p pin .high) = scriptOf (.setPin p pin) :=
  rfl

theorem scriptOf_setPinState_low (p : Port) (pin : Byte) : scriptOf (.setPinState p pin .low) = scriptOf (.resetPin p pin) :=
  rfl

end Sys2Proof.Machine

namespace Sys2Proof.Proofs

open Sys2Proof Sys2Proof.Machine

/-- Settles O24: `set_pin_state` has the script of the operation it dispatches to, and checks its pin index alike. -/
theorem setPinStateDispatches : Obligations.SetPinStateDispatches := by
  unfold Obligations.SetPinStateDispatches
  intro p pin s hp ij hij
  simp only [List.mem_cons, List.not_mem_nil, or_false] at hij
  rcases hij with rfl | rfl
  · exact sameButWord_of_script hp (scriptOf_setPinState_high p pin) rfl ⟨nofun, nofun⟩ ⟨nofun, nofun⟩
  · exact sameButWord_of_script hp (scriptOf_setPinState_low p pin) rfl ⟨nofun, nofun⟩ ⟨nofun, nofun⟩

/-- Settles O27: each of the five commands is not well formed, so it ends with its acceptance, as `PIN_CHECK` says. -/
theorem pinIndexAboveSevenHasNoEffect : Obligations.PinIndexAboveSevenHasNoEffect := by
  unfold Obligations.PinIndexAboveSevenHasNoEffect
  intro p pin st s hp hd hi hn i hmem
  have hr : pinInRange pin = false := decide_eq_false (Nat.not_le.mpr hn)
  have hw : i.wellFormed = false := by
    revert i
    simp [Instr.wellFormed, hr]
  rw [exec_idle_of_illFormed hp ((admission_idle_eq_none hp).mpr ⟨hd, hi⟩) hw]
  refine ⟨fun hk => badPinIndex_unchecked hk, fun hk hg => ?_, fun hk hg => ?_⟩
  · rw [badPinIndex_checked (by exact hk), respond_accept_command hp hd hg]
  · rw [badPinIndex_checked (by exact hk), respond_accept_event hp hg]

end Sys2Proof.Proofs
end

section
/-! PROOF. The pin and port operations one after another in the reference environment undisturbed (R48, R130). -/

namespace Sys2Proof.Machine

/-! ### The reference environment undisturbed (R48) -/

theorem Undisturbed.completes {s : State} (h : Undisturbed s) (n : Nat) : Completes n s := by simp [Completes, h.2]

theorem Undisturbed.spaceAt_eq {s : State} (h : Undisturbed s) (n : Nat) : spaceAt n s = s.memory := by
  induction n with
  | zero => simp [spaceAt, pokesAt, h.2, pokeAll]
  | succ n ih => simp [spaceAt, pokesAt, h.2, pokeAll, ih]

/-- The hypotheses of R130: a ready block, each command one step, and the reference environment undisturbed. -/
structure Calm (m : BankMode) (s : State) : Prop where
  ready : ReadyIn m s
  grain : s.grain = .command
  undisturbed : Undisturbed s
  memory_wf : Memory.wf s.memory

section Calm
variable {i : Instr} {m : BankMode} {a : Byte} {f : Byte → Byte} {s : State}

/-- A command that stores leaves `f` of the byte at its address there, whether it reads that byte or not, and a state in which
the next command can run. -/
theorem Calm.exec_stores (h : Calm m s) (hi : Stores i s.config m a f) :
    ∃ t, exec i s = .next t ∧ Calm m t ∧ t.config = s.config ∧ Memory.read t.memory a = f (Memory.read s.memory a) := by
  obtain ⟨-, -, hinit, hm⟩ := h.ready
  obtain ⟨he, ht⟩ := h.undisturbed
  have hmem : ∀ v, spaceAfterWrite s.env s.memory a v = Memory.write s.memory a v := fun v => by rw [he]; rfl
  have hwf : ∀ v, Memory.wf (Memory.write s.memory a v) := fun v => Memory.write_wf _ a v h.memory_wf
  have hread : ∀ v, Memory.read (Memory.write s.memory a v) a = v := fun v => Memory.read_write_same _ a v h.memory_wf
  cases hr : readAddress s.config m i with
  | none =>
    have hx := exec_write_completes h.ready h.grain (h.undisturbed.completes 1) hr hi.write
    rw [writtenByte_of_no_read hr hi.write 0 (Memory.read s.memory a), hi.byte, h.undisturbed.spaceAt_eq, hmem] at hx
    exact ⟨_, hx, ⟨⟨rfl, rfl, hinit, hm⟩, h.grain, ⟨he, by simp [ht]⟩, hwf _⟩, rfl, hread _⟩
  | some b =>
    obtain rfl := writeAddress_of_read hr hi.write
    obtain ⟨x, d, hx, hb⟩ := exec_rmw_completes h.ready h.grain (h.undisturbed.completes 2) hr hi.write
    obtain rfl : x = Memory.read s.memory b := by rw [hb he, h.undisturbed.spaceAt_eq]
    rw [hi.byte, h.undisturbed.spaceAt_eq, hmem] at hx
    exact ⟨_, hx, ⟨⟨rfl, rfl, hinit, hm⟩, h.grain, ⟨he, by simp [ht]⟩, hwf _⟩, rfl, hread _⟩

/-- A command that stores, given twice. -/
theorem Calm.exec_stores_twice (h : Calm m s) (hi : Stores i s.config m a f) :
    ∃ t u, exec i s = .next t ∧ exec i t = .next u ∧ Memory.read t.memory a = f (Memory.read s.memory a) ∧
      Memory.read u.memory a = f (f (Memory.read s.memory a)) := by
  obtain ⟨t, hx, ht, hc, hm⟩ := h.exec_stores hi
  obtain ⟨u, hy, -, -, hn⟩ := ht.exec_stores (hc ▸ hi)
  exact ⟨t, u, hx, hy, hm, by rw [hn, hm]⟩

/-- `get_pin_state` answers the bit of the byte current-value holds. -/
theorem Calm.exec_getPinState (h : Calm m s) (p : Port) {pin : Byte} (hn : pinInRange pin = true) :
    ∃ u, exec (.getPinState p pin) s = .next u ∧ u.rsp =
      some ⟨if (Memory.read s.memory (address s.config p .currentValue m)).getLsbD pin.toNat then 0x01 else 0x00, .ok⟩ := by
  obtain ⟨v, d, hx, hv⟩ := exec_read_completes (i := .getPinState p pin) h.ready h.grain (h.undisturbed.completes 1)
    (if_pos hn) rfl
  rw [responseByte_getPinState hn, hv h.undisturbed.1, h.undisturbed.spaceAt_eq] at hx
  exact ⟨_, hx, rfl⟩

/-- `get_pin_state` after a command that stores to current-value answers the bit of the byte stored. -/
theorem Calm.exec_stores_getPinState {p : Port} {pin : Byte} (h : Calm m s) (hn : pinInRange pin = true)
    (hi : Stores i s.config m (address s.config p .currentValue m) f) :
    ∃ t u, exec i s = .next t ∧ exec (.getPinState p pin) t = .next u ∧ u.rsp = some
      ⟨if (f (Memory.read s.memory (address s.config p .currentValue m))).getLsbD pin.toNat then 0x01 else 0x00, .ok⟩ := by
  obtain ⟨t, hx, ht, hc, hm⟩ := h.exec_stores hi
  obtain ⟨u, hy, hr⟩ := ht.exec_getPinState p hn
  rw [hc, hm] at hr
  exact ⟨t, u, hx, hy, hr⟩

end Calm

end Sys2Proof.Machine

namespace Sys2Proof.Proofs

open Sys2Proof Sys2Proof.Machine

/-- Settles O37: each operation stores its function of the byte at current-value, and the six properties are laws of these
functions: OR with a mask is idempotent, XOR with a mask and the complement undo themselves, the bit set or cleared is read
back. -/
theorem propertiesOfPinAndPortOperations : Obligations.PropertiesOfPinAndPortOperations := by
  unfold Obligations.PropertiesOfPinAndPortOperations
  intro p pin m s h hg hu hwf hn a
  have hr : pinInRange pin = true := decide_eq_true hn
  have hs : Calm m s := ⟨h, hg, hu, hwf⟩
  refine ⟨?_, ?_, ?_, ?_, ?_, ?_, ?_⟩
  · obtain ⟨t, u, hx, hy, ht, hu⟩ := hs.exec_stores_twice (rewrites_setPin _ m p hr).toStores
    exact ⟨t, u, hx, hy, by rw [hu, ht, BitVec.or_assoc, BitVec.or_self]⟩
  · obtain ⟨t, u, hx, hy, hu⟩ := hs.exec_stores_getPinState hr (rewrites_setPinState_high _ m p hr).toStores
    exact ⟨t, u, hx, hy, by rw [hu, getLsbD_or_mask hr]; rfl⟩
  · obtain ⟨t, u, hx, hy, hu⟩ := hs.exec_stores_getPinState hr (rewrites_setPinState_low _ m p hr).toStores
    exact ⟨t, u, hx, hy, by rw [hu, getLsbD_and_not_mask hr]; rfl⟩
  · obtain ⟨t, u, hx, hy, -, hu⟩ := hs.exec_stores_twice (rewrites_togglePin _ m p hr).toStores
    exact ⟨t, u, hx, hy, by rw [hu, BitVec.xor_assoc, BitVec.xor_self, BitVec.xor_zero]⟩
  · obtain ⟨t, hx, -, -, ht⟩ := hs.exec_stores (rewrites_setPins _ m p).toStores
    exact ⟨t, hx, ht⟩
  · obtain ⟨t, hx, -, -, ht⟩ := hs.exec_stores (stores_resetPins _ m p)
    exact ⟨t, hx, ht⟩
  · obtain ⟨t, u, hx, hy, -, hu⟩ := hs.exec_stores_twice (rewrites_togglePins _ m p).toStores
    exact ⟨t, u, hx, hy, by rw [hu, BitVec.not_not]⟩

end Sys2Proof.Proofs
end

section
/-! PROOF. The status a command ends with, and which of its operands and parameters that is owed to (R140, R141, R143, R173). -/

namespace Sys2Proof.Machine

/-- The response of a command that has ended, by its status: each error has the parameter that switches its check on and the
operand it is about, and `rsp_data` 0x00 (R140, R141, R144). -/
inductive Concluded (i : Instr) (c : Config) (t : State) : Prop
  | ok (v : Byte) (response : responseOf t = some ⟨v, .ok⟩)
  | invalidPinIndex (response : responseOf t = some ⟨0x00, .invalidPinIndex⟩) (check : c.pinCheck = true)
      (pin : i.wellFormed = false)
  | bankMismatch (a b : PortConfig) (response : responseOf t = some ⟨0x00, .bankMismatch⟩)
      (check : c.bankMismatchCheck = true) (construct : i = .construct a b) (bits : bankBitsDiffer c a b = true)
  | transportFailure (response : responseOf t = some ⟨0x00, .transportFailure⟩) (check : c.transportErrors = true)

theorem Ends.concluded {A : Byte → Prop} {c : Config} {s t : State} (h : Ends A s t) (hc : s.config = c) (i : Instr) :
    Concluded i c t := by
  obtain ⟨u, v, st, rfl, -, -, rfl | ⟨rfl, rfl, hte⟩⟩ := h
  · exact .ok v (responseOf_respond _ _ _)
  · exact .transportFailure (responseOf_respond _ _ _) (hc ▸ hte)

theorem Pushed.concluded {ws : List PushWrite} {c : Config} {s t : State} (h : Pushed ws s t) (hp : t.phase = .idle)
    (hc : s.config = c) (i : Instr) : Concluded i c t := by
  rcases h with ⟨u, rfl, -⟩ | ⟨u, rfl, -, -, hte⟩ | ⟨-, hq, -⟩
  · exact .ok 0x00 (responseOf_respond _ _ _)
  · exact .transportFailure (responseOf_respond _ _ _) (hc ▸ hte)
  · simp [hq] at hp

theorem Stands.pending {i : Instr} {m : BankMode} {s t : State} (h : Stands i m s t) : t.phase ≠ .idle := by
  rcases h with ⟨hp, -⟩ | ⟨hp, -⟩ <;> simp [hp]

/-- A command that has ended, from any state and at either grain. -/
theorem exec_concluded {i : Instr} {s t : State} (h : exec i s = .next t) (hp : t.phase = .idle) :
    Concluded i s.config t := by
  rcases exec_outcome h with ⟨hw, hk, rfl⟩ | ⟨-, -, -, -, rfl⟩ |
      ⟨a, b, hi, ⟨-, hk, hb, rfl⟩ | ⟨-, hr⟩ | ⟨n, u, -, -, hu, hr⟩⟩ | ⟨-, -, -, v, hv, hr | ⟨-, hr⟩⟩
  · exact .invalidPinIndex (responseOf_respond _ _ _) hk hw
  · exact .ok 0x00 (responseOf_respond _ _ _)
  · exact .bankMismatch a b (responseOf_respond _ _ _) hk hi hb
  · exact hr.concluded hp rfl i
  · exact hr.concluded hp (by rw [hu.eq]) i
  · exact hr.concluded (by rw [hv.eq]) i
  · exact absurd hp hr.pending

end Sys2Proof.Machine

namespace Sys2Proof.Proofs

open Sys2Proof Sys2Proof.Machine

/-- Settles O38: each error a command can end with has its check switched on. -/
theorem noErrorsByDefault : Obligations.NoErrorsByDefault := by
  unfold Obligations.NoErrorsByDefault
  intro i s t hpin hbank hte h hp
  cases exec_concluded h hp with
  | ok v hr => exact ⟨v, hr⟩
  | invalidPinIndex _ hk => simp [hpin] at hk
  | bankMismatch _ _ _ hk => simp [hbank] at hk
  | transportFailure _ hk => simp [hte] at hk

/-- Settles O39: the two errors of the operands are those of a pin index above 7 and of different bank bits. -/
theorem dutifulCommandsMeetNoOperandError : Obligations.DutifulCommandsMeetNoOperandError := by
  unfold Obligations.DutifulCommandsMeetNoOperandError
  rintro i s t ⟨hpins, hbits, -⟩ h hp
  cases exec_concluded h hp with
  | ok v hr => exact ⟨v, .ok, hr, .inl rfl⟩
  | invalidPinIndex _ _ hw => simp [hpins] at hw
  | bankMismatch a b _ _ hi hb => simp [hbits a b hi] at hb
  | transportFailure hr hk => exact ⟨0x00, .transportFailure, hr, .inr ⟨rfl, rfl, hk⟩⟩

end Sys2Proof.Proofs
end

section
/-! PROOF. A transaction that fails, seen by the block, ends the command it belongs to (R144, R152), at the grain of commands
(log 1). -/

namespace Sys2Proof.Machine

/-! ### A ready block at the grain of commands, by the first transaction of the command -/

section First
variable {i : Instr} {m : BankMode} {a b : Byte} {s : State}

theorem ReadyIn.exec_read (h : ReadyIn m s) (hg : s.grain = .command) (hr : readAddress s.config m i = some a)
    (hw : writeAddress s.config m i = none) :
    exec i s = lastRead a (fun v => responseByte v i) (accept (encode i) s) := by
  rw [exec_ready_of_transaction h (.inl (by simp [hr])), scriptOf_read (by exact hr) (by exact hw), readScript,
    opening_command (by exact hg)]

theorem ReadyIn.exec_write (h : ReadyIn m s) (hg : s.grain = .command) (hr : readAddress s.config m i = none)
    (hw : writeAddress s.config m i = some a) :
    exec i s = lastWrite a (writtenByte 0 i) (accept (encode i) s) := by
  rw [exec_ready_of_transaction h (.inr (by simp [hw])), scriptOf_write (by exact hr) (by exact hw), writeScript,
    opening_command (by exact hg)]

theorem ReadyIn.exec_rmw (h : ReadyIn m s) (hg : s.grain = .command) (hr : readAddress s.config m i = some a)
    (hw : writeAddress s.config m i = some b) :
    exec i s = rmwReadHalf a (fun x => writtenByte x i) (accept (encode i) s) := by
  have hp : ¬ (accept (encode i) s).phase = .wrPend := by simp [h.1]
  rw [exec_ready_of_transaction h (.inl (by simp [hr])), scriptOf_rmw (by exact hr) (by exact hw), rmwScript_eq, if_neg hp,
    opening_command (by exact hg)]

end First

/-! ### A failed transaction -/

section Fails
variable {i : Instr} {m : BankMode} {a v : Byte} {f : Byte → Byte} {took : Bool} {s u : State}

theorem lastRead_failed {post : Byte → Byte} (h : readByte a s = .failed u) :
    lastRead a post s = .next (respond 0x00 .transportFailure u) := by
  simp only [lastRead, h, endInError_eq]

theorem rmwReadHalf_failed (h : readByte a s = .failed u) :
    rmwReadHalf a f s = .next (respond 0x00 .transportFailure u) := by
  simp only [rmwReadHalf, h, endInError_eq]

theorem lastWrite_failed (h : writeByte .wrPend a v s = .failed u) :
    lastWrite a v s = .next (respond 0x00 .transportFailure u) := by
  simp only [lastWrite, h, endInError_eq]

/-- Whether it is its command's last transaction or a read half, a read that fails ends the command. -/
theorem ReadyIn.exec_of_failedRead (h : ReadyIn m s) (hg : s.grain = .command) (hr : readAddress s.config m i = some a)
    (hf : readByte a (accept (encode i) s) = .failed u) : exec i s = .next (respond 0x00 .transportFailure u) := by
  cases hw : writeAddress s.config m i with
  | none => rw [h.exec_read hg hr hw, lastRead_failed hf]
  | some b => rw [h.exec_rmw hg hr hw, rmwReadHalf_failed hf]

/-- A last write that fails is recorded and ends the command. -/
theorem lastWrite_fails (hte : s.config.transportErrors = true) (hg : s.grain = .command) (hf : FailsAt 0 took s) :
    ∃ mm, lastWrite a v s = .next { s with
      phase := .idle, bus := none, cmd := none, tmp := none, idx := none, rsp := some ⟨0x00, .transportFailure⟩,
      due := none, awaited := false, memory := mm, turns := s.turns.tail, history := s.history ++ [.writeFailed a v] } := by
  obtain ⟨mm, hw⟩ := writeByte_fails (ph := .wrPend) (a := a) (v := v) hte hf
  exact ⟨mm, by rw [lastWrite_failed hw, respond_command (by exact hg)]⟩

/-- A read-modify-write whose read completes and whose write fails. -/
theorem rmwReadHalf_writeFails (hte : s.config.transportErrors = true) (hg : s.grain = .command) (hf : FailsAt 1 took s) :
    ∃ x d mm, rmwReadHalf a f s = .next { s with
      phase := .idle, bus := none, cmd := none, tmp := none, idx := none, rsp := some ⟨0x00, .transportFailure⟩,
      due := none, awaited := false, memory := mm, turns := s.turns.tail.tail,
      history := s.history ++ [.read a x, .writeFailed a (f x)], draws := d } := by
  obtain ⟨x, d, hr, -⟩ := readByte_completes (a := a) hf.1
  have hhalf := rmwReadHalf_done (f := f) hr
  rw [following_command (by exact hg), rmwWriteHalf, tmpOf_some (latchTmp_tmp _ _), noteTmp_some (latchTmp_tmp _ _)] at hhalf
  obtain ⟨mm, hw⟩ := lastWrite_fails (a := a) (v := f x) (s := latchTmp x { s with
    phase := .rdPend, bus := none, memory := spaceAt 0 s, turns := s.turns.tail,
    history := s.history ++ [.read a x], draws := d }) hte hg (failsAt_next hf rfl)
  refine ⟨x, d, mm, hhalf.trans (hw.trans ?_)⟩
  simp [latchTmp]

end Fails

end Sys2Proof.Machine

namespace Sys2Proof.Proofs

open Sys2Proof Sys2Proof.Machine

/-- Settles O40: the read fails from the acceptance of the command, and the command ends with nothing written. -/
theorem failedReadEndsTheCommand : Obligations.FailedReadEndsTheCommand := by
  unfold Obligations.FailedReadEndsTheCommand
  intro i a m took s h hg hte hf hr
  have hread := readByte_fails (a := a) (s := accept (encode i) s) hte hf
  rw [spaceAt_accept] at hread
  rw [h.exec_of_failedRead hg hr hread, respond_command (by exact hg)]
  obtain ⟨hp, hd, -⟩ := h
  rw [← hp, ← hd]
  rfl

/-- Settles O41: the write fails from the acceptance of the command or behind its read, and the command ends. -/
theorem failedWriteEndsTheCommand : Obligations.FailedWriteEndsTheCommand := by
  unfold Obligations.FailedWriteEndsTheCommand
  refine fun i a m took s h hg hte hw => ⟨fun hr hf => ?_, fun hr hf => ?_⟩
  · obtain ⟨mm, hx⟩ := lastWrite_fails (a := a) (v := writtenByte 0 i) (s := accept (encode i) s) hte hg hf
    exact ⟨_, (h.exec_write hg hr hw).trans hx, ⟨rfl, rfl, rfl, rfl, rfl, rfl, rfl, rfl⟩, rfl,
      ⟨rfl, rfl, rfl, rfl, rfl, rfl, rfl⟩⟩
  · obtain ⟨x, d, mm, hx⟩ := rmwReadHalf_writeFails (a := a) (f := fun x => writtenByte x i) (s := accept (encode i) s)
      hte hg hf
    exact ⟨x, _, (h.exec_rmw hg hr hw).trans hx, ⟨rfl, rfl, rfl, rfl, rfl, rfl, rfl, rfl⟩, rfl,
      ⟨rfl, rfl, rfl, rfl, rfl, rfl, rfl⟩⟩

/-- Settles O42: the fresh block runs its push in the derived mode, which ends at write number `n`. -/
theorem failedConstructionWriteStopsThePush : Obligations.FailedConstructionWriteStopsThePush := by
  unfold Obligations.FailedConstructionWriteStopsThePush
  intro cfgA cfgB n took s hf hg hte hfail hb
  have hlt : n.val < (pushWrites s.config (derivedMode s.config cfgA cfgB) cfgA cfgB).length := by
    rw [pushWrites_length]; exact n.isLt
  obtain ⟨t, w, ht, hi, hm, hrest⟩ := pushScript_fails _ 0 n.val took
    (cacheMode (derivedMode s.config cfgA cfgB) (accept (encode (.construct cfgA cfgB)) s)) hg hfail hte hlt
  have hx := (exec_construct_fresh hf hb).trans ((pushFromStart_command (by exact hg)).trans ht)
  exact ⟨t, w, hx, hi.trans hf.2.2, hm, hrest⟩

end Sys2Proof.Proofs
end

section
/-! PROOF. A change of ENV between the halves of a read-modify-write, and two commands that alias one location (R163, R166). -/

namespace Sys2Proof.Machine

/-! ### The lost update (R42, R163) -/

/-- ENV's own changes up to any of its coming turns keep the canonical form. -/
theorem spaceAt_wf {s : State} (h : Memory.wf s.memory) (n : Nat) : Memory.wf (spaceAt n s) := by
  induction n with
  | zero => exact pokeAll_wf _ _ h
  | succ n ih => exact pokeAll_wf _ _ ih

/-- The location ends with `f` of the byte it held at the read, whatever ENV changes between the read and the write. -/
theorem Rewrites.read_after {i : Instr} {a : Byte} {f : Byte → Byte} {m : BankMode} {s : State}
    (hi : Rewrites i s.config m a f) (h : ReadyIn m s) (hg : s.grain = .command) (hcp : Completes 2 s)
    (he : s.env = .reference) (hwf : Memory.wf s.memory) :
    ∃ t, exec i s = .next t ∧ Memory.read t.memory a = f (Memory.read (spaceAt 0 s) a) := by
  obtain ⟨x, t, hx, -, -, href, -⟩ := hi.completes h hg hcp
  obtain ⟨rfl, hmem⟩ := href he
  exact ⟨t, hx, by rw [hmem, Memory.read_write_same _ _ _ (spaceAt_wf hwf 1)]⟩

/-! ### Two commands that issue the same transactions (R166) -/

/-- In mode `m` two commands read and write at the same addresses, write the same bytes and respond alike. -/
structure SameTransactions (i j : Instr) (c : Config) (m : BankMode) : Prop where
  read : readAddress c m i = readAddress c m j
  write : writeAddress c m i = writeAddress c m j
  response : ∀ x, responseByte x i = responseByte x j
  byte : ∀ x, writtenByte x i = writtenByte x j

section SameTransactions
variable {i j : Instr} {m : BankMode} {s : State}

theorem SameTransactions.scriptOf_eq (h : SameTransactions i j s.config m) : scriptOf i m s = scriptOf j m s := by
  simp only [scriptOf, h.read, h.write, h.response, h.byte]

/-- Issued by a ready block, two such commands leave one next state but for the word in `cmd`. -/
theorem SameTransactions.exec_eq (hs : SameTransactions i j s.config m) (h : ReadyIn m s)
    (ht : (readAddress s.config m i).isSome = true ∨ (writeAddress s.config m i).isSome = true) :
    ∃ t c, exec i s = .next t ∧ exec j s = .next { t with cmd := c } ∧
      (t.phase = .idle → t.cmd = none ∧ c = none) ∧
      (t.phase ≠ .idle → t.cmd = some (encode i) ∧ c = some (encode j)) := by
  have hi : exec i s = scriptOf i m (accept (encode i) s) := exec_ready_of_transaction h ht
  have hj : exec j s = scriptOf i m (accept (encode j) s) := by
    rw [exec_ready_of_transaction h (by rwa [← hs.read, ← hs.write])]
    exact (SameTransactions.scriptOf_eq (s := accept (encode j) s) hs).symm
  obtain ⟨hp, -⟩ := h
  have hfree : CmdFree (scriptOf i m) s := scriptOf_cmdFree hp ht
  obtain hsame | ⟨r, hr, -⟩ := hfree.sameButWord hj hi
  · exact hsame
  · obtain ⟨t, ha⟩ := scriptOf_answers (s := accept (encode i) s) ht
    rw [hi, ha] at hr
    cases hr

end SameTransactions

end Sys2Proof.Machine

namespace Sys2Proof.Proofs

open Sys2Proof Sys2Proof.Machine

/-- Settles O51: each command rewrites current-value with its operation on the byte read, and at the read ENV has changed
nothing. -/
theorem updateBetweenTheHalvesIsLost : Obligations.UpdateBetweenTheHalvesIsLost := by
  unfold Obligations.UpdateBetweenTheHalvesIsLost
  intro p pin w m s rest h hg he hwf hn hturns f hf
  have hr : pinInRange pin = true := decide_eq_true hn
  have hcp : Completes 2 s := by simp [Completes, hturns]
  have hread : spaceAt 0 s = s.memory := by simp [spaceAt, pokesAt, hturns, pokeAll]
  have hi : Rewrites f.1 s.config m (address s.config p .currentValue m) f.2 := by
    simp only [List.mem_cons, List.not_mem_nil, or_false] at hf
    rcases hf with rfl | rfl | rfl | rfl | rfl | rfl | rfl
    · exact rewrites_setPin _ m p hr
    · exact rewrites_resetPin _ m p hr
    · exact rewrites_togglePin _ m p hr
    · exact rewrites_setPinState_high _ m p hr
    · exact rewrites_setPinState_low _ m p hr
    · exact rewrites_setPins _ m p
    · exact rewrites_togglePins _ m p
  rw [← hread]
  exact hi.read_after h hg hcp he hwf

/-- Settles O52: the two registers share an address (R75), so the commands of each pair issue the same transactions. -/
theorem aliasedCommandsIssueTheSameTransaction : Obligations.AliasedCommandsIssueTheSameTransaction := by
  unfold Obligations.AliasedCommandsIssueTheSameTransaction
  intro v s h hc ij hij
  obtain ⟨hseparate, -⟩ := sharedAddressesAreExactlyTheListedPairs
  obtain ⟨-, ha⟩ := (hseparate .a .b .outputLatch .direction).mpr (.inl ⟨rfl, rfl, rfl, rfl⟩)
  rw [← hc] at ha
  simp only [List.mem_cons, List.not_mem_nil, or_false] at hij
  rcases hij with rfl | rfl
  · exact SameTransactions.exec_eq ⟨rfl, congrArg some ha, fun _ => rfl, fun _ => rfl⟩ h (.inr rfl)
  · exact SameTransactions.exec_eq ⟨congrArg some ha, rfl, fun _ => rfl, fun _ => rfl⟩ h (.inl rfl)

end Sys2Proof.Proofs
end
